-- ==== Sys2Proof/Word.lean ====
section
/-! DEFINITION. The bit-vector types of the interface (00_scope.md R9, R10). Patterns are `BitVec n`, bit 0 the least
significant; `toNat` and `toInt` are R11's unsigned and two's-complement readings, and `BitVec.ofInt w` is its `wrap_W`. -/

namespace Sys2Proof

/-- One byte of a byte image (20_memory.md R43). -/
abbrev Byte := BitVec 8

/-- The operation word `OPW[7:0]` (30_encoding.md R60). -/
abbrev OpWord := BitVec 8

/-- The control half-word `ctl[15:0]` of a Divider (30_encoding.md R66). -/
abbrev Ctl := BitVec 16

/-- A numerator or quotient group (30_encoding.md R68), held as its 64-bit words, the word of bits `[63:0]` first: `VLEN_BITS / 64`
words. DESIGN CHOICE, entry 5: the value is the same `VLEN_BITS`-bit number, cut into words so that one type serves every
`VLEN_BITS`. -/
abbrev Group := List (BitVec 64)

/-- The operand lane that carries a `W`-bit operand at either width; at `W = 32` the operand is the low 32 bits.
DESIGN CHOICE, entry 3. -/
abbrev OperandLane := BitVec 64

end Sys2Proof
end

