-- ==== Sys2Proof/Machine/Arith.lean ====
section
/-! DEFINITION. The integer primitives of 40_arithmetic.md, each a total function written from its rule (R90): exact on unbounded
integers, then wrapped to `W` bits. `BitVec.ofNat w` and `BitVec.ofInt w` are `wrap_W`. -/

namespace Sys2Proof.Machine

variable {w : Nat}

/-- `add_W` (R92). -/
def addW (a b : BitVec w) : BitVec w := BitVec.ofNat w (a.toNat + b.toNat)

/-- `sub_W` (R92). -/
def subW (a b : BitVec w) : BitVec w := BitVec.ofInt w ((a.toNat : Int) - b.toNat)

/-- `xor_W` (R93). -/
def xorW (a b : BitVec w) : BitVec w := a ^^^ b

/-- `and_W` (R93). -/
def andW (a b : BitVec w) : BitVec w := a &&& b

/-- `smask_W` (R94): all ones for a set bit, all zeros for a clear one. -/
def smask (w : Nat) (b : Bool) : BitVec w := if b then BitVec.allOnes w else 0#w

/-- `cneg_W` (R94): exclusive-or with the mask, then subtract the mask. -/
def cneg (v m : BitVec w) : BitVec w := subW (xorW v m) m

/-- `uabs_W` (R95): the magnitude of the signed value, as an unsigned pattern. -/
def uabs (d : BitVec w) : BitVec w := if d.msb then subW 0#w d else d

/-- `shr_W` (R96): logical right shift. -/
def shr (v : BitVec w) (s : Nat) : BitVec w := BitVec.ofNat w (v.toNat / 2 ^ s)

/-- `sar_W` (R97): arithmetic right shift, the floor of the signed quotient. -/
def sar (v : BitVec w) (s : Nat) : BitVec w := BitVec.ofInt w (v.toInt / 2 ^ s)

/-- `mulhu_W` (R98): the upper half of the unsigned product. -/
def mulhu (a b : BitVec w) : BitVec w := BitVec.ofNat w (a.toNat * b.toNat / 2 ^ w)

/-- `mulhs_W` (R99): the upper half of the signed product, floor toward minus infinity. -/
def mulhs (a b : BitVec w) : BitVec w := BitVec.ofInt w (a.toInt * b.toInt / 2 ^ w)

/-- `mulwide_W` (R101): the high and low halves of the unsigned product. -/
def mulwide (a b : BitVec w) : BitVec w × BitVec w := (mulhu a b, BitVec.ofNat w (a.toNat * b.toNat))

/-- The exact assembly of `mulhu_64` from 32-bit halves (R102), every line a 64-bit value. Whether a unit computes its high multiply
so cannot be observed (44_batched_divide.md R204): no operation calls it. DEDUCED, entry 14. -/
def mulhuFromHalves (x y : BitVec 64) : BitVec 64 :=
  let x0 := (x.extractLsb' 0 32).setWidth 64
  let x1 := (x.extractLsb' 32 32).setWidth 64
  let y0 := (y.extractLsb' 0 32).setWidth 64
  let y1 := (y.extractLsb' 32 32).setWidth 64
  let p00hi := shr (x0 * y0) 32
  let p01 := x0 * y1
  let p10 := x1 * y0
  let p11 := x1 * y1
  let t := addW p10 p00hi
  let tLo := (t.extractLsb' 0 32).setWidth 64
  let tHi := shr t 32
  addW (addW p11 tHi) (shr (addW tLo p01) 32)

/-- The exact assembly of `mulhs_64` from 32-bit halves (R103), the upper halves signed. No operation calls it (R204,
entry 14). -/
def mulhsFromHalves (x y : BitVec 64) : BitVec 64 :=
  let x0 := (x.extractLsb' 0 32).setWidth 64
  let x1 := (x.extractLsb' 32 32).signExtend 64
  let y0 := (y.extractLsb' 0 32).setWidth 64
  let y1 := (y.extractLsb' 32 32).signExtend 64
  let p00hi := shr (x0 * y0) 32
  let t := addW (x1 * y0) p00hi
  let w1 := addW (x0 * y1) ((t.extractLsb' 0 32).setWidth 64)
  addW (addW (x1 * y1) (sar t 32)) (sar w1 32)

/-- `flog2` (R104): the position of the highest set bit. No rule applies it to zero: entry 17. -/
def flog2 (v : BitVec w) : Nat := Nat.log2 v.toNat

/-- `ispow2` (R105): exactly one bit is set. -/
def ispow2 (v : BitVec w) : Bool := v.toNat == 2 ^ flog2 v

/-- `wdiv_W` (R106): quotient and remainder of `2^e` by the unsigned value, on unbounded integers. -/
def wdiv (e : Nat) (d : BitVec w) : Nat × Nat := (2 ^ e / d.toNat, 2 ^ e % d.toNat)

/-- `udiv_W` (R107): unsigned hardware division. No rule applies it to a zero divisor: entry 17. -/
def udiv (n d : BitVec w) : BitVec w := BitVec.ofNat w (n.toNat / d.toNat)

/-- `tdiv_W` (R108): signed hardware division, truncating toward zero and wrapping at `MIN_W / -1`. No rule applies it to a zero
divisor: entry 17. -/
def tdiv (n d : BitVec w) : BitVec w :=
  let m := n.toInt.natAbs / d.toInt.natAbs
  if n.toInt < 0 ↔ d.toInt < 0 then BitVec.ofInt w m else BitVec.ofInt w (-(m : Int))

end Sys2Proof.Machine
end

