-- ==== Sys2Proof/Config.lean ====
section
/-! DEFINITION. The one implementation parameter of the unit, `VLEN_BITS` (00_scope.md R7, R8), and the free padding of a byte
image. -/

namespace Sys2Proof

/-- The values the spec allows for `VLEN_BITS` (00_scope.md R7). -/
inductive Vlen where
  | v128
  | v256
  | v512
deriving DecidableEq, Repr

/-- `VLEN_BITS` (00_scope.md R7). -/
def Vlen.bits : Vlen → Nat
  | .v128 => 128
  | .v256 => 256
  | .v512 => 512

/-- How many 64-bit words a group of this unit has (entry 5). -/
def Vlen.words (v : Vlen) : Nat := v.bits / 64

/-- `LANES(W) = VLEN_BITS / W` (00_scope.md R7, 44_batched_divide.md R201). -/
def Vlen.lanes (v : Vlen) (w : Nat) : Nat := v.bits / w

/-- The instance that `State.reset` stands for. The spec leaves `VLEN_BITS` open (D13): DESIGN CHOICE, unsafe, entry 4. No
statement rests on it: each quantifies over the field `State.vlen`. -/
def Config.resetVlen : Vlen := .v128

/-- The bits above the value in the last byte of the image of a value of `n` bits that is no whole number of bytes. 20_memory.md R43
gives no padding: a free value of the width and the value, DESIGN CHOICE, entry 18. -/
opaque Config.imagePadding (n x : Nat) : Byte

end Sys2Proof
end

