-- ==== Sys2Proof/Syntax.lean ====
section
/-! DEFINITION. The values of the interface: the Divider, the request frame, and the 32 operations of
spec/opcode_table.json (30_encoding.md R61), one constructor a row, each carrying the operands of its format (R63). -/

namespace Sys2Proof

/-- The signedness `S` of an operation (00_scope.md R6, R14). -/
inductive Signedness where
  | unsigned
  | signed
deriving DecidableEq, Repr

/-- The variant `V` of an operation (00_scope.md R6, R14). -/
inductive Variant where
  | branchfull
  | branchfree
deriving DecidableEq, Repr

/-- A Divider: `magic[W-1:0]` and `ctl[15:0]` (10_state.md R27, 30_encoding.md R65). Its kind (`S`, `W`, `V`) is a type index, as
10_state.md R32 advises; the bits do not record it. -/
structure Divider (w : Nat) (sg : Signedness) (va : Variant) where
  magic : BitVec w
  ctl : Ctl
deriving DecidableEq, Repr

/-- A client reads the bits of a Divider of one kind as a Divider of another kind of the same width (10_state.md R32,
70_reset_and_hazards.md R274): the unit neither records nor checks the kind. No
operation calls it: entry 7. -/
def Divider.rekind {w : Nat} {sg sg' : Signedness} {va va' : Variant} (dv : Divider w sg va) : Divider w sg' va' :=
  { magic := dv.magic, ctl := dv.ctl }

/-- The function field `FUNC` of an operation word (30_encoding.md R60). -/
inductive Func where
  | gen
  | strat
  | div
  | vdiv
deriving DecidableEq, Repr

/-- The four fields of a legal operation word (30_encoding.md R60). -/
structure OpFields where
  func : Func
  /-- `W64`: `W` is 64 -/
  w64 : Bool
  /-- `SGN`: signed -/
  sgn : Bool
  /-- `BF`: branchfree -/
  bf : Bool
deriving DecidableEq, Repr

/-- The frame of one request: the operation word and the operand lanes (10_state.md R24, 30_encoding.md R63). Each format uses some
of the lanes; the others are absent from the request and nothing depends on them. DESIGN CHOICE, entry 3: the lanes' widths. -/
structure Request where
  opw : OpWord
  d : OperandLane
  magic : OperandLane
  ctl : Ctl
  n : OperandLane
  nv : Group
deriving DecidableEq, Repr

/-- The 32 operations with their operands, in the order of spec/opcode_table.json. -/
inductive Instr where
  /-- `GEN.U32`, R130 -/
  | genU32 (d : BitVec 32)
  /-- `STRAT.U32`, R160 -/
  | stratU32 (dv : Divider 32 .unsigned .branchfull)
  /-- `DIV.U32`, R180 -/
  | divU32 (dv : Divider 32 .unsigned .branchfull) (n : BitVec 32)
  /-- `VDIV.U32`, R210 -/
  | vdivU32 (dv : Divider 32 .unsigned .branchfull) (nv : Group)
  /-- `GEN.U64`, R131 -/
  | genU64 (d : BitVec 64)
  /-- `STRAT.U64`, R161 -/
  | stratU64 (dv : Divider 64 .unsigned .branchfull)
  /-- `DIV.U64`, R181 -/
  | divU64 (dv : Divider 64 .unsigned .branchfull) (n : BitVec 64)
  /-- `VDIV.U64`, R211 -/
  | vdivU64 (dv : Divider 64 .unsigned .branchfull) (nv : Group)
  /-- `GEN.S32`, R134 -/
  | genS32 (d : BitVec 32)
  /-- `STRAT.S32`, R164 -/
  | stratS32 (dv : Divider 32 .signed .branchfull)
  /-- `DIV.S32`, R184 -/
  | divS32 (dv : Divider 32 .signed .branchfull) (n : BitVec 32)
  /-- `VDIV.S32`, R214 -/
  | vdivS32 (dv : Divider 32 .signed .branchfull) (nv : Group)
  /-- `GEN.S64`, R135 -/
  | genS64 (d : BitVec 64)
  /-- `STRAT.S64`, R165 -/
  | stratS64 (dv : Divider 64 .signed .branchfull)
  /-- `DIV.S64`, R185 -/
  | divS64 (dv : Divider 64 .signed .branchfull) (n : BitVec 64)
  /-- `VDIV.S64`, R215 -/
  | vdivS64 (dv : Divider 64 .signed .branchfull) (nv : Group)
  /-- `GEN.U32.BF`, R132 -/
  | genU32Bf (d : BitVec 32)
  /-- `STRAT.U32.BF`, R162 -/
  | stratU32Bf (dv : Divider 32 .unsigned .branchfree)
  /-- `DIV.U32.BF`, R182 -/
  | divU32Bf (dv : Divider 32 .unsigned .branchfree) (n : BitVec 32)
  /-- `VDIV.U32.BF`, R212 -/
  | vdivU32Bf (dv : Divider 32 .unsigned .branchfree) (nv : Group)
  /-- `GEN.U64.BF`, R133 -/
  | genU64Bf (d : BitVec 64)
  /-- `STRAT.U64.BF`, R163 -/
  | stratU64Bf (dv : Divider 64 .unsigned .branchfree)
  /-- `DIV.U64.BF`, R183 -/
  | divU64Bf (dv : Divider 64 .unsigned .branchfree) (n : BitVec 64)
  /-- `VDIV.U64.BF`, R213 -/
  | vdivU64Bf (dv : Divider 64 .unsigned .branchfree) (nv : Group)
  /-- `GEN.S32.BF`, R136 -/
  | genS32Bf (d : BitVec 32)
  /-- `STRAT.S32.BF`, R166 -/
  | stratS32Bf (dv : Divider 32 .signed .branchfree)
  /-- `DIV.S32.BF`, R186 -/
  | divS32Bf (dv : Divider 32 .signed .branchfree) (n : BitVec 32)
  /-- `VDIV.S32.BF`, R216 -/
  | vdivS32Bf (dv : Divider 32 .signed .branchfree) (nv : Group)
  /-- `GEN.S64.BF`, R137 -/
  | genS64Bf (d : BitVec 64)
  /-- `STRAT.S64.BF`, R167 -/
  | stratS64Bf (dv : Divider 64 .signed .branchfree)
  /-- `DIV.S64.BF`, R187 -/
  | divS64Bf (dv : Divider 64 .signed .branchfree) (n : BitVec 64)
  /-- `VDIV.S64.BF`, R217 -/
  | vdivS64Bf (dv : Divider 64 .signed .branchfree) (nv : Group)
deriving DecidableEq, Repr

end Sys2Proof
end

