-- ==== Sys2Proof/Machine/Operands.lean ====
section
/-! DEFINITION. How an operation reads its operands: the fields of `ctl` (30_encoding.md R67) and the lanes of a group
(30_encoding.md R68, 44_batched_divide.md R201, R206). -/

namespace Sys2Proof.Machine

section DividerFields
variable {w : Nat} {sg : Signedness} {va : Variant}

/-- The shift amount: `ctl[4:0]` at `W = 32`, `ctl[5:0]` at `W = 64` (R67), so it is below `W` for every pattern of `ctl`. -/
def shiftOf (dv : Divider w sg va) : Nat :=
  if w = 32 then (dv.ctl.extractLsb' 0 5).toNat else (dv.ctl.extractLsb' 0 6).toNat

/-- `ADD = ctl[6]` (R66, R67). -/
def addOf (dv : Divider w sg va) : Bool := dv.ctl.getLsbD 6

/-- `NEG = ctl[7]` (R66, R67). -/
def negOf (dv : Divider w sg va) : Bool := dv.ctl.getLsbD 7

/-- `POW2 = ctl[8]` (R66, R67). -/
def pow2Of (dv : Divider w sg va) : Bool := dv.ctl.getLsbD 8

end DividerFields

/-- The number whose base-`2^W` digits are the list's entries, the first the least significant. -/
def packNat {w : Nat} : List (BitVec w) → Nat
  | [] => 0
  | x :: xs => x.toNat + 2 ^ w * packNat xs

/-- The value of a group as one unsigned number (30_encoding.md R68). -/
def groupValue (g : Group) : Nat := packNat g

/-- The group of a unit of this `VLEN_BITS` with a given value (30_encoding.md R68). -/
def groupOfValue (v : Vlen) (x : Nat) : Group := (List.range v.words).map fun k => BitVec.ofNat 64 (x >>> (64 * k))

/-- Lane `i` of a group: bits `[W*i + W-1 : W*i]` of its value (30_encoding.md R68). -/
def lane (w i : Nat) (g : Group) : BitVec w := BitVec.ofNat w (groupValue g >>> (w * i))

/-- The lanes of a group in a unit of this `VLEN_BITS`, lane 0 first (44_batched_divide.md R201). -/
def lanesOf (v : Vlen) (w : Nat) (g : Group) : List (BitVec w) := (List.range (v.lanes w)).map fun i => lane w i g

/-- `for all i: QV.lane[i] = f(NV.lane[i])` (44_batched_divide.md R203, R206). -/
def mapLanes (v : Vlen) {w : Nat} (f : BitVec w → BitVec w) (nv : Group) : Group :=
  groupOfValue v (packNat ((lanesOf v w nv).map f))

end Sys2Proof.Machine
end

