-- ==== Sys2Proof/WellFormed.lean ====
section
/-! DEFINITION. The checks on the values of the interface: an operation whose operands the unit of this `VLEN_BITS` can be given,
a request frame that holds its operation's operands and nothing else, and the properties R33 of a generated Divider. -/

namespace Sys2Proof

/-- The group is a `VLEN_BITS`-bit value (30_encoding.md R68). -/
def groupFits (v : Vlen) (nv : Group) : Bool := nv.length == v.words

/-- The operands of the operation have the widths of 10_state.md R24 in a unit of this `VLEN_BITS`. Only a group can fail: every
other operand has its width by its type, and every operation word of the table is defined (30_encoding.md R61). -/
def Instr.wellFormed (v : Vlen) : Instr → Bool
  | .genU32 _ => true
  | .stratU32 _ => true
  | .divU32 _ _ => true
  | .vdivU32 _ nv => groupFits v nv
  | .genU64 _ => true
  | .stratU64 _ => true
  | .divU64 _ _ => true
  | .vdivU64 _ nv => groupFits v nv
  | .genS32 _ => true
  | .stratS32 _ => true
  | .divS32 _ _ => true
  | .vdivS32 _ nv => groupFits v nv
  | .genS64 _ => true
  | .stratS64 _ => true
  | .divS64 _ _ => true
  | .vdivS64 _ nv => groupFits v nv
  | .genU32Bf _ => true
  | .stratU32Bf _ => true
  | .divU32Bf _ _ => true
  | .vdivU32Bf _ nv => groupFits v nv
  | .genU64Bf _ => true
  | .stratU64Bf _ => true
  | .divU64Bf _ _ => true
  | .vdivU64Bf _ nv => groupFits v nv
  | .genS32Bf _ => true
  | .stratS32Bf _ => true
  | .divS32Bf _ _ => true
  | .vdivS32Bf _ nv => groupFits v nv
  | .genS64Bf _ => true
  | .stratS64Bf _ => true
  | .divS64Bf _ _ => true
  | .vdivS64Bf _ nv => groupFits v nv

/-- Check 1: the reserved bits `OPW[7:5]` are zero (30_encoding.md R60, R73). -/
def Request.reservedClear (q : Request) : Bool := q.opw.extractLsb' 5 3 == 0

/-- The operation has `W = 64` (30_encoding.md R60, bit 2). -/
def Request.isWide (q : Request) : Bool := q.opw.getLsbD 2

/-- An operand lane holds a `W`-bit operand when the format has it, and nothing when it does not (30_encoding.md R63). -/
def Request.laneFits (q : Request) (used : Bool) (x : OperandLane) : Bool :=
  if used then q.isWide || x.toNat < 2 ^ 32 else x == 0

/-- Check 2: the divisor is present in format G only. -/
def Request.divisorFits (q : Request) : Bool := q.laneFits (q.opw.extractLsb' 0 2 == 0) q.d

/-- Check 3: the Divider is present in formats C, S and B only. -/
def Request.dividerFits (q : Request) : Bool :=
  q.laneFits (q.opw.extractLsb' 0 2 != 0) q.magic && (q.opw.extractLsb' 0 2 != 0 || q.ctl == 0)

/-- Check 4: the numerator is present in format S only. -/
def Request.numeratorFits (q : Request) : Bool := q.laneFits (q.opw.extractLsb' 0 2 == 2) q.n

/-- Check 5: the numerator group is present in format B only, and is a `VLEN_BITS`-bit value. -/
def Request.groupLaneFits (v : Vlen) (q : Request) : Bool :=
  if q.opw.extractLsb' 0 2 == 3 then groupFits v q.nv else q.nv == []

/-- The frame is that of a legal operation and holds its operands and nothing else (30_encoding.md R63). -/
def Request.wellFormed (v : Vlen) (q : Request) : Bool :=
  q.reservedClear && q.divisorFits && q.dividerFits && q.numeratorFits && q.groupLaneFits v

/-- R33 (a): the stored shift is at most `W - 1`. -/
def Divider.shiftInRange {w : Nat} {sg : Signedness} {va : Variant} (dv : Divider w sg va) : Bool :=
  (dv.ctl.extractLsb' 0 6).toNat < w

/-- R33 (b): `POW2` is set exactly when `magic` is zero. -/
def Divider.pow2IsSentinel {w : Nat} {sg : Signedness} {va : Variant} (dv : Divider w sg va) : Bool :=
  dv.ctl.getLsbD 8 == (dv.magic == 0)

/-- R33 (c): `POW2` and `ADD` are never both set. -/
def Divider.pow2ExcludesAdd {w : Nat} {sg : Signedness} {va : Variant} (dv : Divider w sg va) : Bool :=
  !(dv.ctl.getLsbD 8 && dv.ctl.getLsbD 6)

/-- R33 (d), first half: `NEG` is clear in an unsigned kind. -/
def Divider.unsignedNegClear {w : Nat} {sg : Signedness} {va : Variant} (dv : Divider w sg va) : Bool :=
  sg == .signed || !dv.ctl.getLsbD 7

/-- R33 (e): in a branchfree kind `ADD` is set exactly when `POW2` is clear. -/
def Divider.branchfreeAdd {w : Nat} {sg : Signedness} {va : Variant} (dv : Divider w sg va) : Bool :=
  va == .branchfull || dv.ctl.getLsbD 6 == !dv.ctl.getLsbD 8

/-- R33 (f): in a signed kind with `POW2` clear, `ADD` is the top bit of `magic`. -/
def Divider.signedAddIsTopBit {w : Nat} {sg : Signedness} {va : Variant} (dv : Divider w sg va) : Bool :=
  sg == .unsigned || dv.ctl.getLsbD 8 || dv.ctl.getLsbD 6 == dv.magic.msb

/-- R33 (g): the reserved bits `ctl[15:9]` are zero, and at `W = 32` so is `ctl[5]`. -/
def Divider.reservedClear {w : Nat} {sg : Signedness} {va : Variant} (dv : Divider w sg va) : Bool :=
  dv.ctl.extractLsb' 9 7 == 0 && (w != 32 || !dv.ctl.getLsbD 5)

/-- The properties R33 (a) to (g) of 10_state.md that can be read off a Divider's bits and kind. -/
def Divider.wellFormed {w : Nat} {sg : Signedness} {va : Variant} (dv : Divider w sg va) : Bool :=
  dv.shiftInRange && dv.pow2IsSentinel && dv.pow2ExcludesAdd && dv.unsignedNegClear && dv.branchfreeAdd
    && dv.signedAddIsTopBit && dv.reservedClear

end Sys2Proof
end

