-- ==== Sys2Proof/Decode.lean ====
section
/-! DEFINITION. The decoder of a request (30_encoding.md R62), total, rejecting an illegal operation word by name, and the
encoder written from the same tables (R60, R61, R63). -/

namespace Sys2Proof

/-- Why the decoder rejects a request: an operation word with `OPW[7:5] != 0` (30_encoding.md R73). The unit answers it with
`ILLEGAL_OPERATION` (60_exceptions.md R233). -/
inductive Reject where
  | illegalOperation
deriving DecidableEq, Repr

/-- `FUNC` from `OPW[1:0]` (30_encoding.md R60). -/
def Func.ofBits (b : BitVec 2) : Func :=
  if b == 0 then .gen else if b == 1 then .strat else if b == 2 then .div else .vdiv

/-- The fields of an operation word, or its rejection (30_encoding.md R62): reserved bits first, then `FUNC`, `W64`, `SGN` and `BF`
from their bits. -/
def readOpFields (opw : OpWord) : Except Reject OpFields :=
  if opw.extractLsb' 5 3 == 0 then
    .ok { func := Func.ofBits (opw.extractLsb' 0 2), w64 := opw.getLsbD 2, sgn := opw.getLsbD 3, bf := opw.getLsbD 4 }
  else .error .illegalOperation

/-- The 32-bit operand in an operand lane: its low 32 bits (entry 3). -/
def operand32 (x : OperandLane) : BitVec 32 := x.setWidth 32

/-- The Divider operand at `W = 32`, read as a Divider of the operation's own kind (10_state.md R32). -/
def Request.divider32 (q : Request) (sg : Signedness) (va : Variant) : Divider 32 sg va :=
  { magic := operand32 q.magic, ctl := q.ctl }

/-- The Divider operand at `W = 64`, read as a Divider of the operation's own kind (10_state.md R32). -/
def Request.divider64 (q : Request) (sg : Signedness) (va : Variant) : Divider 64 sg va :=
  { magic := q.magic, ctl := q.ctl }

/-- The numerator group: `VLEN_BITS` bits from its lane, which holds them exactly in a request of this unit; a lane that holds
fewer reads as zero above, and what it holds beyond is not read (30_encoding.md R68, entry 5). -/
def Request.group (v : Vlen) (q : Request) : Group := (List.range v.words).map fun k => q.nv.getD k 0#64

/-- The operation that four fields name, with the operands of its format (30_encoding.md R61, R63). -/
def assemble (v : Vlen) (f : OpFields) (q : Request) : Instr :=
  match f.func, f.w64, f.sgn, f.bf with
  | .gen, false, false, false => .genU32 (operand32 q.d)
  | .strat, false, false, false => .stratU32 (q.divider32 .unsigned .branchfull)
  | .div, false, false, false => .divU32 (q.divider32 .unsigned .branchfull) (operand32 q.n)
  | .vdiv, false, false, false => .vdivU32 (q.divider32 .unsigned .branchfull) (q.group v)
  | .gen, true, false, false => .genU64 q.d
  | .strat, true, false, false => .stratU64 (q.divider64 .unsigned .branchfull)
  | .div, true, false, false => .divU64 (q.divider64 .unsigned .branchfull) q.n
  | .vdiv, true, false, false => .vdivU64 (q.divider64 .unsigned .branchfull) (q.group v)
  | .gen, false, true, false => .genS32 (operand32 q.d)
  | .strat, false, true, false => .stratS32 (q.divider32 .signed .branchfull)
  | .div, false, true, false => .divS32 (q.divider32 .signed .branchfull) (operand32 q.n)
  | .vdiv, false, true, false => .vdivS32 (q.divider32 .signed .branchfull) (q.group v)
  | .gen, true, true, false => .genS64 q.d
  | .strat, true, true, false => .stratS64 (q.divider64 .signed .branchfull)
  | .div, true, true, false => .divS64 (q.divider64 .signed .branchfull) q.n
  | .vdiv, true, true, false => .vdivS64 (q.divider64 .signed .branchfull) (q.group v)
  | .gen, false, false, true => .genU32Bf (operand32 q.d)
  | .strat, false, false, true => .stratU32Bf (q.divider32 .unsigned .branchfree)
  | .div, false, false, true => .divU32Bf (q.divider32 .unsigned .branchfree) (operand32 q.n)
  | .vdiv, false, false, true => .vdivU32Bf (q.divider32 .unsigned .branchfree) (q.group v)
  | .gen, true, false, true => .genU64Bf q.d
  | .strat, true, false, true => .stratU64Bf (q.divider64 .unsigned .branchfree)
  | .div, true, false, true => .divU64Bf (q.divider64 .unsigned .branchfree) q.n
  | .vdiv, true, false, true => .vdivU64Bf (q.divider64 .unsigned .branchfree) (q.group v)
  | .gen, false, true, true => .genS32Bf (operand32 q.d)
  | .strat, false, true, true => .stratS32Bf (q.divider32 .signed .branchfree)
  | .div, false, true, true => .divS32Bf (q.divider32 .signed .branchfree) (operand32 q.n)
  | .vdiv, false, true, true => .vdivS32Bf (q.divider32 .signed .branchfree) (q.group v)
  | .gen, true, true, true => .genS64Bf q.d
  | .strat, true, true, true => .stratS64Bf (q.divider64 .signed .branchfree)
  | .div, true, true, true => .divS64Bf (q.divider64 .signed .branchfree) q.n
  | .vdiv, true, true, true => .vdivS64Bf (q.divider64 .signed .branchfree) (q.group v)

/-- Decode a request (30_encoding.md R62). No bit of the request but the operation word changes which operation it is. -/
def decode (v : Vlen) (q : Request) : Except Reject Instr :=
  match readOpFields q.opw with
  | .error e => .error e
  | .ok f => .ok (assemble v f q)

/-- `FUNC` as the two bits `OPW[1:0]` (30_encoding.md R60). -/
def Func.bits : Func → BitVec 2
  | .gen => 0
  | .strat => 1
  | .div => 2
  | .vdiv => 3

/-- The operation word of four fields: `FUNC + 4*W64 + 8*SGN + 16*BF` (30_encoding.md R61). -/
def OpFields.word (f : OpFields) : OpWord :=
  BitVec.ofNat 8 (f.func.bits.toNat + 4 * f.w64.toNat + 8 * f.sgn.toNat + 16 * f.bf.toNat)

/-- The four fields of an operation (30_encoding.md R61). -/
def Instr.fields : Instr → OpFields
  | .genU32 _ => ⟨.gen, false, false, false⟩
  | .stratU32 _ => ⟨.strat, false, false, false⟩
  | .divU32 _ _ => ⟨.div, false, false, false⟩
  | .vdivU32 _ _ => ⟨.vdiv, false, false, false⟩
  | .genU64 _ => ⟨.gen, true, false, false⟩
  | .stratU64 _ => ⟨.strat, true, false, false⟩
  | .divU64 _ _ => ⟨.div, true, false, false⟩
  | .vdivU64 _ _ => ⟨.vdiv, true, false, false⟩
  | .genS32 _ => ⟨.gen, false, true, false⟩
  | .stratS32 _ => ⟨.strat, false, true, false⟩
  | .divS32 _ _ => ⟨.div, false, true, false⟩
  | .vdivS32 _ _ => ⟨.vdiv, false, true, false⟩
  | .genS64 _ => ⟨.gen, true, true, false⟩
  | .stratS64 _ => ⟨.strat, true, true, false⟩
  | .divS64 _ _ => ⟨.div, true, true, false⟩
  | .vdivS64 _ _ => ⟨.vdiv, true, true, false⟩
  | .genU32Bf _ => ⟨.gen, false, false, true⟩
  | .stratU32Bf _ => ⟨.strat, false, false, true⟩
  | .divU32Bf _ _ => ⟨.div, false, false, true⟩
  | .vdivU32Bf _ _ => ⟨.vdiv, false, false, true⟩
  | .genU64Bf _ => ⟨.gen, true, false, true⟩
  | .stratU64Bf _ => ⟨.strat, true, false, true⟩
  | .divU64Bf _ _ => ⟨.div, true, false, true⟩
  | .vdivU64Bf _ _ => ⟨.vdiv, true, false, true⟩
  | .genS32Bf _ => ⟨.gen, false, true, true⟩
  | .stratS32Bf _ => ⟨.strat, false, true, true⟩
  | .divS32Bf _ _ => ⟨.div, false, true, true⟩
  | .vdivS32Bf _ _ => ⟨.vdiv, false, true, true⟩
  | .genS64Bf _ => ⟨.gen, true, true, true⟩
  | .stratS64Bf _ => ⟨.strat, true, true, true⟩
  | .divS64Bf _ _ => ⟨.div, true, true, true⟩
  | .vdivS64Bf _ _ => ⟨.vdiv, true, true, true⟩

/-- An operation word with every operand lane zero. -/
def emptyFrame (opw : OpWord) : Request := { opw := opw, d := 0, magic := 0, ctl := 0, n := 0, nv := [] }

/-- Put a Divider into the `magic` and `ctl` lanes (30_encoding.md R65). -/
def Request.withDivider {w : Nat} {sg : Signedness} {va : Variant} (q : Request) (dv : Divider w sg va) : Request :=
  { q with magic := dv.magic.setWidth 64, ctl := dv.ctl }

/-- The request that asks for an operation: its word and its operands, every other lane zero (30_encoding.md R61, R63). -/
def encode (i : Instr) : Request :=
  let q := emptyFrame i.fields.word
  match i with
  | .genU32 d => { q with d := d.setWidth 64 }
  | .stratU32 dv => q.withDivider dv
  | .divU32 dv n => { q.withDivider dv with n := n.setWidth 64 }
  | .vdivU32 dv nv => { q.withDivider dv with nv := nv }
  | .genU64 d => { q with d := d }
  | .stratU64 dv => q.withDivider dv
  | .divU64 dv n => { q.withDivider dv with n := n }
  | .vdivU64 dv nv => { q.withDivider dv with nv := nv }
  | .genS32 d => { q with d := d.setWidth 64 }
  | .stratS32 dv => q.withDivider dv
  | .divS32 dv n => { q.withDivider dv with n := n.setWidth 64 }
  | .vdivS32 dv nv => { q.withDivider dv with nv := nv }
  | .genS64 d => { q with d := d }
  | .stratS64 dv => q.withDivider dv
  | .divS64 dv n => { q.withDivider dv with n := n }
  | .vdivS64 dv nv => { q.withDivider dv with nv := nv }
  | .genU32Bf d => { q with d := d.setWidth 64 }
  | .stratU32Bf dv => q.withDivider dv
  | .divU32Bf dv n => { q.withDivider dv with n := n.setWidth 64 }
  | .vdivU32Bf dv nv => { q.withDivider dv with nv := nv }
  | .genU64Bf d => { q with d := d }
  | .stratU64Bf dv => q.withDivider dv
  | .divU64Bf dv n => { q.withDivider dv with n := n }
  | .vdivU64Bf dv nv => { q.withDivider dv with nv := nv }
  | .genS32Bf d => { q with d := d.setWidth 64 }
  | .stratS32Bf dv => q.withDivider dv
  | .divS32Bf dv n => { q.withDivider dv with n := n.setWidth 64 }
  | .vdivS32Bf dv nv => { q.withDivider dv with nv := nv }
  | .genS64Bf d => { q with d := d }
  | .stratS64Bf dv => q.withDivider dv
  | .divS64Bf dv n => { q.withDivider dv with n := n }
  | .vdivS64Bf dv nv => { q.withDivider dv with nv := nv }

/-- The mnemonic `FUNC "." S W [".BF"]` of four fields (30_encoding.md R75). -/
def OpFields.mnemonic (f : OpFields) : String :=
  (match f.func with
    | .gen => "GEN"
    | .strat => "STRAT"
    | .div => "DIV"
    | .vdiv => "VDIV")
    ++ "." ++ (if f.sgn then "S" else "U") ++ (if f.w64 then "64" else "32") ++ (if f.bf then ".BF" else "")

/-- The request whose first `nbits` bits are those of `w` and whose other bits are all zero. The instruction of the table is the
8-bit operation word alone (30_encoding.md R74), so the operand lanes are zero. -/
def frameOfTableWord (nbits w : Nat) : Request := emptyFrame (BitVec.ofNat 8 (w % 2 ^ nbits))

/-- The operation the decoder reads from a table row's bits, every operand zero. -/
def decodeTableWord (nbits w : Nat) : Option Instr := (decode Config.resetVlen (frameOfTableWord nbits w)).toOption

end Sys2Proof
end

