-- ==== Sys2Proof/Machine/State.lean ====
section
/-! DEFINITION. The values a response carries, the state, and the state after reset. The unit itself keeps nothing between requests
(10_state.md R20, R26): State holds the instance constant `VLEN_BITS` and the two sides of the interface, the requests the clients
have issued and the responses the unit has given. -/

namespace Sys2Proof.Machine

/-- The three ways an operation ends other than `OK` (60_exceptions.md R230). -/
inductive Violation where
  /-- `DivisorZero`: raised by every GEN when the divisor is the all-zero pattern (60_exceptions.md R231) -/
  | divisorZero
  /-- `DivisorOneBranchfree`: raised by GEN.U32.BF and GEN.U64.BF when the divisor is 1 (60_exceptions.md R232) -/
  | divisorOneBranchfree
  /-- `IllegalOperation`: raised at decode when `OPW[7:5] != 0` (60_exceptions.md R233) -/
  | illegalOperation
deriving DecidableEq, Repr

/-- The result of an operation that completed (10_state.md R25, 30_encoding.md R63). -/
inductive Result where
  /-- format G: the Divider -/
  | divider (w : Nat) (sg : Signedness) (va : Variant) (dv : Divider w sg va)
  /-- format C: the strategy code `SCODE[1:0]` -/
  | strategy (scode : BitVec 2)
  /-- format S: the quotient `Q[W-1:0]` -/
  | quotient (w : Nat) (q : BitVec w)
  /-- format B: the quotient group `QV[VLEN_BITS-1:0]` -/
  | group (qv : Group)
deriving DecidableEq, Repr

/-- A response: a result, or a violation and no result (10_state.md R25, 60_exceptions.md R236, R243). -/
inductive Response where
  | ok (r : Result)
  | raised (x : Violation)
deriving DecidableEq, Repr

/-- The reasons a step of the MODEL can stop with a fault: none. Every violation of the unit is reported in a response and the
machine goes on (60_exceptions.md R236, R243), so this type has no constructor. Safe: entry 8. -/
inductive Fault where
deriving DecidableEq, Repr

/-- The reasons the MODEL gives an operation no meaning. -/
inductive Refusal where
  /-- Raised by an arm of `exec` whose operation has no meaning yet: by no arm now, every operation of the table has one. Safe. -/
  | notModelled (mnemonic : String)
deriving DecidableEq, Repr

end Sys2Proof.Machine

namespace Sys2Proof.Machine

/-- The unit's instance constant and the two sides of its interface. -/
structure State where
  /-- `VLEN_BITS`, fixed for the instance: no step changes it (00_scope.md R7, R8; 70_reset_and_hazards.md R262) -/
  vlen : Vlen
  /-- the requests the clients have issued and the unit has not taken, in the order in which the unit will take them; every order is
  a state, since the spec fixes none (20_memory.md R48, 70_reset_and_hazards.md R269; entry 2) -/
  requests : List Request
  /-- the requests the unit has taken, in order: the model's own field, which no operation reads (entry 1) -/
  taken : List Request
  /-- the responses the unit has given, in the order of `taken`; no operation reads it (10_state.md R25) -/
  responses : List Response
deriving DecidableEq, Repr

/-- The unit of a given `VLEN_BITS` right after reset: ready, with nothing asked and nothing answered
(70_reset_and_hazards.md R260, R262). -/
def State.resetWith (v : Vlen) : State := { vlen := v, requests := [], taken := [], responses := [] }

/-- The machine right after reset. The spec leaves `VLEN_BITS` open: entry 4. -/
def State.reset : State := State.resetWith Config.resetVlen

end Sys2Proof.Machine
end

