-- ==== Sys2Proof/Machine/Flags.lean ====
section
/-! DEFINITION. The flags a GEN writes into `ctl` (30_encoding.md R66), the strategy they encode (42_classify.md R153) and the
2-bit codes of the interface (30_encoding.md R70, R72). -/

namespace Sys2Proof.Machine

/-- `ctl = { 0b0000000, POW2, NEG, ADD, zext_6(SHIFT) }` (41_generate.md R122, R126; 30_encoding.md R66). -/
def makeCtl (shift : Nat) (add neg pow2 : Bool) : Ctl :=
  0#7 ++ BitVec.ofBool pow2 ++ BitVec.ofBool neg ++ BitVec.ofBool add ++ BitVec.ofNat 6 shift

/-- The three execution strategies (42_classify.md R150). -/
inductive Strategy where
  | shiftOnly
  | multiplyOnly
  | multiplyWithAdd
deriving DecidableEq, Repr

/-- The strategy that the flags record: `POW2` first, then `ADD` (42_classify.md R151, R153). -/
def strategyOf (ctl : Ctl) : Strategy :=
  if ctl.getLsbD 8 then .shiftOnly else if ctl.getLsbD 6 then .multiplyWithAdd else .multiplyOnly

/-- The strategy code `SCODE[1:0]`; `0b11` is never returned (30_encoding.md R72). -/
def Strategy.code : Strategy → BitVec 2
  | .shiftOnly => 0b00
  | .multiplyOnly => 0b01
  | .multiplyWithAdd => 0b10

/-- The status code of a violation (30_encoding.md R70, 60_exceptions.md R230). -/
def Violation.code : Violation → BitVec 2
  | .divisorZero => 0b01
  | .divisorOneBranchfree => 0b10
  | .illegalOperation => 0b11

/-- The status code `STATUS[1:0]` of a response (30_encoding.md R70). -/
def Response.status : Response → BitVec 2
  | .ok _ => 0b00
  | .raised x => x.code

end Sys2Proof.Machine
end

