-- ==== Sys2Proof/Machine/Ops.lean ====
section
/-! DEFINITION. The shared operations: answering a request, raising a violation, taking and issuing a request, and the packed and
stored forms of the interface's values. There is no return from a violation to model (60_exceptions.md R237). -/

namespace Sys2Proof.Machine

/-- The unit gives a response; it changes nothing else (10_state.md R23, R25, R26). -/
def State.answer (r : Response) (s : State) : State := { s with responses := s.responses ++ [r] }

/-- `raise X` (60_exceptions.md R236): the operation ends at once, the response carries the status of `X` and no result, and nothing
is saved. The unit then takes the next request as if nothing had happened. -/
def State.raise (x : Violation) (s : State) : State := s.answer (.raised x)

/-- The unit takes the next request, if there is one (10_state.md R22, R23). -/
def State.takeRequest (s : State) : Option (Request × State) :=
  match s.requests with
  | [] => none
  | q :: rest => some (q, { s with requests := rest, taken := s.taken ++ [q] })

/-- A client issues a request (10_state.md R24): an input from outside the unit, not an operation of it. -/
def State.issue (q : Request) (s : State) : State := { s with requests := s.requests ++ [q] }

/-- The violation a rejected operation word raises (60_exceptions.md R233). -/
def violationOf : Reject → Violation
  | .illegalOperation => .illegalOperation

section Packed
variable {w : Nat} {sg : Signedness} {va : Variant}

/-- The packed Divider `DESC[W+15:0] = {ctl, magic}` (30_encoding.md R65). -/
def packDesc (dv : Divider w sg va) : BitVec (16 + w) := dv.ctl ++ dv.magic

/-- The Divider in a packed one (30_encoding.md R65). -/
def unpackDesc (desc : BitVec (16 + w)) : Divider w sg va :=
  { magic := desc.extractLsb' 0 w, ctl := desc.extractLsb' w 16 }

end Packed

/-- Byte `k` of the image of a value: bits `[8k+7 : 8k]` (20_memory.md R43). Where the value ends inside the byte, as a 2-bit
`STATUS` or `SCODE` does, R43 gives no padding and the bits above are free: DESIGN CHOICE, entry 18. -/
def imageByte {n : Nat} (x : BitVec n) (k : Nat) : Byte :=
  if 8 * k + 8 ≤ n then x.extractLsb' (8 * k) 8
  else x.extractLsb' (8 * k) 8 ||| (Config.imagePadding n x.toNat <<< (n - 8 * k))

/-- The canonical little-endian byte image a client may store, the byte at the lowest address first (20_memory.md R43). A convention
for clients that no operation reads: DESIGN CHOICE, entry 15. A value of no whole number of bytes takes as many bytes as hold it:
DESIGN CHOICE, entry 18. -/
def byteImage {n : Nat} (x : BitVec n) : List Byte := (List.range ((n + 7) / 8)).map (imageByte x)

/-- The value whose byte image is given (20_memory.md R43). Padding, and bytes beyond the value, are not read; bytes that are missing
read as zero: DESIGN CHOICE, entry 18. -/
def ofByteImage (n : Nat) (bs : List Byte) : BitVec n := BitVec.ofNat n (packNat bs)

/-- The byte image of a group in a unit of this `VLEN_BITS`: that of its `VLEN_BITS`-bit value, so lane 0 lies at the lowest address
(20_memory.md R43). What a list of words of another length stands for is entry 5. -/
def groupImage (v : Vlen) (g : Group) : List Byte := byteImage (BitVec.ofNat v.bits (groupValue g))

/-- The group whose byte image is given (20_memory.md R43). -/
def ofGroupImage (v : Vlen) (bs : List Byte) : Group := groupOfValue v (ofByteImage v.bits bs).toNat

end Sys2Proof.Machine
end

