-- ==== Sys2Proof/Machine/Divide.lean ====
section
/-! DEFINITION. The DIV operations (43_scalar_divide.md): the branchfull paths R174 to R176, the branchfree formulas R177 and R178,
and the eight operations R180 to R187. Each formula is evaluated as written on whatever bits it is given (R172; DESIGN CHOICE, entry 6). -/

namespace Sys2Proof.Machine

variable {w : Nat}

/-- The multiply-with-add value before the last shift: `((N - hi) >> 1) + hi` (R175). -/
def addStep (hi n : BitVec w) : BitVec w := addW (shr (subW n hi) 1) hi

/-- The unsigned branchfull division (R174, R175). -/
def divU (dv : Divider w .unsigned .branchfull) (n : BitVec w) : BitVec w :=
  let shift := shiftOf dv
  if pow2Of dv then shr n shift
  else
    let hi := mulhu dv.magic n
    if addOf dv then shr (addStep hi n) shift else shr hi shift

/-- The unsigned branchfree division (R177): one formula, no choice. -/
def divUBf (dv : Divider w .unsigned .branchfree) (n : BitVec w) : BitVec w :=
  shr (addStep (mulhu dv.magic n) n) (shiftOf dv)

/-- `wrap_W(2^shift - b)`, the rounding bias of a power of two and the adjustment of the branchfree formula (R176, R178). -/
def bias (w shift : Nat) (b : Bool) : BitVec w := BitVec.ofInt w ((2 : Int) ^ shift - b.toNat)

/-- The signed shift-only value before the sign correction: a negative numerator first gets `2^shift - 1` (R176). -/
def signedShift (shift : Nat) (n : BitVec w) : BitVec w :=
  sar (addW n (andW (sar n (w - 1)) (bias w shift true))) shift

/-- The signed high multiply of R176: the numerator is added back when `ADD` is set. -/
def signedHigh (add : Bool) (magic n : BitVec w) : BitVec w :=
  let hi := mulhs magic n
  if add then addW hi n else hi

/-- The signed branchfull division (R174, R176). -/
def divS (dv : Divider w .signed .branchfull) (n : BitVec w) : BitVec w :=
  let shift := shiftOf dv
  let sign := smask w (negOf dv)
  if pow2Of dv then cneg (signedShift shift n) sign
  else
    let q0 := sar (signedHigh (addOf dv) dv.magic n) shift
    cneg (if q0.msb then addW q0 1#w else q0) sign

/-- The signed branchfree value before the sign correction (R178), given the adjustment `adj = wrap_W(2^shift - POW2)`. -/
def signedBfCore (magic adj n : BitVec w) (shift : Nat) : BitVec w :=
  let q := addW (mulhs magic n) n
  sar (addW q (andW (sar q (w - 1)) adj)) shift

/-- The signed branchfree division (R178). -/
def divSBf (dv : Divider w .signed .branchfree) (n : BitVec w) : BitVec w :=
  let shift := shiftOf dv
  cneg (signedBfCore dv.magic (bias w shift (pow2Of dv)) n shift) (smask w (negOf dv))

/-- A DIV answers with its quotient, always `OK` (R171). -/
def answerQuotient (q : BitVec w) (s : State) : State := s.answer (.ok (.quotient w q))

/-- `DIV.U32` (R180). -/
def execDivU32 (dv : Divider 32 .unsigned .branchfull) (n : BitVec 32) (s : State) : Host.Outcome State Fault Refusal :=
  .next (answerQuotient (divU dv n) s)

/-- `DIV.U64` (R181). -/
def execDivU64 (dv : Divider 64 .unsigned .branchfull) (n : BitVec 64) (s : State) : Host.Outcome State Fault Refusal :=
  .next (answerQuotient (divU dv n) s)

/-- `DIV.S32` (R184). -/
def execDivS32 (dv : Divider 32 .signed .branchfull) (n : BitVec 32) (s : State) : Host.Outcome State Fault Refusal :=
  .next (answerQuotient (divS dv n) s)

/-- `DIV.S64` (R185). -/
def execDivS64 (dv : Divider 64 .signed .branchfull) (n : BitVec 64) (s : State) : Host.Outcome State Fault Refusal :=
  .next (answerQuotient (divS dv n) s)

/-- `DIV.U32.BF` (R182). -/
def execDivU32Bf (dv : Divider 32 .unsigned .branchfree) (n : BitVec 32) (s : State) : Host.Outcome State Fault Refusal :=
  .next (answerQuotient (divUBf dv n) s)

/-- `DIV.U64.BF` (R183). -/
def execDivU64Bf (dv : Divider 64 .unsigned .branchfree) (n : BitVec 64) (s : State) : Host.Outcome State Fault Refusal :=
  .next (answerQuotient (divUBf dv n) s)

/-- `DIV.S32.BF` (R186). -/
def execDivS32Bf (dv : Divider 32 .signed .branchfree) (n : BitVec 32) (s : State) : Host.Outcome State Fault Refusal :=
  .next (answerQuotient (divSBf dv n) s)

/-- `DIV.S64.BF` (R187). -/
def execDivS64Bf (dv : Divider 64 .signed .branchfree) (n : BitVec 64) (s : State) : Host.Outcome State Fault Refusal :=
  .next (answerQuotient (divSBf dv n) s)

end Sys2Proof.Machine
end

