-- ==== Sys2Proof/Machine/Batch.lean ====
section
/-! DEFINITION. The VDIV operations (44_batched_divide.md R200 to R207, R210 to R217), written as their own lane-wise pseudocode:
the conditions are on the one Divider, and the signed rounding step adds each lane's sign bit. -/

namespace Sys2Proof.Machine

variable {w : Nat}

/-- The unsigned branchfull group division (R210, R211). -/
def vdivU (v : Vlen) (dv : Divider w .unsigned .branchfull) (nv : Group) : Group :=
  let shift := shiftOf dv
  if pow2Of dv then mapLanes v (fun n : BitVec w => shr n shift) nv
  else if addOf dv then mapLanes v (fun n => shr (addStep (mulhu dv.magic n) n) shift) nv
  else mapLanes v (fun n => shr (mulhu dv.magic n) shift) nv

/-- The unsigned branchfree group division (R212, R213). -/
def vdivUBf (v : Vlen) (dv : Divider w .unsigned .branchfree) (nv : Group) : Group :=
  let shift := shiftOf dv
  mapLanes v (fun n => shr (addStep (mulhu dv.magic n) n) shift) nv

/-- The signed branchfull group division (R214, R215). -/
def vdivS (v : Vlen) (dv : Divider w .signed .branchfull) (nv : Group) : Group :=
  let shift := shiftOf dv
  let sign := smask w (negOf dv)
  if pow2Of dv then mapLanes v (fun n => cneg (signedShift shift n) sign) nv
  else
    mapLanes v (fun n =>
      let q0 := sar (signedHigh (addOf dv) dv.magic n) shift
      cneg (addW q0 (shr q0 (w - 1))) sign) nv

/-- The signed branchfree group division (R216, R217). -/
def vdivSBf (v : Vlen) (dv : Divider w .signed .branchfree) (nv : Group) : Group :=
  let shift := shiftOf dv
  let sign := smask w (negOf dv)
  let adj := bias w shift (pow2Of dv)
  mapLanes v (fun n => cneg (signedBfCore dv.magic adj n shift) sign) nv

/-- A VDIV answers with its quotient group, always `OK`; the numerator group is not changed (R205). -/
def answerGroup (qv : Group) (s : State) : State := s.answer (.ok (.group qv))

/-- `VDIV.U32` (R210). -/
def execVdivU32 (dv : Divider 32 .unsigned .branchfull) (nv : Group) (s : State) : Host.Outcome State Fault Refusal :=
  .next (answerGroup (vdivU s.vlen dv nv) s)

/-- `VDIV.U64` (R211). -/
def execVdivU64 (dv : Divider 64 .unsigned .branchfull) (nv : Group) (s : State) : Host.Outcome State Fault Refusal :=
  .next (answerGroup (vdivU s.vlen dv nv) s)

/-- `VDIV.S32` (R214). -/
def execVdivS32 (dv : Divider 32 .signed .branchfull) (nv : Group) (s : State) : Host.Outcome State Fault Refusal :=
  .next (answerGroup (vdivS s.vlen dv nv) s)

/-- `VDIV.S64` (R215). -/
def execVdivS64 (dv : Divider 64 .signed .branchfull) (nv : Group) (s : State) : Host.Outcome State Fault Refusal :=
  .next (answerGroup (vdivS s.vlen dv nv) s)

/-- `VDIV.U32.BF` (R212). -/
def execVdivU32Bf (dv : Divider 32 .unsigned .branchfree) (nv : Group) (s : State) : Host.Outcome State Fault Refusal :=
  .next (answerGroup (vdivUBf s.vlen dv nv) s)

/-- `VDIV.U64.BF` (R213). -/
def execVdivU64Bf (dv : Divider 64 .unsigned .branchfree) (nv : Group) (s : State) : Host.Outcome State Fault Refusal :=
  .next (answerGroup (vdivUBf s.vlen dv nv) s)

/-- `VDIV.S32.BF` (R216). -/
def execVdivS32Bf (dv : Divider 32 .signed .branchfree) (nv : Group) (s : State) : Host.Outcome State Fault Refusal :=
  .next (answerGroup (vdivSBf s.vlen dv nv) s)

/-- `VDIV.S64.BF` (R217). -/
def execVdivS64Bf (dv : Divider 64 .signed .branchfree) (nv : Group) (s : State) : Host.Outcome State Fault Refusal :=
  .next (answerGroup (vdivSBf s.vlen dv nv) s)

end Sys2Proof.Machine
end

