-- ==== Sys2Proof/Machine/Classify.lean ====
section
/-! DEFINITION. The STRAT operations (42_classify.md R153, R160 to R167): the strategy code of a Divider's `ctl`, always `OK`. -/

namespace Sys2Proof.Machine

/-- A STRAT answers with the code of the strategy that `ctl` records; `magic` is not read (R153). -/
def classify (ctl : Ctl) (s : State) : State := s.answer (.ok (.strategy (strategyOf ctl).code))

/-- `STRAT.U32` (R160). -/
def execStratU32 (dv : Divider 32 .unsigned .branchfull) (s : State) : Host.Outcome State Fault Refusal := .next (classify dv.ctl s)

/-- `STRAT.U64` (R161). -/
def execStratU64 (dv : Divider 64 .unsigned .branchfull) (s : State) : Host.Outcome State Fault Refusal := .next (classify dv.ctl s)

/-- `STRAT.S32` (R164). -/
def execStratS32 (dv : Divider 32 .signed .branchfull) (s : State) : Host.Outcome State Fault Refusal := .next (classify dv.ctl s)

/-- `STRAT.S64` (R165). -/
def execStratS64 (dv : Divider 64 .signed .branchfull) (s : State) : Host.Outcome State Fault Refusal := .next (classify dv.ctl s)

/-- `STRAT.U32.BF` (R162). -/
def execStratU32Bf (dv : Divider 32 .unsigned .branchfree) (s : State) : Host.Outcome State Fault Refusal := .next (classify dv.ctl s)

/-- `STRAT.U64.BF` (R163). -/
def execStratU64Bf (dv : Divider 64 .unsigned .branchfree) (s : State) : Host.Outcome State Fault Refusal := .next (classify dv.ctl s)

/-- `STRAT.S32.BF` (R166). -/
def execStratS32Bf (dv : Divider 32 .signed .branchfree) (s : State) : Host.Outcome State Fault Refusal := .next (classify dv.ctl s)

/-- `STRAT.S64.BF` (R167). -/
def execStratS64Bf (dv : Divider 64 .signed .branchfree) (s : State) : Host.Outcome State Fault Refusal := .next (classify dv.ctl s)

end Sys2Proof.Machine
end

