-- ==== Sys2Proof/Machine/Generate.lean ====
section
/-! DEFINITION. The GEN operations (41_generate.md): the checks R121, the unsigned derivation R122, the signed derivation R126 and the
eight operations R130 to R137. -/

namespace Sys2Proof.Machine

variable {w : Nat}

/-- The checks of R121, in their order: zero for every GEN, then one for the unsigned branchfree ones. -/
def checkDivisor (sg : Signedness) (va : Variant) (d : BitVec w) : Except Violation Unit :=
  if d.toNat = 0 then .error .divisorZero
  else if sg = .unsigned ∧ va = .branchfree ∧ d.toNat = 1 then .error .divisorOneBranchfree
  else .ok ()

/-- The rounded-up reciprocal `floor(2^k / a) + 1` as a `W`-bit pattern: an exact value, or the low `W` bits of a `(W+1)`-bit one whose
leading bit is implicit (R122, R123, R126). -/
def reciprocal (k : Nat) (a : BitVec w) : BitVec w := BitVec.ofNat w ((wdiv k a).1 + 1)

/-- `e = a - (2^k mod a)`, whose comparison with `2^L` decides whether the smaller power is exact (R122, R126). -/
def roundingError (k : Nat) (a : BitVec w) : Nat := a.toNat - (wdiv k a).2

/-- `UGEN(W, V)` on a divisor that passed the checks (R122). -/
def ugen (va : Variant) (d : BitVec w) : Divider w .unsigned va :=
  let l := flog2 d
  if ispow2 d then
    let shift := match va with
      | .branchfull => l
      | .branchfree => l - 1
    { magic := 0#w, ctl := makeCtl shift false false true }
  else if va = .branchfull ∧ roundingError (w + l) d < 2 ^ l then
    { magic := reciprocal (w + l) d, ctl := makeCtl l false false false }
  else
    { magic := reciprocal (w + l + 1) d, ctl := makeCtl l true false false }

/-- `SGEN(W, V)` on a divisor that passed the checks (R126): `magic` from the magnitude alone, the sign in `NEG`. -/
def sgen (va : Variant) (d : BitVec w) : Divider w .signed va :=
  let neg := d.msb
  let a := uabs d
  let l := flog2 a
  if ispow2 a then
    { magic := 0#w, ctl := makeCtl l false neg true }
  else if va = .branchfull ∧ roundingError (w - 1 + l) a < 2 ^ l then
    { magic := reciprocal (w - 1 + l) a, ctl := makeCtl (l - 1) false neg false }
  else
    { magic := reciprocal (w + l) a, ctl := makeCtl l true neg false }

/-- The larger power computed from the smaller by doubling (R124): `wrap_W(2*m0 + c + 1)` with `c = 1` when `2*rem >= d`. An
implementation note of the spec; no operation calls it (entry 14). -/
def reciprocalByDoubling (k : Nat) (d : BitVec w) : BitVec w :=
  let c := if 2 * (wdiv k d).2 ≥ d.toNat then 1 else 0
  BitVec.ofNat w (2 * (wdiv k d).1 + c + 1)

/-- A GEN answers with its Divider, or raises the violation of the checks (R120, R121). -/
def generate {sg : Signedness} {va : Variant} (gen : BitVec w → Divider w sg va) (d : BitVec w) (s : State) : State :=
  match checkDivisor sg va d with
  | .error x => s.raise x
  | .ok _ => s.answer (.ok (.divider w sg va (gen d)))

/-- `GEN.U32` (R130). -/
def execGenU32 (d : BitVec 32) (s : State) : Host.Outcome State Fault Refusal := .next (generate (ugen .branchfull) d s)

/-- `GEN.U64` (R131). -/
def execGenU64 (d : BitVec 64) (s : State) : Host.Outcome State Fault Refusal := .next (generate (ugen .branchfull) d s)

/-- `GEN.U32.BF` (R132). -/
def execGenU32Bf (d : BitVec 32) (s : State) : Host.Outcome State Fault Refusal := .next (generate (ugen .branchfree) d s)

/-- `GEN.U64.BF` (R133). -/
def execGenU64Bf (d : BitVec 64) (s : State) : Host.Outcome State Fault Refusal := .next (generate (ugen .branchfree) d s)

/-- `GEN.S32` (R134). -/
def execGenS32 (d : BitVec 32) (s : State) : Host.Outcome State Fault Refusal := .next (generate (sgen .branchfull) d s)

/-- `GEN.S64` (R135). -/
def execGenS64 (d : BitVec 64) (s : State) : Host.Outcome State Fault Refusal := .next (generate (sgen .branchfull) d s)

/-- `GEN.S32.BF` (R136). -/
def execGenS32Bf (d : BitVec 32) (s : State) : Host.Outcome State Fault Refusal := .next (generate (sgen .branchfree) d s)

/-- `GEN.S64.BF` (R137). -/
def execGenS64Bf (d : BitVec 64) (s : State) : Host.Outcome State Fault Refusal := .next (generate (sgen .branchfree) d s)

end Sys2Proof.Machine
end

