-- ==== Sys2Proof/Machine/Dispatch.lean ====
section
/-! DEFINITION. The dispatch: one arm per operation of spec/opcode_table.json. -/

namespace Sys2Proof.Machine

def exec (i : Instr) (s : State) : Host.Outcome State Fault Refusal :=
  match i with
  | .genU32 d => Sys2Proof.Machine.execGenU32 d s
  | .stratU32 dv => Sys2Proof.Machine.execStratU32 dv s
  | .divU32 dv n => Sys2Proof.Machine.execDivU32 dv n s
  | .vdivU32 dv nv => Sys2Proof.Machine.execVdivU32 dv nv s
  | .genU64 d => Sys2Proof.Machine.execGenU64 d s
  | .stratU64 dv => Sys2Proof.Machine.execStratU64 dv s
  | .divU64 dv n => Sys2Proof.Machine.execDivU64 dv n s
  | .vdivU64 dv nv => Sys2Proof.Machine.execVdivU64 dv nv s
  | .genS32 d => Sys2Proof.Machine.execGenS32 d s
  | .stratS32 dv => Sys2Proof.Machine.execStratS32 dv s
  | .divS32 dv n => Sys2Proof.Machine.execDivS32 dv n s
  | .vdivS32 dv nv => Sys2Proof.Machine.execVdivS32 dv nv s
  | .genS64 d => Sys2Proof.Machine.execGenS64 d s
  | .stratS64 dv => Sys2Proof.Machine.execStratS64 dv s
  | .divS64 dv n => Sys2Proof.Machine.execDivS64 dv n s
  | .vdivS64 dv nv => Sys2Proof.Machine.execVdivS64 dv nv s
  | .genU32Bf d => Sys2Proof.Machine.execGenU32Bf d s
  | .stratU32Bf dv => Sys2Proof.Machine.execStratU32Bf dv s
  | .divU32Bf dv n => Sys2Proof.Machine.execDivU32Bf dv n s
  | .vdivU32Bf dv nv => Sys2Proof.Machine.execVdivU32Bf dv nv s
  | .genU64Bf d => Sys2Proof.Machine.execGenU64Bf d s
  | .stratU64Bf dv => Sys2Proof.Machine.execStratU64Bf dv s
  | .divU64Bf dv n => Sys2Proof.Machine.execDivU64Bf dv n s
  | .vdivU64Bf dv nv => Sys2Proof.Machine.execVdivU64Bf dv nv s
  | .genS32Bf d => Sys2Proof.Machine.execGenS32Bf d s
  | .stratS32Bf dv => Sys2Proof.Machine.execStratS32Bf dv s
  | .divS32Bf dv n => Sys2Proof.Machine.execDivS32Bf dv n s
  | .vdivS32Bf dv nv => Sys2Proof.Machine.execVdivS32Bf dv nv s
  | .genS64Bf d => Sys2Proof.Machine.execGenS64Bf d s
  | .stratS64Bf dv => Sys2Proof.Machine.execStratS64Bf dv s
  | .divS64Bf dv n => Sys2Proof.Machine.execDivS64Bf dv n s
  | .vdivS64Bf dv nv => Sys2Proof.Machine.execVdivS64Bf dv nv s

end Sys2Proof.Machine
end

