-- ==== Sys2Proof/Machine/Fetch.lean ====
section
/-! DEFINITION. What the unit takes as its next operation: the first request of the list, decoded (10_state.md R22, R23; 30_encoding.md
R62). There is no program counter and no fetch from memory. -/

namespace Sys2Proof.Machine

/-- A request whose first `nbits` bits are those of `w`, put in front of the requests already issued (entry 12). -/
def State.issueFirst (q : Request) (s : State) : State := { s with requests := q :: s.requests }

/-- The operation of a request in this unit, or the violation its operation word raises (60_exceptions.md R233, R235). -/
def readRequest (v : Vlen) (q : Request) : Except Violation Instr :=
  match decode v q with
  | .error e => .error (violationOf e)
  | .ok i => .ok i

end Sys2Proof.Machine
end

