-- ==== Sys2Proof/Machine/Step.lean ====
section
/-! DEFINITION. One step: one request in, one response out (10_state.md R23, 60_exceptions.md R243). -/

namespace Sys2Proof.Machine

/-- With no request the unit does nothing (60_exceptions.md R239). Otherwise it takes the next request, checks its operation word
before anything else (60_exceptions.md R235) and performs the operation. -/
def step (s : State) : Host.Outcome State Fault Refusal :=
  match s.takeRequest with
  | none => .next s
  | some (q, t) =>
    match readRequest s.vlen q with
    | .error x => .next (t.raise x)
    | .ok i => exec i t

/-- The state with the request of a table row's bits as the next one the unit takes (entry 12). -/
def State.withFetchWord (s : State) (nbits w : Nat) : State := s.issueFirst (frameOfTableWord nbits w)

end Sys2Proof.Machine
end

