-- ==== Sys2Proof/Safety.lean ====
section
/-! DEFINITION. The terms the statements use for a safe run: what a fresh unit answers to one request, and the invariants of the
interface. -/

namespace Sys2Proof.Safety

open Sys2Proof.Machine

/-- The responses of the state an outcome leads to. -/
def responsesOf : Host.Outcome State Fault Refusal → List Response
  | .next s => s.responses
  | .fault _ => []
  | .refused _ => []

/-- What a unit of this `VLEN_BITS`, fresh from reset and asked for nothing else, answers to a request. -/
def freshResponses (v : Vlen) (q : Request) : List Response := responsesOf (step ((State.resetWith v).issue q))

/-- Every response given is the one a fresh unit gives to the request it belongs to: nothing an earlier request left behind and no
other client has any part in it (10_state.md R20, 20_memory.md R48, R54; 60_exceptions.md R236; 70_reset_and_hazards.md R269). -/
def ResponsesBelong (s : State) : Prop :=
  List.Forall₂ (fun q r => freshResponses s.vlen q = [r]) s.taken s.responses

/-- A response whose Divider, if it carries one, has those properties of 10_state.md R33 that its bits and kind show: all but
the half of R33 (d) that says when `NEG` is set, for which the divisor is needed (obligation GeneratedDividerProperties states it). -/
def dividerWellFormed : Response → Bool
  | .ok (.divider _ _ _ dv) => dv.wellFormed
  | .ok (.strategy _) => true
  | .ok (.quotient _ _) => true
  | .ok (.group _) => true
  | .raised _ => true

/-- Every Divider the unit has given has the properties of 10_state.md R33 that its bits and kind show. -/
def DividersWellFormed (s : State) : Prop := ∀ r ∈ s.responses, dividerWellFormed r = true

end Sys2Proof.Safety
end

