-- ==== Sys2Proof/Certificates/Slice0/Obligations.lean ====
section
/-! DEFINITION. The statements for the provers, from the numbered rules of spec/. An operation's next state is written out: the
response appended to `responses` and nothing else changed, so each such equation is also the operation's frame. -/

open Sys2Proof Sys2Proof.Machine Sys2Proof.Safety

/-- Decode and encode agree on every operation of the table with every operand (30_encoding.md R60 to R63). -/
def Obligations.DecodeEncodeRoundTrip : Prop :=
  ∀ (v : Vlen) (i : Instr), i.wellFormed v = true → decode v (encode i) = .ok i

/-- The other direction, on frames that hold their operation's operands and nothing else; the frame is the model's (entry 3). -/
def Obligations.EncodeDecodeRoundTrip : Prop :=
  ∀ (v : Vlen) (q : Request) (i : Instr), q.wellFormed v = true → decode v q = .ok i → encode i = q

/-- Decoding never produces a group of another width than `VLEN_BITS` (30_encoding.md R68); what happens to a frame that holds more or fewer words is the model's choice, entry 5. -/
def Obligations.DecodedOperationIsWellFormed : Prop :=
  ∀ (v : Vlen) (q : Request) (i : Instr), decode v q = .ok i → i.wellFormed v = true

/-- The decoder rejects exactly the words with a reserved bit set, 224 of them (30_encoding.md R62, R73). -/
def Obligations.DecodeRejectsExactlyReservedWords : Prop :=
  (∀ (v : Vlen) (q : Request), decode v q = .error .illegalOperation ↔ q.opw.extractLsb' 5 3 ≠ 0) ∧
  (∀ v : Vlen, ((List.range 256).filter fun k => (decode v (emptyFrame (BitVec.ofNat 8 k))).toOption.isNone).length = 224)

/-- Which operation each of the words `0x00` to `0x1F` names, by the mnemonics of R75, and the number of a word (30_encoding.md R61). -/
def Obligations.OperationTable : Prop :=
  (∀ (v : Vlen) (q : Request), q.opw.toNat < 32 → ∃ i, decode v q = .ok i) ∧
  (∀ (v : Vlen) (q : Request) (i : Instr), decode v q = .ok i →
    ["GEN.U32", "STRAT.U32", "DIV.U32", "VDIV.U32", "GEN.U64", "STRAT.U64", "DIV.U64", "VDIV.U64",
      "GEN.S32", "STRAT.S32", "DIV.S32", "VDIV.S32", "GEN.S64", "STRAT.S64", "DIV.S64", "VDIV.S64",
      "GEN.U32.BF", "STRAT.U32.BF", "DIV.U32.BF", "VDIV.U32.BF", "GEN.U64.BF", "STRAT.U64.BF", "DIV.U64.BF", "VDIV.U64.BF",
      "GEN.S32.BF", "STRAT.S32.BF", "DIV.S32.BF", "VDIV.S32.BF", "GEN.S64.BF", "STRAT.S64.BF", "DIV.S64.BF", "VDIV.S64.BF"][q.opw.toNat]? = some i.fields.mnemonic) ∧
  (∀ i : Instr, (encode i).opw.toNat =
    i.fields.func.bits.toNat + 4 * i.fields.w64.toNat + 8 * i.fields.sgn.toNat + 16 * i.fields.bf.toNat)

/-- A few requests written out from 30_encoding.md R60, R61 and R63. -/
def Obligations.WrittenWordsDecode : Prop :=
  decode .v128 { opw := 0b00000000#8, d := 7, magic := 0, ctl := 0, n := 0, nv := [] } = .ok (.genU32 7#32) ∧
  decode .v128 { opw := 0b00000101#8, d := 0, magic := 9, ctl := 0x0049, n := 0, nv := [] } = .ok (.stratU64 ⟨9#64, 0x0049#16⟩) ∧
  decode .v128 { opw := 0b00011010#8, d := 0, magic := 0xCCCCCCCD, ctl := 0x0042, n := 13, nv := [] } =
    .ok (.divS32Bf ⟨0xCCCCCCCD#32, 0x0042#16⟩ 13#32) ∧
  decode .v256 { opw := 0b00000111#8, d := 0, magic := 3, ctl := 0x007F, n := 0, nv := [99, 0, 0, 5] } =
    .ok (.vdivU64 ⟨3#64, 0x007F#16⟩ [99#64, 0#64, 0#64, 5#64]) ∧
  decode .v512 { opw := 0b00010010#8, d := 0, magic := 0, ctl := 0x0100, n := 5, nv := [] } =
    .ok (.divU32Bf ⟨0#32, 0x0100#16⟩ 5#32) ∧
  decode .v128 (emptyFrame 0x20#8) = .error .illegalOperation ∧ decode .v128 (emptyFrame 0xFF#8) = .error .illegalOperation

/-- A step runs the decoded operation of the request it takes (10_state.md R22, R23); the lists are the model's view of the interface, entry 1. -/
def Obligations.StepRunsTheDecodedOperation : Prop :=
  ∀ (s : State) (q : Request) (rest : List Request) (i : Instr), s.requests = q :: rest → decode s.vlen q = .ok i →
    step s = exec i { s with requests := rest, taken := s.taken ++ [q] }

/-- 60_exceptions.md R233: whatever the operands hold, the response is `ILLEGAL_OPERATION` (`STATUS = 0b11`). The lists are the model's view of the interface, entry 1. -/
def Obligations.IllegalWordIsAnsweredUnexamined : Prop :=
  Response.status (.raised .illegalOperation) = 0b11 ∧
  ∀ (s : State) (q : Request) (rest : List Request), s.requests = q :: rest → q.opw.extractLsb' 5 3 ≠ 0 →
    step s = .next { s with requests := rest, taken := s.taken ++ [q], responses := s.responses ++ [.raised .illegalOperation] }

/-- Between requests the unit does nothing: DEDUCED, entry 13, from 60_exceptions.md section 3. -/
def Obligations.StepWithoutRequestChangesNothing : Prop :=
  ∀ s : State, s.requests = [] → step s = .next s

/-- The invariant ResponsesBelong, kept by every step from every state that meets it (10_state.md R20, R26); the lists it speaks of are the model's, entry 1. -/
def Obligations.EveryStepKeepsResponsesBelong : Prop :=
  ∀ s t : State, ResponsesBelong s → step s = .next t → ResponsesBelong t

/-- The invariant DividersWellFormed, kept by every step from every state that meets it (10_state.md R28, R33); the list it speaks of is the model's, entry 1. -/
def Obligations.EveryStepKeepsDividersWellFormed : Prop :=
  ∀ s t : State, DividersWellFormed s → step s = .next t → DividersWellFormed t

/-- Reset meets the invariants, in every instance; that the lists are empty after reset is DEDUCED, entry 9. -/
def Obligations.ResetMeetsTheInvariants : Prop :=
  (∀ v : Vlen, ResponsesBelong (State.resetWith v) ∧ DividersWellFormed (State.resetWith v)) ∧
  ResponsesBelong State.reset ∧ DividersWellFormed State.reset

/-- The result of an operation is a function of its request alone (10_state.md R20), at any time after reset (70_reset_and_hazards.md R260); the lists are the model's, entry 1. -/
def Obligations.ResponseDependsOnTheRequestAlone : Prop :=
  ∀ (s t : State) (q : Request) (rs rt : List Request), s.vlen = t.vlen → s.requests = q :: rs → t.requests = q :: rt →
    ∃ r : Response,
      step s = .next { s with requests := rs, taken := s.taken ++ [q], responses := s.responses ++ [r] } ∧
      step t = .next { t with requests := rt, taken := t.taken ++ [q], responses := t.responses ++ [r] }

/-- The machine refines the pure function from request to response (60_exceptions.md R243); the lists and their order are the model's, entries 1 and 2. -/
def Obligations.RunAnswersEveryRequestAlone : Prop :=
  ∀ s : State, ∃ rs : List Response,
    Host.Core.run Sys2Proof.core s.requests.length s =
      .next { s with requests := [], taken := s.taken ++ s.requests, responses := s.responses ++ rs } ∧
    List.Forall₂ (fun q r => freshResponses s.vlen q = [r]) s.requests rs

/-- Every interleaving of operations yields the same set of responses (20_memory.md R48, 70_reset_and_hazards.md R273); the lists and their order are the model's, entries 1 and 2. -/
def Obligations.ReorderedRequestsGetTheSameResponses : Prop :=
  ∀ s t : State, s.vlen = t.vlen → s.requests.Perm t.requests →
    ∃ rs rt : List Response,
      Host.Core.run Sys2Proof.core s.requests.length s =
        .next { s with requests := [], taken := s.taken ++ s.requests, responses := s.responses ++ rs } ∧
      Host.Core.run Sys2Proof.core t.requests.length t =
        .next { t with requests := [], taken := t.taken ++ t.requests, responses := t.responses ++ rt } ∧
      rs.length = s.requests.length ∧ rt.length = t.requests.length ∧
      (s.requests.zip rs).Perm (t.requests.zip rt)

/-- Every other request completes as if the faulting one had never been issued (60_exceptions.md R236, 20_memory.md R54); the lists and their order are the model's, entries 1 and 2. -/
def Obligations.ViolationLeavesEveryOtherRequestAlone : Prop :=
  ∀ (s : State) (as bs : List Request) (q : Request) (x : Violation), freshResponses s.vlen q = [.raised x] →
    ∃ ra rb : List Response, ra.length = as.length ∧ rb.length = bs.length ∧
      Host.Core.run Sys2Proof.core (as ++ q :: bs).length { s with requests := as ++ q :: bs } =
        .next { s with requests := [], taken := s.taken ++ (as ++ q :: bs), responses := s.responses ++ (ra ++ .raised x :: rb) } ∧
      Host.Core.run Sys2Proof.core (as ++ bs).length { s with requests := as ++ bs } =
        .next { s with requests := [], taken := s.taken ++ (as ++ bs), responses := s.responses ++ (ra ++ rb) }

/-- `GEN`, `STRAT` and `DIV` do not depend on `VLEN_BITS` (70_reset_and_hazards.md R262), nor does the rejection of an illegal word
(30_encoding.md R62), and `VLEN_BITS` never changes (00_scope.md R8). -/
def Obligations.OnlyBatchedOperationsDependOnVlen : Prop :=
  (∀ (v v' : Vlen) (q : Request), q.opw.extractLsb' 0 2 ≠ 3 ∨ q.opw.extractLsb' 5 3 ≠ 0 → freshResponses v q = freshResponses v' q) ∧
  (∀ s t : State, step s = .next t → t.vlen = s.vlen)

/-- 30_encoding.md R71: application never fails, whatever its operands. The lists are the model's view of the interface, entry 1. -/
def Obligations.ApplicationNeverFails : Prop :=
  ∀ (s : State) (q : Request) (rest : List Request), s.requests = q :: rest →
    q.opw.extractLsb' 5 3 = 0 → q.opw.extractLsb' 0 2 ≠ 0 →
    ∃ r : Result, step s = .next { s with requests := rest, taken := s.taken ++ [q], responses := s.responses ++ [.ok r] } ∧ Response.status (.ok r) = 0b00

/-- Each of the eight GEN operations rejects a zero divisor (60_exceptions.md R231), with `STATUS = 0b01` and nothing else changed (R236). -/
def Obligations.ZeroDivisorIsRejectedByEveryGen : Prop :=
  Response.status (.raised .divisorZero) = 0b01 ∧
  ∀ s : State,
    exec (.genU32 0) s = .next { s with responses := s.responses ++ [.raised .divisorZero] } ∧
    exec (.genU64 0) s = .next { s with responses := s.responses ++ [.raised .divisorZero] } ∧
    exec (.genS32 0) s = .next { s with responses := s.responses ++ [.raised .divisorZero] } ∧
    exec (.genS64 0) s = .next { s with responses := s.responses ++ [.raised .divisorZero] } ∧
    exec (.genU32Bf 0) s = .next { s with responses := s.responses ++ [.raised .divisorZero] } ∧
    exec (.genU64Bf 0) s = .next { s with responses := s.responses ++ [.raised .divisorZero] } ∧
    exec (.genS32Bf 0) s = .next { s with responses := s.responses ++ [.raised .divisorZero] } ∧
    exec (.genS64Bf 0) s = .next { s with responses := s.responses ++ [.raised .divisorZero] }

/-- The divisor 1 is refused by the two unsigned branchfree GEN operations and accepted by the other six (60_exceptions.md R232). -/
def Obligations.DivisorOneIsRejectedByUnsignedBranchfreeOnly : Prop :=
  Response.status (.raised .divisorOneBranchfree) = 0b10 ∧
  ∀ s : State,
    exec (.genU32 1) s = .next { s with responses := s.responses ++ [.ok (.divider 32 .unsigned .branchfull ⟨0, 0x0100⟩)] } ∧
    exec (.genU64 1) s = .next { s with responses := s.responses ++ [.ok (.divider 64 .unsigned .branchfull ⟨0, 0x0100⟩)] } ∧
    exec (.genS32 1) s = .next { s with responses := s.responses ++ [.ok (.divider 32 .signed .branchfull ⟨0, 0x0100⟩)] } ∧
    exec (.genS64 1) s = .next { s with responses := s.responses ++ [.ok (.divider 64 .signed .branchfull ⟨0, 0x0100⟩)] } ∧
    exec (.genU32Bf 1) s = .next { s with responses := s.responses ++ [.raised .divisorOneBranchfree] } ∧
    exec (.genU64Bf 1) s = .next { s with responses := s.responses ++ [.raised .divisorOneBranchfree] } ∧
    exec (.genS32Bf 1) s = .next { s with responses := s.responses ++ [.ok (.divider 32 .signed .branchfree ⟨0, 0x0100⟩)] } ∧
    exec (.genS64Bf 1) s = .next { s with responses := s.responses ++ [.ok (.divider 64 .signed .branchfree ⟨0, 0x0100⟩)] }

/-- 41_generate.md R130, written on unbounded integers with `L` characterised by `2^L <= |d| < 2^(L+1)`. -/
def Obligations.GenU32AnswersItsDivider : Prop :=
  ∀ (d : BitVec 32) (s : State),
    (encode (.genU32 d)).opw = 0x00#8 ∧
    (d.toNat = 0 → exec (.genU32 d) s = .next { s with responses := s.responses ++ [.raised .divisorZero] }) ∧
    ∀ l : Nat, 2 ^ l ≤ d.toNat → d.toNat < 2 ^ (l + 1) →
      exec (.genU32 d) s = .next { s with responses := s.responses ++ [.ok (.divider 32 .unsigned .branchfull
        (if d.toNat = 2 ^ l then ⟨0, BitVec.ofNat 16 (256 + l)⟩
        else if d.toNat - 2 ^ (32 + l) % d.toNat < 2 ^ l then
          ⟨BitVec.ofNat 32 (2 ^ (32 + l) / d.toNat + 1), BitVec.ofNat 16 l⟩
        else ⟨BitVec.ofNat 32 (2 ^ (33 + l) / d.toNat + 1), BitVec.ofNat 16 (64 + l)⟩))] }

/-- 41_generate.md R131, written on unbounded integers with `L` characterised by `2^L <= |d| < 2^(L+1)`. -/
def Obligations.GenU64AnswersItsDivider : Prop :=
  ∀ (d : BitVec 64) (s : State),
    (encode (.genU64 d)).opw = 0x04#8 ∧
    (d.toNat = 0 → exec (.genU64 d) s = .next { s with responses := s.responses ++ [.raised .divisorZero] }) ∧
    ∀ l : Nat, 2 ^ l ≤ d.toNat → d.toNat < 2 ^ (l + 1) →
      exec (.genU64 d) s = .next { s with responses := s.responses ++ [.ok (.divider 64 .unsigned .branchfull
        (if d.toNat = 2 ^ l then ⟨0, BitVec.ofNat 16 (256 + l)⟩
        else if d.toNat - 2 ^ (64 + l) % d.toNat < 2 ^ l then
          ⟨BitVec.ofNat 64 (2 ^ (64 + l) / d.toNat + 1), BitVec.ofNat 16 l⟩
        else ⟨BitVec.ofNat 64 (2 ^ (65 + l) / d.toNat + 1), BitVec.ofNat 16 (64 + l)⟩))] }

/-- 41_generate.md R134, written on unbounded integers with `L` characterised by `2^L <= |d| < 2^(L+1)`. -/
def Obligations.GenS32AnswersItsDivider : Prop :=
  ∀ (d : BitVec 32) (s : State),
    (encode (.genS32 d)).opw = 0x08#8 ∧
    (d.toNat = 0 → exec (.genS32 d) s = .next { s with responses := s.responses ++ [.raised .divisorZero] }) ∧
    ∀ l : Nat, 2 ^ l ≤ d.toInt.natAbs → d.toInt.natAbs < 2 ^ (l + 1) →
      exec (.genS32 d) s = .next { s with responses := s.responses ++ [.ok (.divider 32 .signed .branchfull
        (if d.toInt.natAbs = 2 ^ l then ⟨0, BitVec.ofNat 16 (256 + (if d.toInt < 0 then 128 else 0) + l)⟩
        else if d.toInt.natAbs - 2 ^ (31 + l) % d.toInt.natAbs < 2 ^ l then
          ⟨BitVec.ofNat 32 (2 ^ (31 + l) / d.toInt.natAbs + 1), BitVec.ofNat 16 ((if d.toInt < 0 then 128 else 0) + (l - 1))⟩
        else ⟨BitVec.ofNat 32 (2 ^ (32 + l) / d.toInt.natAbs + 1), BitVec.ofNat 16 (64 + (if d.toInt < 0 then 128 else 0) + l)⟩))] }

/-- 41_generate.md R135, written on unbounded integers with `L` characterised by `2^L <= |d| < 2^(L+1)`. -/
def Obligations.GenS64AnswersItsDivider : Prop :=
  ∀ (d : BitVec 64) (s : State),
    (encode (.genS64 d)).opw = 0x0C#8 ∧
    (d.toNat = 0 → exec (.genS64 d) s = .next { s with responses := s.responses ++ [.raised .divisorZero] }) ∧
    ∀ l : Nat, 2 ^ l ≤ d.toInt.natAbs → d.toInt.natAbs < 2 ^ (l + 1) →
      exec (.genS64 d) s = .next { s with responses := s.responses ++ [.ok (.divider 64 .signed .branchfull
        (if d.toInt.natAbs = 2 ^ l then ⟨0, BitVec.ofNat 16 (256 + (if d.toInt < 0 then 128 else 0) + l)⟩
        else if d.toInt.natAbs - 2 ^ (63 + l) % d.toInt.natAbs < 2 ^ l then
          ⟨BitVec.ofNat 64 (2 ^ (63 + l) / d.toInt.natAbs + 1), BitVec.ofNat 16 ((if d.toInt < 0 then 128 else 0) + (l - 1))⟩
        else ⟨BitVec.ofNat 64 (2 ^ (64 + l) / d.toInt.natAbs + 1), BitVec.ofNat 16 (64 + (if d.toInt < 0 then 128 else 0) + l)⟩))] }

/-- 41_generate.md R132, written on unbounded integers with `L` characterised by `2^L <= |d| < 2^(L+1)`. -/
def Obligations.GenU32BfAnswersItsDivider : Prop :=
  ∀ (d : BitVec 32) (s : State),
    (encode (.genU32Bf d)).opw = 0x10#8 ∧
    (d.toNat = 0 → exec (.genU32Bf d) s = .next { s with responses := s.responses ++ [.raised .divisorZero] }) ∧
    (d.toNat = 1 → exec (.genU32Bf d) s = .next { s with responses := s.responses ++ [.raised .divisorOneBranchfree] }) ∧
    ∀ l : Nat, 1 ≤ l → 2 ^ l ≤ d.toNat → d.toNat < 2 ^ (l + 1) →
      exec (.genU32Bf d) s = .next { s with responses := s.responses ++ [.ok (.divider 32 .unsigned .branchfree
        (if d.toNat = 2 ^ l then ⟨0, BitVec.ofNat 16 (256 + (l - 1))⟩
        else ⟨BitVec.ofNat 32 (2 ^ (33 + l) / d.toNat + 1), BitVec.ofNat 16 (64 + l)⟩))] }

/-- 41_generate.md R133, written on unbounded integers with `L` characterised by `2^L <= |d| < 2^(L+1)`. -/
def Obligations.GenU64BfAnswersItsDivider : Prop :=
  ∀ (d : BitVec 64) (s : State),
    (encode (.genU64Bf d)).opw = 0x14#8 ∧
    (d.toNat = 0 → exec (.genU64Bf d) s = .next { s with responses := s.responses ++ [.raised .divisorZero] }) ∧
    (d.toNat = 1 → exec (.genU64Bf d) s = .next { s with responses := s.responses ++ [.raised .divisorOneBranchfree] }) ∧
    ∀ l : Nat, 1 ≤ l → 2 ^ l ≤ d.toNat → d.toNat < 2 ^ (l + 1) →
      exec (.genU64Bf d) s = .next { s with responses := s.responses ++ [.ok (.divider 64 .unsigned .branchfree
        (if d.toNat = 2 ^ l then ⟨0, BitVec.ofNat 16 (256 + (l - 1))⟩
        else ⟨BitVec.ofNat 64 (2 ^ (65 + l) / d.toNat + 1), BitVec.ofNat 16 (64 + l)⟩))] }

/-- 41_generate.md R136, written on unbounded integers with `L` characterised by `2^L <= |d| < 2^(L+1)`. -/
def Obligations.GenS32BfAnswersItsDivider : Prop :=
  ∀ (d : BitVec 32) (s : State),
    (encode (.genS32Bf d)).opw = 0x18#8 ∧
    (d.toNat = 0 → exec (.genS32Bf d) s = .next { s with responses := s.responses ++ [.raised .divisorZero] }) ∧
    ∀ l : Nat, 2 ^ l ≤ d.toInt.natAbs → d.toInt.natAbs < 2 ^ (l + 1) →
      exec (.genS32Bf d) s = .next { s with responses := s.responses ++ [.ok (.divider 32 .signed .branchfree
        (if d.toInt.natAbs = 2 ^ l then ⟨0, BitVec.ofNat 16 (256 + (if d.toInt < 0 then 128 else 0) + l)⟩
        else ⟨BitVec.ofNat 32 (2 ^ (32 + l) / d.toInt.natAbs + 1), BitVec.ofNat 16 (64 + (if d.toInt < 0 then 128 else 0) + l)⟩))] }

/-- 41_generate.md R137, written on unbounded integers with `L` characterised by `2^L <= |d| < 2^(L+1)`. -/
def Obligations.GenS64BfAnswersItsDivider : Prop :=
  ∀ (d : BitVec 64) (s : State),
    (encode (.genS64Bf d)).opw = 0x1C#8 ∧
    (d.toNat = 0 → exec (.genS64Bf d) s = .next { s with responses := s.responses ++ [.raised .divisorZero] }) ∧
    ∀ l : Nat, 2 ^ l ≤ d.toInt.natAbs → d.toInt.natAbs < 2 ^ (l + 1) →
      exec (.genS64Bf d) s = .next { s with responses := s.responses ++ [.ok (.divider 64 .signed .branchfree
        (if d.toInt.natAbs = 2 ^ l then ⟨0, BitVec.ofNat 16 (256 + (if d.toInt < 0 then 128 else 0) + l)⟩
        else ⟨BitVec.ofNat 64 (2 ^ (64 + l) / d.toInt.natAbs + 1), BitVec.ofNat 16 (64 + (if d.toInt < 0 then 128 else 0) + l)⟩))] }

/-- 10_state.md R33 (a) to (g), clause by clause on the bits, for the eight kinds. -/
def Obligations.GeneratedDividerProperties : Prop :=
  (∀ (d : BitVec 32) (s : State), d.toNat ≠ 0 → ∃ dv : Divider 32 .unsigned .branchfull,
      exec (.genU32 d) s = .next { s with responses := s.responses ++ [.ok (.divider 32 .unsigned .branchfull dv)] } ∧
      dv.ctl.toNat % 64 ≤ 31 ∧ (dv.ctl.getLsbD 8 = true ↔ dv.magic = 0) ∧ ¬(dv.ctl.getLsbD 8 = true ∧ dv.ctl.getLsbD 6 = true) ∧
      dv.ctl.getLsbD 7 = false ∧ dv.ctl.toNat < 512 ∧ dv.ctl.getLsbD 5 = false) ∧
  (∀ (d : BitVec 64) (s : State), d.toNat ≠ 0 → ∃ dv : Divider 64 .unsigned .branchfull,
      exec (.genU64 d) s = .next { s with responses := s.responses ++ [.ok (.divider 64 .unsigned .branchfull dv)] } ∧
      dv.ctl.toNat % 64 ≤ 63 ∧ (dv.ctl.getLsbD 8 = true ↔ dv.magic = 0) ∧ ¬(dv.ctl.getLsbD 8 = true ∧ dv.ctl.getLsbD 6 = true) ∧
      dv.ctl.getLsbD 7 = false ∧ dv.ctl.toNat < 512) ∧
  (∀ (d : BitVec 32) (s : State), d.toNat ≠ 0 → ∃ dv : Divider 32 .signed .branchfull,
      exec (.genS32 d) s = .next { s with responses := s.responses ++ [.ok (.divider 32 .signed .branchfull dv)] } ∧
      dv.ctl.toNat % 64 ≤ 31 ∧ (dv.ctl.getLsbD 8 = true ↔ dv.magic = 0) ∧ ¬(dv.ctl.getLsbD 8 = true ∧ dv.ctl.getLsbD 6 = true) ∧
      (dv.ctl.getLsbD 7 = true ↔ d.toInt < 0) ∧ (dv.ctl.getLsbD 8 = false → (dv.ctl.getLsbD 6 = true ↔ dv.magic.msb = true)) ∧
      dv.ctl.toNat < 512 ∧ dv.ctl.getLsbD 5 = false) ∧
  (∀ (d : BitVec 64) (s : State), d.toNat ≠ 0 → ∃ dv : Divider 64 .signed .branchfull,
      exec (.genS64 d) s = .next { s with responses := s.responses ++ [.ok (.divider 64 .signed .branchfull dv)] } ∧
      dv.ctl.toNat % 64 ≤ 63 ∧ (dv.ctl.getLsbD 8 = true ↔ dv.magic = 0) ∧ ¬(dv.ctl.getLsbD 8 = true ∧ dv.ctl.getLsbD 6 = true) ∧
      (dv.ctl.getLsbD 7 = true ↔ d.toInt < 0) ∧ (dv.ctl.getLsbD 8 = false → (dv.ctl.getLsbD 6 = true ↔ dv.magic.msb = true)) ∧
      dv.ctl.toNat < 512) ∧
  (∀ (d : BitVec 32) (s : State), d.toNat ≠ 0 → d.toNat ≠ 1 → ∃ dv : Divider 32 .unsigned .branchfree,
      exec (.genU32Bf d) s = .next { s with responses := s.responses ++ [.ok (.divider 32 .unsigned .branchfree dv)] } ∧
      dv.ctl.toNat % 64 ≤ 31 ∧ (dv.ctl.getLsbD 8 = true ↔ dv.magic = 0) ∧ ¬(dv.ctl.getLsbD 8 = true ∧ dv.ctl.getLsbD 6 = true) ∧
      dv.ctl.getLsbD 7 = false ∧ (dv.ctl.getLsbD 6 = true ↔ dv.ctl.getLsbD 8 = false) ∧ dv.ctl.toNat < 512 ∧ dv.ctl.getLsbD 5 = false) ∧
  (∀ (d : BitVec 64) (s : State), d.toNat ≠ 0 → d.toNat ≠ 1 → ∃ dv : Divider 64 .unsigned .branchfree,
      exec (.genU64Bf d) s = .next { s with responses := s.responses ++ [.ok (.divider 64 .unsigned .branchfree dv)] } ∧
      dv.ctl.toNat % 64 ≤ 63 ∧ (dv.ctl.getLsbD 8 = true ↔ dv.magic = 0) ∧ ¬(dv.ctl.getLsbD 8 = true ∧ dv.ctl.getLsbD 6 = true) ∧
      dv.ctl.getLsbD 7 = false ∧ (dv.ctl.getLsbD 6 = true ↔ dv.ctl.getLsbD 8 = false) ∧ dv.ctl.toNat < 512) ∧
  (∀ (d : BitVec 32) (s : State), d.toNat ≠ 0 → ∃ dv : Divider 32 .signed .branchfree,
      exec (.genS32Bf d) s = .next { s with responses := s.responses ++ [.ok (.divider 32 .signed .branchfree dv)] } ∧
      dv.ctl.toNat % 64 ≤ 31 ∧ (dv.ctl.getLsbD 8 = true ↔ dv.magic = 0) ∧ ¬(dv.ctl.getLsbD 8 = true ∧ dv.ctl.getLsbD 6 = true) ∧
      (dv.ctl.getLsbD 7 = true ↔ d.toInt < 0) ∧ (dv.ctl.getLsbD 6 = true ↔ dv.ctl.getLsbD 8 = false) ∧ (dv.ctl.getLsbD 8 = false → (dv.ctl.getLsbD 6 = true ↔ dv.magic.msb = true)) ∧
      dv.ctl.toNat < 512 ∧ dv.ctl.getLsbD 5 = false) ∧
  (∀ (d : BitVec 64) (s : State), d.toNat ≠ 0 → ∃ dv : Divider 64 .signed .branchfree,
      exec (.genS64Bf d) s = .next { s with responses := s.responses ++ [.ok (.divider 64 .signed .branchfree dv)] } ∧
      dv.ctl.toNat % 64 ≤ 63 ∧ (dv.ctl.getLsbD 8 = true ↔ dv.magic = 0) ∧ ¬(dv.ctl.getLsbD 8 = true ∧ dv.ctl.getLsbD 6 = true) ∧
      (dv.ctl.getLsbD 7 = true ↔ d.toInt < 0) ∧ (dv.ctl.getLsbD 6 = true ↔ dv.ctl.getLsbD 8 = false) ∧ (dv.ctl.getLsbD 8 = false → (dv.ctl.getLsbD 6 = true ↔ dv.magic.msb = true)) ∧
      dv.ctl.toNat < 512)

/-- The sentinel `magic = 0` (10_state.md R28) and the classification of generated Dividers (42_classify.md R151, R154). -/
def Obligations.MagicIsZeroExactlyForPowersOfTwo : Prop :=
  (∀ (d : BitVec 32) (s t : State), d.toNat ≠ 0 → ∃ (dv : Divider 32 .unsigned .branchfull) (c : BitVec 2),
      exec (.genU32 d) s = .next { s with responses := s.responses ++ [.ok (.divider 32 .unsigned .branchfull dv)] } ∧
      exec (.stratU32 dv) t = .next { t with responses := t.responses ++ [.ok (.strategy c)] } ∧
      (dv.magic = 0 ↔ ∃ m : Nat, d.toNat = 2 ^ m) ∧ (c = 0b00 ↔ ∃ m : Nat, d.toNat = 2 ^ m) ∧ c ≠ 0b11) ∧
  (∀ (d : BitVec 64) (s t : State), d.toNat ≠ 0 → ∃ (dv : Divider 64 .unsigned .branchfull) (c : BitVec 2),
      exec (.genU64 d) s = .next { s with responses := s.responses ++ [.ok (.divider 64 .unsigned .branchfull dv)] } ∧
      exec (.stratU64 dv) t = .next { t with responses := t.responses ++ [.ok (.strategy c)] } ∧
      (dv.magic = 0 ↔ ∃ m : Nat, d.toNat = 2 ^ m) ∧ (c = 0b00 ↔ ∃ m : Nat, d.toNat = 2 ^ m) ∧ c ≠ 0b11) ∧
  (∀ (d : BitVec 32) (s t : State), d.toNat ≠ 0 → ∃ (dv : Divider 32 .signed .branchfull) (c : BitVec 2),
      exec (.genS32 d) s = .next { s with responses := s.responses ++ [.ok (.divider 32 .signed .branchfull dv)] } ∧
      exec (.stratS32 dv) t = .next { t with responses := t.responses ++ [.ok (.strategy c)] } ∧
      (dv.magic = 0 ↔ ∃ m : Nat, d.toInt.natAbs = 2 ^ m) ∧ (c = 0b00 ↔ ∃ m : Nat, d.toInt.natAbs = 2 ^ m) ∧ c ≠ 0b11) ∧
  (∀ (d : BitVec 64) (s t : State), d.toNat ≠ 0 → ∃ (dv : Divider 64 .signed .branchfull) (c : BitVec 2),
      exec (.genS64 d) s = .next { s with responses := s.responses ++ [.ok (.divider 64 .signed .branchfull dv)] } ∧
      exec (.stratS64 dv) t = .next { t with responses := t.responses ++ [.ok (.strategy c)] } ∧
      (dv.magic = 0 ↔ ∃ m : Nat, d.toInt.natAbs = 2 ^ m) ∧ (c = 0b00 ↔ ∃ m : Nat, d.toInt.natAbs = 2 ^ m) ∧ c ≠ 0b11) ∧
  (∀ (d : BitVec 32) (s t : State), d.toNat ≠ 0 → d.toNat ≠ 1 → ∃ (dv : Divider 32 .unsigned .branchfree) (c : BitVec 2),
      exec (.genU32Bf d) s = .next { s with responses := s.responses ++ [.ok (.divider 32 .unsigned .branchfree dv)] } ∧
      exec (.stratU32Bf dv) t = .next { t with responses := t.responses ++ [.ok (.strategy c)] } ∧
      (dv.magic = 0 ↔ ∃ m : Nat, d.toNat = 2 ^ m) ∧ (c = 0b00 ↔ ∃ m : Nat, d.toNat = 2 ^ m) ∧ c ≠ 0b11 ∧ c ≠ 0b01) ∧
  (∀ (d : BitVec 64) (s t : State), d.toNat ≠ 0 → d.toNat ≠ 1 → ∃ (dv : Divider 64 .unsigned .branchfree) (c : BitVec 2),
      exec (.genU64Bf d) s = .next { s with responses := s.responses ++ [.ok (.divider 64 .unsigned .branchfree dv)] } ∧
      exec (.stratU64Bf dv) t = .next { t with responses := t.responses ++ [.ok (.strategy c)] } ∧
      (dv.magic = 0 ↔ ∃ m : Nat, d.toNat = 2 ^ m) ∧ (c = 0b00 ↔ ∃ m : Nat, d.toNat = 2 ^ m) ∧ c ≠ 0b11 ∧ c ≠ 0b01) ∧
  (∀ (d : BitVec 32) (s t : State), d.toNat ≠ 0 → ∃ (dv : Divider 32 .signed .branchfree) (c : BitVec 2),
      exec (.genS32Bf d) s = .next { s with responses := s.responses ++ [.ok (.divider 32 .signed .branchfree dv)] } ∧
      exec (.stratS32Bf dv) t = .next { t with responses := t.responses ++ [.ok (.strategy c)] } ∧
      (dv.magic = 0 ↔ ∃ m : Nat, d.toInt.natAbs = 2 ^ m) ∧ (c = 0b00 ↔ ∃ m : Nat, d.toInt.natAbs = 2 ^ m) ∧ c ≠ 0b11 ∧ c ≠ 0b01) ∧
  (∀ (d : BitVec 64) (s t : State), d.toNat ≠ 0 → ∃ (dv : Divider 64 .signed .branchfree) (c : BitVec 2),
      exec (.genS64Bf d) s = .next { s with responses := s.responses ++ [.ok (.divider 64 .signed .branchfree dv)] } ∧
      exec (.stratS64Bf dv) t = .next { t with responses := t.responses ++ [.ok (.strategy c)] } ∧
      (dv.magic = 0 ↔ ∃ m : Nat, d.toInt.natAbs = 2 ^ m) ∧ (c = 0b00 ↔ ∃ m : Nat, d.toInt.natAbs = 2 ^ m) ∧ c ≠ 0b11 ∧ c ≠ 0b01)

/-- `magic` is the same for `d` and `-d`, the sign lives in `NEG` alone (41_generate.md R126), and the strategy code is the same (42_classify.md R156). -/
def Obligations.NegatedDivisorChangesOnlyNeg : Prop :=
  (∀ (d : BitVec 32) (s t : State), d ≠ 0 → d ≠ BitVec.intMin 32 → ∃ (dv nd : Divider 32 .signed .branchfull) (c : BitVec 2),
      exec (.genS32 d) s = .next { s with responses := s.responses ++ [.ok (.divider 32 .signed .branchfull dv)] } ∧
      exec (.genS32 (-d)) s = .next { s with responses := s.responses ++ [.ok (.divider 32 .signed .branchfull nd)] } ∧
      nd.magic = dv.magic ∧ nd.ctl = dv.ctl ^^^ 0x0080 ∧
      exec (.stratS32 dv) t = .next { t with responses := t.responses ++ [.ok (.strategy c)] } ∧
      exec (.stratS32 nd) t = .next { t with responses := t.responses ++ [.ok (.strategy c)] }) ∧
  (∀ (d : BitVec 64) (s t : State), d ≠ 0 → d ≠ BitVec.intMin 64 → ∃ (dv nd : Divider 64 .signed .branchfull) (c : BitVec 2),
      exec (.genS64 d) s = .next { s with responses := s.responses ++ [.ok (.divider 64 .signed .branchfull dv)] } ∧
      exec (.genS64 (-d)) s = .next { s with responses := s.responses ++ [.ok (.divider 64 .signed .branchfull nd)] } ∧
      nd.magic = dv.magic ∧ nd.ctl = dv.ctl ^^^ 0x0080 ∧
      exec (.stratS64 dv) t = .next { t with responses := t.responses ++ [.ok (.strategy c)] } ∧
      exec (.stratS64 nd) t = .next { t with responses := t.responses ++ [.ok (.strategy c)] }) ∧
  (∀ (d : BitVec 32) (s t : State), d ≠ 0 → d ≠ BitVec.intMin 32 → ∃ (dv nd : Divider 32 .signed .branchfree) (c : BitVec 2),
      exec (.genS32Bf d) s = .next { s with responses := s.responses ++ [.ok (.divider 32 .signed .branchfree dv)] } ∧
      exec (.genS32Bf (-d)) s = .next { s with responses := s.responses ++ [.ok (.divider 32 .signed .branchfree nd)] } ∧
      nd.magic = dv.magic ∧ nd.ctl = dv.ctl ^^^ 0x0080 ∧
      exec (.stratS32Bf dv) t = .next { t with responses := t.responses ++ [.ok (.strategy c)] } ∧
      exec (.stratS32Bf nd) t = .next { t with responses := t.responses ++ [.ok (.strategy c)] }) ∧
  (∀ (d : BitVec 64) (s t : State), d ≠ 0 → d ≠ BitVec.intMin 64 → ∃ (dv nd : Divider 64 .signed .branchfree) (c : BitVec 2),
      exec (.genS64Bf d) s = .next { s with responses := s.responses ++ [.ok (.divider 64 .signed .branchfree dv)] } ∧
      exec (.genS64Bf (-d)) s = .next { s with responses := s.responses ++ [.ok (.divider 64 .signed .branchfree nd)] } ∧
      nd.magic = dv.magic ∧ nd.ctl = dv.ctl ^^^ 0x0080 ∧
      exec (.stratS64Bf dv) t = .next { t with responses := t.responses ++ [.ok (.strategy c)] } ∧
      exec (.stratS64Bf nd) t = .next { t with responses := t.responses ++ [.ok (.strategy c)] })

/-- The strategy code is a function of `ctl[8]` and `ctl[6]` alone (42_classify.md R153), in all eight STRAT operations. -/
def Obligations.StratReadsTheStoredStrategy : Prop :=
  (∀ (dv : Divider 32 .unsigned .branchfull) (s : State),
      exec (.stratU32 dv) s = .next { s with responses := s.responses ++ [.ok (.strategy (if dv.ctl.getLsbD 8 then 0b00 else if dv.ctl.getLsbD 6 then 0b10 else 0b01))] }) ∧
  (∀ (dv : Divider 64 .unsigned .branchfull) (s : State),
      exec (.stratU64 dv) s = .next { s with responses := s.responses ++ [.ok (.strategy (if dv.ctl.getLsbD 8 then 0b00 else if dv.ctl.getLsbD 6 then 0b10 else 0b01))] }) ∧
  (∀ (dv : Divider 32 .signed .branchfull) (s : State),
      exec (.stratS32 dv) s = .next { s with responses := s.responses ++ [.ok (.strategy (if dv.ctl.getLsbD 8 then 0b00 else if dv.ctl.getLsbD 6 then 0b10 else 0b01))] }) ∧
  (∀ (dv : Divider 64 .signed .branchfull) (s : State),
      exec (.stratS64 dv) s = .next { s with responses := s.responses ++ [.ok (.strategy (if dv.ctl.getLsbD 8 then 0b00 else if dv.ctl.getLsbD 6 then 0b10 else 0b01))] }) ∧
  (∀ (dv : Divider 32 .unsigned .branchfree) (s : State),
      exec (.stratU32Bf dv) s = .next { s with responses := s.responses ++ [.ok (.strategy (if dv.ctl.getLsbD 8 then 0b00 else if dv.ctl.getLsbD 6 then 0b10 else 0b01))] }) ∧
  (∀ (dv : Divider 64 .unsigned .branchfree) (s : State),
      exec (.stratU64Bf dv) s = .next { s with responses := s.responses ++ [.ok (.strategy (if dv.ctl.getLsbD 8 then 0b00 else if dv.ctl.getLsbD 6 then 0b10 else 0b01))] }) ∧
  (∀ (dv : Divider 32 .signed .branchfree) (s : State),
      exec (.stratS32Bf dv) s = .next { s with responses := s.responses ++ [.ok (.strategy (if dv.ctl.getLsbD 8 then 0b00 else if dv.ctl.getLsbD 6 then 0b10 else 0b01))] }) ∧
  (∀ (dv : Divider 64 .signed .branchfree) (s : State),
      exec (.stratS64Bf dv) s = .next { s with responses := s.responses ++ [.ok (.strategy (if dv.ctl.getLsbD 8 then 0b00 else if dv.ctl.getLsbD 6 then 0b10 else 0b01))] })

/-- The unsigned branchfull paths as single floors on unbounded integers (43_scalar_divide.md R175), for every bit pattern of the Divider. -/
def Obligations.UnsignedBranchfullQuotient : Prop :=
  (∀ (dv : Divider 32 .unsigned .branchfull) (n : BitVec 32) (s : State),
    exec (.divU32 dv n) s = .next { s with responses := s.responses ++ [.ok (.quotient 32 (BitVec.ofNat 32
      (if dv.ctl.getLsbD 8 then n.toNat / 2 ^ (dv.ctl.toNat % 32)
      else if dv.ctl.getLsbD 6 then n.toNat * (2 ^ 32 + dv.magic.toNat) / 2 ^ (33 + dv.ctl.toNat % 32)
      else n.toNat * dv.magic.toNat / 2 ^ (32 + dv.ctl.toNat % 32))))] }) ∧
  (∀ (dv : Divider 64 .unsigned .branchfull) (n : BitVec 64) (s : State),
    exec (.divU64 dv n) s = .next { s with responses := s.responses ++ [.ok (.quotient 64 (BitVec.ofNat 64
      (if dv.ctl.getLsbD 8 then n.toNat / 2 ^ (dv.ctl.toNat % 64)
      else if dv.ctl.getLsbD 6 then n.toNat * (2 ^ 64 + dv.magic.toNat) / 2 ^ (65 + dv.ctl.toNat % 64)
      else n.toNat * dv.magic.toNat / 2 ^ (64 + dv.ctl.toNat % 64))))] })

/-- The unsigned branchfree formula as one floor on unbounded integers (43_scalar_divide.md R175, R177), for every bit pattern of the Divider. -/
def Obligations.UnsignedBranchfreeQuotient : Prop :=
  (∀ (dv : Divider 32 .unsigned .branchfree) (n : BitVec 32) (s : State),
    exec (.divU32Bf dv n) s = .next { s with responses := s.responses ++ [.ok (.quotient 32 (BitVec.ofNat 32
      (n.toNat * (2 ^ 32 + dv.magic.toNat) / 2 ^ (33 + dv.ctl.toNat % 32))))] }) ∧
  (∀ (dv : Divider 64 .unsigned .branchfree) (n : BitVec 64) (s : State),
    exec (.divU64Bf dv n) s = .next { s with responses := s.responses ++ [.ok (.quotient 64 (BitVec.ofNat 64
      (n.toNat * (2 ^ 64 + dv.magic.toNat) / 2 ^ (65 + dv.ctl.toNat % 64))))] })

/-- The signed branchfull paths on integers (43_scalar_divide.md R176), for every bit pattern of the Divider, and their form by 40_arithmetic.md R100 where `ADD` is the top bit of `magic`. -/
def Obligations.SignedBranchfullQuotient : Prop :=
  (∀ (dv : Divider 32 .signed .branchfull) (n : BitVec 32) (s : State),
    ∃ q0 : Int,
      exec (.divS32 dv n) s = .next { s with responses := s.responses ++ [.ok (.quotient 32
        (BitVec.ofInt 32 (if dv.ctl.getLsbD 7 then -q0 else q0)))] } ∧
      (dv.ctl.getLsbD 8 = true → q0 = n.toInt.tdiv (2 ^ (dv.ctl.toNat % 32))) ∧
      (dv.ctl.getLsbD 8 = false → ∃ hi : Int,
        hi = (dv.magic.toInt * n.toInt / 2 ^ 32 + if dv.ctl.getLsbD 6 then n.toInt else 0).bmod (2 ^ 32) ∧
        q0 = hi / 2 ^ (dv.ctl.toNat % 32) + if hi < 0 then 1 else 0) ∧
      (dv.ctl.getLsbD 8 = false → dv.ctl.getLsbD 6 = dv.magic.msb →
        q0 = n.toInt * dv.magic.toNat / 2 ^ (32 + dv.ctl.toNat % 32) + if n.toInt < 0 ∧ dv.magic ≠ 0 then 1 else 0)) ∧
  (∀ (dv : Divider 64 .signed .branchfull) (n : BitVec 64) (s : State),
    ∃ q0 : Int,
      exec (.divS64 dv n) s = .next { s with responses := s.responses ++ [.ok (.quotient 64
        (BitVec.ofInt 64 (if dv.ctl.getLsbD 7 then -q0 else q0)))] } ∧
      (dv.ctl.getLsbD 8 = true → q0 = n.toInt.tdiv (2 ^ (dv.ctl.toNat % 64))) ∧
      (dv.ctl.getLsbD 8 = false → ∃ hi : Int,
        hi = (dv.magic.toInt * n.toInt / 2 ^ 64 + if dv.ctl.getLsbD 6 then n.toInt else 0).bmod (2 ^ 64) ∧
        q0 = hi / 2 ^ (dv.ctl.toNat % 64) + if hi < 0 then 1 else 0) ∧
      (dv.ctl.getLsbD 8 = false → dv.ctl.getLsbD 6 = dv.magic.msb →
        q0 = n.toInt * dv.magic.toNat / 2 ^ (64 + dv.ctl.toNat % 64) + if n.toInt < 0 ∧ dv.magic ≠ 0 then 1 else 0))

/-- The signed branchfree formula on integers (43_scalar_divide.md R178), for every bit pattern of the Divider. -/
def Obligations.SignedBranchfreeQuotient : Prop :=
  (∀ (dv : Divider 32 .signed .branchfree) (n : BitVec 32) (s : State),
    ∃ q : Int, q = (dv.magic.toInt * n.toInt / 2 ^ 32 + n.toInt).bmod (2 ^ 32) ∧
      ∃ q0 : Int, q0 = (if q < 0 then q + 2 ^ (dv.ctl.toNat % 32) - (dv.ctl.getLsbD 8).toNat else q) / 2 ^ (dv.ctl.toNat % 32) ∧
        exec (.divS32Bf dv n) s = .next { s with responses := s.responses ++ [.ok (.quotient 32
          (BitVec.ofInt 32 (if dv.ctl.getLsbD 7 then -q0 else q0)))] }) ∧
  (∀ (dv : Divider 64 .signed .branchfree) (n : BitVec 64) (s : State),
    ∃ q : Int, q = (dv.magic.toInt * n.toInt / 2 ^ 64 + n.toInt).bmod (2 ^ 64) ∧
      ∃ q0 : Int, q0 = (if q < 0 then q + 2 ^ (dv.ctl.toNat % 64) - (dv.ctl.getLsbD 8).toNat else q) / 2 ^ (dv.ctl.toNat % 64) ∧
        exec (.divS64Bf dv n) s = .next { s with responses := s.responses ++ [.ok (.quotient 64
          (BitVec.ofInt 64 (if dv.ctl.getLsbD 7 then -q0 else q0)))] })

/-- What is not read: the reserved bits, `ctl[5]` at `W = 32`, and the flags R67 names (30_encoding.md R66, R67); `magic` and `ADD` on the shift-only path (43_scalar_divide.md R174). -/
def Obligations.BitsNotReadDoNotMatter : Prop :=
  (∀ (dv ev : Divider 32 .unsigned .branchfull) (n : BitVec 32) (nv : Group) (s : State),
      (dv.magic = ev.magic → dv.ctl &&& 0x015F = ev.ctl &&& 0x015F →
        exec (.divU32 dv n) s = exec (.divU32 ev n) s ∧ exec (.vdivU32 dv nv) s = exec (.vdivU32 ev nv) s) ∧
      (dv.ctl &&& 0x0140 = ev.ctl &&& 0x0140 → exec (.stratU32 dv) s = exec (.stratU32 ev) s) ∧
      (dv.ctl.getLsbD 8 = true → dv.ctl &&& 0x011F = ev.ctl &&& 0x011F →
        exec (.divU32 dv n) s = exec (.divU32 ev n) s)) ∧
  (∀ (dv ev : Divider 64 .unsigned .branchfull) (n : BitVec 64) (nv : Group) (s : State),
      (dv.magic = ev.magic → dv.ctl &&& 0x017F = ev.ctl &&& 0x017F →
        exec (.divU64 dv n) s = exec (.divU64 ev n) s ∧ exec (.vdivU64 dv nv) s = exec (.vdivU64 ev nv) s) ∧
      (dv.ctl &&& 0x0140 = ev.ctl &&& 0x0140 → exec (.stratU64 dv) s = exec (.stratU64 ev) s) ∧
      (dv.ctl.getLsbD 8 = true → dv.ctl &&& 0x013F = ev.ctl &&& 0x013F →
        exec (.divU64 dv n) s = exec (.divU64 ev n) s)) ∧
  (∀ (dv ev : Divider 32 .signed .branchfull) (n : BitVec 32) (nv : Group) (s : State),
      (dv.magic = ev.magic → dv.ctl &&& 0x01DF = ev.ctl &&& 0x01DF →
        exec (.divS32 dv n) s = exec (.divS32 ev n) s ∧ exec (.vdivS32 dv nv) s = exec (.vdivS32 ev nv) s) ∧
      (dv.ctl &&& 0x0140 = ev.ctl &&& 0x0140 → exec (.stratS32 dv) s = exec (.stratS32 ev) s) ∧
      (dv.ctl.getLsbD 8 = true → dv.ctl &&& 0x019F = ev.ctl &&& 0x019F →
        exec (.divS32 dv n) s = exec (.divS32 ev n) s)) ∧
  (∀ (dv ev : Divider 64 .signed .branchfull) (n : BitVec 64) (nv : Group) (s : State),
      (dv.magic = ev.magic → dv.ctl &&& 0x01FF = ev.ctl &&& 0x01FF →
        exec (.divS64 dv n) s = exec (.divS64 ev n) s ∧ exec (.vdivS64 dv nv) s = exec (.vdivS64 ev nv) s) ∧
      (dv.ctl &&& 0x0140 = ev.ctl &&& 0x0140 → exec (.stratS64 dv) s = exec (.stratS64 ev) s) ∧
      (dv.ctl.getLsbD 8 = true → dv.ctl &&& 0x01BF = ev.ctl &&& 0x01BF →
        exec (.divS64 dv n) s = exec (.divS64 ev n) s)) ∧
  (∀ (dv ev : Divider 32 .unsigned .branchfree) (n : BitVec 32) (nv : Group) (s : State),
      (dv.magic = ev.magic → dv.ctl &&& 0x001F = ev.ctl &&& 0x001F →
        exec (.divU32Bf dv n) s = exec (.divU32Bf ev n) s ∧ exec (.vdivU32Bf dv nv) s = exec (.vdivU32Bf ev nv) s) ∧
      (dv.ctl &&& 0x0140 = ev.ctl &&& 0x0140 → exec (.stratU32Bf dv) s = exec (.stratU32Bf ev) s)) ∧
  (∀ (dv ev : Divider 64 .unsigned .branchfree) (n : BitVec 64) (nv : Group) (s : State),
      (dv.magic = ev.magic → dv.ctl &&& 0x003F = ev.ctl &&& 0x003F →
        exec (.divU64Bf dv n) s = exec (.divU64Bf ev n) s ∧ exec (.vdivU64Bf dv nv) s = exec (.vdivU64Bf ev nv) s) ∧
      (dv.ctl &&& 0x0140 = ev.ctl &&& 0x0140 → exec (.stratU64Bf dv) s = exec (.stratU64Bf ev) s)) ∧
  (∀ (dv ev : Divider 32 .signed .branchfree) (n : BitVec 32) (nv : Group) (s : State),
      (dv.magic = ev.magic → dv.ctl &&& 0x019F = ev.ctl &&& 0x019F →
        exec (.divS32Bf dv n) s = exec (.divS32Bf ev n) s ∧ exec (.vdivS32Bf dv nv) s = exec (.vdivS32Bf ev nv) s) ∧
      (dv.ctl &&& 0x0140 = ev.ctl &&& 0x0140 → exec (.stratS32Bf dv) s = exec (.stratS32Bf ev) s)) ∧
  (∀ (dv ev : Divider 64 .signed .branchfree) (n : BitVec 64) (nv : Group) (s : State),
      (dv.magic = ev.magic → dv.ctl &&& 0x01BF = ev.ctl &&& 0x01BF →
        exec (.divS64Bf dv n) s = exec (.divS64Bf ev n) s ∧ exec (.vdivS64Bf dv nv) s = exec (.vdivS64Bf ev nv) s) ∧
      (dv.ctl &&& 0x0140 = ev.ctl &&& 0x0140 → exec (.stratS64Bf dv) s = exec (.stratS64Bf ev) s))

/-- `apply(generate(d), n) == hardware_divide(n, d)` (43_scalar_divide.md R170) for the UnsignedBranchfull kinds. -/
def Obligations.UnsignedBranchfullDivisionIsHardwareDivision : Prop :=
  (∀ (d : BitVec 32) (s : State), d.toNat ≠ 0 → ∃ dv : Divider 32 .unsigned .branchfull,
    exec (.genU32 d) s = .next { s with responses := s.responses ++ [.ok (.divider 32 .unsigned .branchfull dv)] } ∧
    ∀ (n : BitVec 32) (t : State), exec (.divU32 dv n) t =
      .next { t with responses := t.responses ++ [.ok (.quotient 32 (BitVec.ofNat 32 (n.toNat / d.toNat)))] }) ∧
  (∀ (d : BitVec 64) (s : State), d.toNat ≠ 0 → ∃ dv : Divider 64 .unsigned .branchfull,
    exec (.genU64 d) s = .next { s with responses := s.responses ++ [.ok (.divider 64 .unsigned .branchfull dv)] } ∧
    ∀ (n : BitVec 64) (t : State), exec (.divU64 dv n) t =
      .next { t with responses := t.responses ++ [.ok (.quotient 64 (BitVec.ofNat 64 (n.toNat / d.toNat)))] })

/-- `apply(generate(d), n) == hardware_divide(n, d)` (43_scalar_divide.md R170) for the UnsignedBranchfree kinds. -/
def Obligations.UnsignedBranchfreeDivisionIsHardwareDivision : Prop :=
  (∀ (d : BitVec 32) (s : State), d.toNat ≠ 0 → d.toNat ≠ 1 → ∃ dv : Divider 32 .unsigned .branchfree,
    exec (.genU32Bf d) s = .next { s with responses := s.responses ++ [.ok (.divider 32 .unsigned .branchfree dv)] } ∧
    ∀ (n : BitVec 32) (t : State), exec (.divU32Bf dv n) t =
      .next { t with responses := t.responses ++ [.ok (.quotient 32 (BitVec.ofNat 32 (n.toNat / d.toNat)))] }) ∧
  (∀ (d : BitVec 64) (s : State), d.toNat ≠ 0 → d.toNat ≠ 1 → ∃ dv : Divider 64 .unsigned .branchfree,
    exec (.genU64Bf d) s = .next { s with responses := s.responses ++ [.ok (.divider 64 .unsigned .branchfree dv)] } ∧
    ∀ (n : BitVec 64) (t : State), exec (.divU64Bf dv n) t =
      .next { t with responses := t.responses ++ [.ok (.quotient 64 (BitVec.ofNat 64 (n.toNat / d.toNat)))] })

/-- `apply(generate(d), n) == hardware_divide(n, d)` (43_scalar_divide.md R170) for the SignedBranchfull kinds. -/
def Obligations.SignedBranchfullDivisionIsHardwareDivision : Prop :=
  (∀ (d : BitVec 32) (s : State), d.toNat ≠ 0 → ∃ dv : Divider 32 .signed .branchfull,
    exec (.genS32 d) s = .next { s with responses := s.responses ++ [.ok (.divider 32 .signed .branchfull dv)] } ∧
    ∀ (n : BitVec 32) (t : State), exec (.divS32 dv n) t =
      .next { t with responses := t.responses ++ [.ok (.quotient 32 (BitVec.ofInt 32 (n.toInt.tdiv d.toInt)))] }) ∧
  (∀ (d : BitVec 64) (s : State), d.toNat ≠ 0 → ∃ dv : Divider 64 .signed .branchfull,
    exec (.genS64 d) s = .next { s with responses := s.responses ++ [.ok (.divider 64 .signed .branchfull dv)] } ∧
    ∀ (n : BitVec 64) (t : State), exec (.divS64 dv n) t =
      .next { t with responses := t.responses ++ [.ok (.quotient 64 (BitVec.ofInt 64 (n.toInt.tdiv d.toInt)))] })

/-- `apply(generate(d), n) == hardware_divide(n, d)` (43_scalar_divide.md R170) for the SignedBranchfree kinds. -/
def Obligations.SignedBranchfreeDivisionIsHardwareDivision : Prop :=
  (∀ (d : BitVec 32) (s : State), d.toNat ≠ 0 → ∃ dv : Divider 32 .signed .branchfree,
    exec (.genS32Bf d) s = .next { s with responses := s.responses ++ [.ok (.divider 32 .signed .branchfree dv)] } ∧
    ∀ (n : BitVec 32) (t : State), exec (.divS32Bf dv n) t =
      .next { t with responses := t.responses ++ [.ok (.quotient 32 (BitVec.ofInt 32 (n.toInt.tdiv d.toInt)))] }) ∧
  (∀ (d : BitVec 64) (s : State), d.toNat ≠ 0 → ∃ dv : Divider 64 .signed .branchfree,
    exec (.genS64Bf d) s = .next { s with responses := s.responses ++ [.ok (.divider 64 .signed .branchfree dv)] } ∧
    ∀ (n : BitVec 64) (t : State), exec (.divS64Bf dv n) t =
      .next { t with responses := t.responses ++ [.ok (.quotient 64 (BitVec.ofInt 64 (n.toInt.tdiv d.toInt)))] })

/-- What the unsigned `magic` means, with its implicit leading bit (41_generate.md R123). -/
def Obligations.UnsignedMagicIsAnExactReciprocal : Prop :=
  (∀ (d : BitVec 32) (s : State), d.toNat ≠ 0 → (∀ m : Nat, d.toNat ≠ 2 ^ m) →
    ∃ dv : Divider 32 .unsigned .branchfull, exec (.genU32 d) s = .next { s with responses := s.responses ++ [.ok (.divider 32 .unsigned .branchfull dv)] } ∧
      dv.ctl.getLsbD 8 = false ∧
      (dv.ctl.getLsbD 6 = false → dv.magic.toNat = 2 ^ (32 + dv.ctl.toNat % 32) / d.toNat + 1 ∧
        ∀ n : Nat, n < 2 ^ 32 → n / d.toNat = n * dv.magic.toNat / 2 ^ (32 + dv.ctl.toNat % 32)) ∧
      (dv.ctl.getLsbD 6 = true → 2 ^ 32 + dv.magic.toNat = 2 ^ (33 + dv.ctl.toNat % 32) / d.toNat + 1 ∧
        ∀ n : Nat, n < 2 ^ 32 → n / d.toNat = n * (2 ^ 32 + dv.magic.toNat) / 2 ^ (33 + dv.ctl.toNat % 32))) ∧
  (∀ (d : BitVec 64) (s : State), d.toNat ≠ 0 → (∀ m : Nat, d.toNat ≠ 2 ^ m) →
    ∃ dv : Divider 64 .unsigned .branchfull, exec (.genU64 d) s = .next { s with responses := s.responses ++ [.ok (.divider 64 .unsigned .branchfull dv)] } ∧
      dv.ctl.getLsbD 8 = false ∧
      (dv.ctl.getLsbD 6 = false → dv.magic.toNat = 2 ^ (64 + dv.ctl.toNat % 64) / d.toNat + 1 ∧
        ∀ n : Nat, n < 2 ^ 64 → n / d.toNat = n * dv.magic.toNat / 2 ^ (64 + dv.ctl.toNat % 64)) ∧
      (dv.ctl.getLsbD 6 = true → 2 ^ 64 + dv.magic.toNat = 2 ^ (65 + dv.ctl.toNat % 64) / d.toNat + 1 ∧
        ∀ n : Nat, n < 2 ^ 64 → n / d.toNat = n * (2 ^ 64 + dv.magic.toNat) / 2 ^ (65 + dv.ctl.toNat % 64)))

/-- What the signed `magic` means (41_generate.md R127), in both variants. -/
def Obligations.SignedMagicIsAnExactReciprocal : Prop :=
  (∀ (d : BitVec 32) (s : State), d.toNat ≠ 0 → (∀ m : Nat, d.toInt.natAbs ≠ 2 ^ m) →
    ∃ dv : Divider 32 .signed .branchfull, exec (.genS32 d) s = .next { s with responses := s.responses ++ [.ok (.divider 32 .signed .branchfull dv)] } ∧
      dv.ctl.getLsbD 8 = false ∧ dv.magic.toNat = 2 ^ (32 + dv.ctl.toNat % 32) / d.toInt.natAbs + 1 ∧
      ∀ n : Int, -2 ^ 31 ≤ n → n < 2 ^ 31 →
        n * dv.magic.toNat / 2 ^ (32 + dv.ctl.toNat % 32) =
          n.tdiv d.toInt.natAbs - if n < 0 then 1 else 0) ∧
  (∀ (d : BitVec 64) (s : State), d.toNat ≠ 0 → (∀ m : Nat, d.toInt.natAbs ≠ 2 ^ m) →
    ∃ dv : Divider 64 .signed .branchfull, exec (.genS64 d) s = .next { s with responses := s.responses ++ [.ok (.divider 64 .signed .branchfull dv)] } ∧
      dv.ctl.getLsbD 8 = false ∧ dv.magic.toNat = 2 ^ (64 + dv.ctl.toNat % 64) / d.toInt.natAbs + 1 ∧
      ∀ n : Int, -2 ^ 63 ≤ n → n < 2 ^ 63 →
        n * dv.magic.toNat / 2 ^ (64 + dv.ctl.toNat % 64) =
          n.tdiv d.toInt.natAbs - if n < 0 then 1 else 0) ∧
  (∀ (d : BitVec 32) (s : State), d.toNat ≠ 0 → (∀ m : Nat, d.toInt.natAbs ≠ 2 ^ m) →
    ∃ dv : Divider 32 .signed .branchfree, exec (.genS32Bf d) s = .next { s with responses := s.responses ++ [.ok (.divider 32 .signed .branchfree dv)] } ∧
      dv.ctl.getLsbD 8 = false ∧ dv.magic.toNat = 2 ^ (32 + dv.ctl.toNat % 32) / d.toInt.natAbs + 1 ∧
      ∀ n : Int, -2 ^ 31 ≤ n → n < 2 ^ 31 →
        n * dv.magic.toNat / 2 ^ (32 + dv.ctl.toNat % 32) =
          n.tdiv d.toInt.natAbs - if n < 0 then 1 else 0) ∧
  (∀ (d : BitVec 64) (s : State), d.toNat ≠ 0 → (∀ m : Nat, d.toInt.natAbs ≠ 2 ^ m) →
    ∃ dv : Divider 64 .signed .branchfree, exec (.genS64Bf d) s = .next { s with responses := s.responses ++ [.ok (.divider 64 .signed .branchfree dv)] } ∧
      dv.ctl.getLsbD 8 = false ∧ dv.magic.toNat = 2 ^ (64 + dv.ctl.toNat % 64) / d.toInt.natAbs + 1 ∧
      ∀ n : Int, -2 ^ 63 ≤ n → n < 2 ^ 63 →
        n * dv.magic.toNat / 2 ^ (64 + dv.ctl.toNat % 64) =
          n.tdiv d.toInt.natAbs - if n < 0 then 1 else 0)

/-- `apply(generate(-1), MIN) == MIN`, and nothing traps (43_scalar_divide.md R173, 60_exceptions.md R234 (a)). -/
def Obligations.MostNegativeNumeratorByMinusOne : Prop :=
  ∀ s : State,
    exec (.genS32 (-1)) s = .next { s with responses := s.responses ++ [.ok (.divider 32 .signed .branchfull ⟨0, 0x0180⟩)] } ∧
    exec (.divS32 ⟨0, 0x0180⟩ (BitVec.intMin 32)) s =
      .next { s with responses := s.responses ++ [.ok (.quotient 32 (BitVec.intMin 32))] } ∧
    exec (.genS64 (-1)) s = .next { s with responses := s.responses ++ [.ok (.divider 64 .signed .branchfull ⟨0, 0x0180⟩)] } ∧
    exec (.divS64 ⟨0, 0x0180⟩ (BitVec.intMin 64)) s =
      .next { s with responses := s.responses ++ [.ok (.quotient 64 (BitVec.intMin 64))] } ∧
    exec (.genS32Bf (-1)) s = .next { s with responses := s.responses ++ [.ok (.divider 32 .signed .branchfree ⟨0, 0x0180⟩)] } ∧
    exec (.divS32Bf ⟨0, 0x0180⟩ (BitVec.intMin 32)) s =
      .next { s with responses := s.responses ++ [.ok (.quotient 32 (BitVec.intMin 32))] } ∧
    exec (.genS64Bf (-1)) s = .next { s with responses := s.responses ++ [.ok (.divider 64 .signed .branchfree ⟨0, 0x0180⟩)] } ∧
    exec (.divS64Bf ⟨0, 0x0180⟩ (BitVec.intMin 64)) s =
      .next { s with responses := s.responses ++ [.ok (.quotient 64 (BitVec.intMin 64))] }

/-- The batched and the scalar dividers agree on every lane, for every Divider (44_batched_divide.md R200), and so every lane of a generated Divider is the hardware quotient. -/
def Obligations.GroupDivisionIsScalarDivisionLaneByLane : Prop :=
  (∀ (dv : Divider 32 .unsigned .branchfull) (nv : Group) (s : State), ∃ qv : Group,
    exec (.vdivU32 dv nv) s = .next { s with responses := s.responses ++ [.ok (.group qv)] } ∧
    ∀ (i : Nat) (t : State), i < s.vlen.bits / 32 → exec (.divU32 dv (lane 32 i nv)) t =
      .next { t with responses := t.responses ++ [.ok (.quotient 32 (lane 32 i qv))] }) ∧
  (∀ (d : BitVec 32) (s : State), d.toNat ≠ 0 → ∃ dv : Divider 32 .unsigned .branchfull,
    exec (.genU32 d) s = .next { s with responses := s.responses ++ [.ok (.divider 32 .unsigned .branchfull dv)] } ∧
    ∀ (nv : Group) (t : State), ∃ qv : Group, exec (.vdivU32 dv nv) t = .next { t with responses := t.responses ++ [.ok (.group qv)] } ∧
      ∀ i : Nat, i < t.vlen.bits / 32 → lane 32 i qv = BitVec.ofNat 32 ((lane 32 i nv).toNat / d.toNat)) ∧
  (∀ (dv : Divider 64 .unsigned .branchfull) (nv : Group) (s : State), ∃ qv : Group,
    exec (.vdivU64 dv nv) s = .next { s with responses := s.responses ++ [.ok (.group qv)] } ∧
    ∀ (i : Nat) (t : State), i < s.vlen.bits / 64 → exec (.divU64 dv (lane 64 i nv)) t =
      .next { t with responses := t.responses ++ [.ok (.quotient 64 (lane 64 i qv))] }) ∧
  (∀ (d : BitVec 64) (s : State), d.toNat ≠ 0 → ∃ dv : Divider 64 .unsigned .branchfull,
    exec (.genU64 d) s = .next { s with responses := s.responses ++ [.ok (.divider 64 .unsigned .branchfull dv)] } ∧
    ∀ (nv : Group) (t : State), ∃ qv : Group, exec (.vdivU64 dv nv) t = .next { t with responses := t.responses ++ [.ok (.group qv)] } ∧
      ∀ i : Nat, i < t.vlen.bits / 64 → lane 64 i qv = BitVec.ofNat 64 ((lane 64 i nv).toNat / d.toNat)) ∧
  (∀ (dv : Divider 32 .signed .branchfull) (nv : Group) (s : State), ∃ qv : Group,
    exec (.vdivS32 dv nv) s = .next { s with responses := s.responses ++ [.ok (.group qv)] } ∧
    ∀ (i : Nat) (t : State), i < s.vlen.bits / 32 → exec (.divS32 dv (lane 32 i nv)) t =
      .next { t with responses := t.responses ++ [.ok (.quotient 32 (lane 32 i qv))] }) ∧
  (∀ (d : BitVec 32) (s : State), d.toNat ≠ 0 → ∃ dv : Divider 32 .signed .branchfull,
    exec (.genS32 d) s = .next { s with responses := s.responses ++ [.ok (.divider 32 .signed .branchfull dv)] } ∧
    ∀ (nv : Group) (t : State), ∃ qv : Group, exec (.vdivS32 dv nv) t = .next { t with responses := t.responses ++ [.ok (.group qv)] } ∧
      ∀ i : Nat, i < t.vlen.bits / 32 → lane 32 i qv = BitVec.ofInt 32 ((lane 32 i nv).toInt.tdiv d.toInt)) ∧
  (∀ (dv : Divider 64 .signed .branchfull) (nv : Group) (s : State), ∃ qv : Group,
    exec (.vdivS64 dv nv) s = .next { s with responses := s.responses ++ [.ok (.group qv)] } ∧
    ∀ (i : Nat) (t : State), i < s.vlen.bits / 64 → exec (.divS64 dv (lane 64 i nv)) t =
      .next { t with responses := t.responses ++ [.ok (.quotient 64 (lane 64 i qv))] }) ∧
  (∀ (d : BitVec 64) (s : State), d.toNat ≠ 0 → ∃ dv : Divider 64 .signed .branchfull,
    exec (.genS64 d) s = .next { s with responses := s.responses ++ [.ok (.divider 64 .signed .branchfull dv)] } ∧
    ∀ (nv : Group) (t : State), ∃ qv : Group, exec (.vdivS64 dv nv) t = .next { t with responses := t.responses ++ [.ok (.group qv)] } ∧
      ∀ i : Nat, i < t.vlen.bits / 64 → lane 64 i qv = BitVec.ofInt 64 ((lane 64 i nv).toInt.tdiv d.toInt)) ∧
  (∀ (dv : Divider 32 .unsigned .branchfree) (nv : Group) (s : State), ∃ qv : Group,
    exec (.vdivU32Bf dv nv) s = .next { s with responses := s.responses ++ [.ok (.group qv)] } ∧
    ∀ (i : Nat) (t : State), i < s.vlen.bits / 32 → exec (.divU32Bf dv (lane 32 i nv)) t =
      .next { t with responses := t.responses ++ [.ok (.quotient 32 (lane 32 i qv))] }) ∧
  (∀ (d : BitVec 32) (s : State), d.toNat ≠ 0 → d.toNat ≠ 1 → ∃ dv : Divider 32 .unsigned .branchfree,
    exec (.genU32Bf d) s = .next { s with responses := s.responses ++ [.ok (.divider 32 .unsigned .branchfree dv)] } ∧
    ∀ (nv : Group) (t : State), ∃ qv : Group, exec (.vdivU32Bf dv nv) t = .next { t with responses := t.responses ++ [.ok (.group qv)] } ∧
      ∀ i : Nat, i < t.vlen.bits / 32 → lane 32 i qv = BitVec.ofNat 32 ((lane 32 i nv).toNat / d.toNat)) ∧
  (∀ (dv : Divider 64 .unsigned .branchfree) (nv : Group) (s : State), ∃ qv : Group,
    exec (.vdivU64Bf dv nv) s = .next { s with responses := s.responses ++ [.ok (.group qv)] } ∧
    ∀ (i : Nat) (t : State), i < s.vlen.bits / 64 → exec (.divU64Bf dv (lane 64 i nv)) t =
      .next { t with responses := t.responses ++ [.ok (.quotient 64 (lane 64 i qv))] }) ∧
  (∀ (d : BitVec 64) (s : State), d.toNat ≠ 0 → d.toNat ≠ 1 → ∃ dv : Divider 64 .unsigned .branchfree,
    exec (.genU64Bf d) s = .next { s with responses := s.responses ++ [.ok (.divider 64 .unsigned .branchfree dv)] } ∧
    ∀ (nv : Group) (t : State), ∃ qv : Group, exec (.vdivU64Bf dv nv) t = .next { t with responses := t.responses ++ [.ok (.group qv)] } ∧
      ∀ i : Nat, i < t.vlen.bits / 64 → lane 64 i qv = BitVec.ofNat 64 ((lane 64 i nv).toNat / d.toNat)) ∧
  (∀ (dv : Divider 32 .signed .branchfree) (nv : Group) (s : State), ∃ qv : Group,
    exec (.vdivS32Bf dv nv) s = .next { s with responses := s.responses ++ [.ok (.group qv)] } ∧
    ∀ (i : Nat) (t : State), i < s.vlen.bits / 32 → exec (.divS32Bf dv (lane 32 i nv)) t =
      .next { t with responses := t.responses ++ [.ok (.quotient 32 (lane 32 i qv))] }) ∧
  (∀ (d : BitVec 32) (s : State), d.toNat ≠ 0 → ∃ dv : Divider 32 .signed .branchfree,
    exec (.genS32Bf d) s = .next { s with responses := s.responses ++ [.ok (.divider 32 .signed .branchfree dv)] } ∧
    ∀ (nv : Group) (t : State), ∃ qv : Group, exec (.vdivS32Bf dv nv) t = .next { t with responses := t.responses ++ [.ok (.group qv)] } ∧
      ∀ i : Nat, i < t.vlen.bits / 32 → lane 32 i qv = BitVec.ofInt 32 ((lane 32 i nv).toInt.tdiv d.toInt)) ∧
  (∀ (dv : Divider 64 .signed .branchfree) (nv : Group) (s : State), ∃ qv : Group,
    exec (.vdivS64Bf dv nv) s = .next { s with responses := s.responses ++ [.ok (.group qv)] } ∧
    ∀ (i : Nat) (t : State), i < s.vlen.bits / 64 → exec (.divS64Bf dv (lane 64 i nv)) t =
      .next { t with responses := t.responses ++ [.ok (.quotient 64 (lane 64 i qv))] }) ∧
  (∀ (d : BitVec 64) (s : State), d.toNat ≠ 0 → ∃ dv : Divider 64 .signed .branchfree,
    exec (.genS64Bf d) s = .next { s with responses := s.responses ++ [.ok (.divider 64 .signed .branchfree dv)] } ∧
    ∀ (nv : Group) (t : State), ∃ qv : Group, exec (.vdivS64Bf dv nv) t = .next { t with responses := t.responses ++ [.ok (.group qv)] } ∧
      ∀ i : Nat, i < t.vlen.bits / 64 → lane 64 i qv = BitVec.ofInt 64 ((lane 64 i nv).toInt.tdiv d.toInt))

/-- A group is a `VLEN_BITS`-bit value (30_encoding.md R68); that it is held as 64-bit words is the model's choice, entry 5. -/
def Obligations.GroupResultHoldsItsLanesOnly : Prop :=
  (∀ (dv : Divider 32 .unsigned .branchfull) (nv mv : Group) (s : State), groupValue nv % 2 ^ s.vlen.bits = groupValue mv % 2 ^ s.vlen.bits →
    ∃ qv : Group, exec (.vdivU32 dv nv) s = .next { s with responses := s.responses ++ [.ok (.group qv)] } ∧
      exec (.vdivU32 dv mv) s = .next { s with responses := s.responses ++ [.ok (.group qv)] } ∧ qv.length = s.vlen.bits / 64) ∧
  (∀ (dv : Divider 64 .unsigned .branchfull) (nv mv : Group) (s : State), groupValue nv % 2 ^ s.vlen.bits = groupValue mv % 2 ^ s.vlen.bits →
    ∃ qv : Group, exec (.vdivU64 dv nv) s = .next { s with responses := s.responses ++ [.ok (.group qv)] } ∧
      exec (.vdivU64 dv mv) s = .next { s with responses := s.responses ++ [.ok (.group qv)] } ∧ qv.length = s.vlen.bits / 64) ∧
  (∀ (dv : Divider 32 .signed .branchfull) (nv mv : Group) (s : State), groupValue nv % 2 ^ s.vlen.bits = groupValue mv % 2 ^ s.vlen.bits →
    ∃ qv : Group, exec (.vdivS32 dv nv) s = .next { s with responses := s.responses ++ [.ok (.group qv)] } ∧
      exec (.vdivS32 dv mv) s = .next { s with responses := s.responses ++ [.ok (.group qv)] } ∧ qv.length = s.vlen.bits / 64) ∧
  (∀ (dv : Divider 64 .signed .branchfull) (nv mv : Group) (s : State), groupValue nv % 2 ^ s.vlen.bits = groupValue mv % 2 ^ s.vlen.bits →
    ∃ qv : Group, exec (.vdivS64 dv nv) s = .next { s with responses := s.responses ++ [.ok (.group qv)] } ∧
      exec (.vdivS64 dv mv) s = .next { s with responses := s.responses ++ [.ok (.group qv)] } ∧ qv.length = s.vlen.bits / 64) ∧
  (∀ (dv : Divider 32 .unsigned .branchfree) (nv mv : Group) (s : State), groupValue nv % 2 ^ s.vlen.bits = groupValue mv % 2 ^ s.vlen.bits →
    ∃ qv : Group, exec (.vdivU32Bf dv nv) s = .next { s with responses := s.responses ++ [.ok (.group qv)] } ∧
      exec (.vdivU32Bf dv mv) s = .next { s with responses := s.responses ++ [.ok (.group qv)] } ∧ qv.length = s.vlen.bits / 64) ∧
  (∀ (dv : Divider 64 .unsigned .branchfree) (nv mv : Group) (s : State), groupValue nv % 2 ^ s.vlen.bits = groupValue mv % 2 ^ s.vlen.bits →
    ∃ qv : Group, exec (.vdivU64Bf dv nv) s = .next { s with responses := s.responses ++ [.ok (.group qv)] } ∧
      exec (.vdivU64Bf dv mv) s = .next { s with responses := s.responses ++ [.ok (.group qv)] } ∧ qv.length = s.vlen.bits / 64) ∧
  (∀ (dv : Divider 32 .signed .branchfree) (nv mv : Group) (s : State), groupValue nv % 2 ^ s.vlen.bits = groupValue mv % 2 ^ s.vlen.bits →
    ∃ qv : Group, exec (.vdivS32Bf dv nv) s = .next { s with responses := s.responses ++ [.ok (.group qv)] } ∧
      exec (.vdivS32Bf dv mv) s = .next { s with responses := s.responses ++ [.ok (.group qv)] } ∧ qv.length = s.vlen.bits / 64) ∧
  (∀ (dv : Divider 64 .signed .branchfree) (nv mv : Group) (s : State), groupValue nv % 2 ^ s.vlen.bits = groupValue mv % 2 ^ s.vlen.bits →
    ∃ qv : Group, exec (.vdivS64Bf dv nv) s = .next { s with responses := s.responses ++ [.ok (.group qv)] } ∧
      exec (.vdivS64Bf dv mv) s = .next { s with responses := s.responses ++ [.ok (.group qv)] } ∧ qv.length = s.vlen.bits / 64)

/-- Lane `i` of `QV` depends on the Divider and lane `i` of `NV` only (44_batched_divide.md R203), and not on `VLEN_BITS` (R201, 00_scope.md R7). -/
def Obligations.LanesAreIndependentOfEachOtherAndOfVlen : Prop :=
  (∀ (dv : Divider 32 .unsigned .branchfull) (nv mv : Group) (s t : State), ∃ qv pv : Group,
    exec (.vdivU32 dv nv) s = .next { s with responses := s.responses ++ [.ok (.group qv)] } ∧
    exec (.vdivU32 dv mv) t = .next { t with responses := t.responses ++ [.ok (.group pv)] } ∧
    ∀ i j : Nat, i < s.vlen.bits / 32 → j < t.vlen.bits / 32 →
      lane 32 i nv = lane 32 j mv → lane 32 i qv = lane 32 j pv) ∧
  (∀ (dv : Divider 64 .unsigned .branchfull) (nv mv : Group) (s t : State), ∃ qv pv : Group,
    exec (.vdivU64 dv nv) s = .next { s with responses := s.responses ++ [.ok (.group qv)] } ∧
    exec (.vdivU64 dv mv) t = .next { t with responses := t.responses ++ [.ok (.group pv)] } ∧
    ∀ i j : Nat, i < s.vlen.bits / 64 → j < t.vlen.bits / 64 →
      lane 64 i nv = lane 64 j mv → lane 64 i qv = lane 64 j pv) ∧
  (∀ (dv : Divider 32 .signed .branchfull) (nv mv : Group) (s t : State), ∃ qv pv : Group,
    exec (.vdivS32 dv nv) s = .next { s with responses := s.responses ++ [.ok (.group qv)] } ∧
    exec (.vdivS32 dv mv) t = .next { t with responses := t.responses ++ [.ok (.group pv)] } ∧
    ∀ i j : Nat, i < s.vlen.bits / 32 → j < t.vlen.bits / 32 →
      lane 32 i nv = lane 32 j mv → lane 32 i qv = lane 32 j pv) ∧
  (∀ (dv : Divider 64 .signed .branchfull) (nv mv : Group) (s t : State), ∃ qv pv : Group,
    exec (.vdivS64 dv nv) s = .next { s with responses := s.responses ++ [.ok (.group qv)] } ∧
    exec (.vdivS64 dv mv) t = .next { t with responses := t.responses ++ [.ok (.group pv)] } ∧
    ∀ i j : Nat, i < s.vlen.bits / 64 → j < t.vlen.bits / 64 →
      lane 64 i nv = lane 64 j mv → lane 64 i qv = lane 64 j pv) ∧
  (∀ (dv : Divider 32 .unsigned .branchfree) (nv mv : Group) (s t : State), ∃ qv pv : Group,
    exec (.vdivU32Bf dv nv) s = .next { s with responses := s.responses ++ [.ok (.group qv)] } ∧
    exec (.vdivU32Bf dv mv) t = .next { t with responses := t.responses ++ [.ok (.group pv)] } ∧
    ∀ i j : Nat, i < s.vlen.bits / 32 → j < t.vlen.bits / 32 →
      lane 32 i nv = lane 32 j mv → lane 32 i qv = lane 32 j pv) ∧
  (∀ (dv : Divider 64 .unsigned .branchfree) (nv mv : Group) (s t : State), ∃ qv pv : Group,
    exec (.vdivU64Bf dv nv) s = .next { s with responses := s.responses ++ [.ok (.group qv)] } ∧
    exec (.vdivU64Bf dv mv) t = .next { t with responses := t.responses ++ [.ok (.group pv)] } ∧
    ∀ i j : Nat, i < s.vlen.bits / 64 → j < t.vlen.bits / 64 →
      lane 64 i nv = lane 64 j mv → lane 64 i qv = lane 64 j pv) ∧
  (∀ (dv : Divider 32 .signed .branchfree) (nv mv : Group) (s t : State), ∃ qv pv : Group,
    exec (.vdivS32Bf dv nv) s = .next { s with responses := s.responses ++ [.ok (.group qv)] } ∧
    exec (.vdivS32Bf dv mv) t = .next { t with responses := t.responses ++ [.ok (.group pv)] } ∧
    ∀ i j : Nat, i < s.vlen.bits / 32 → j < t.vlen.bits / 32 →
      lane 32 i nv = lane 32 j mv → lane 32 i qv = lane 32 j pv) ∧
  (∀ (dv : Divider 64 .signed .branchfree) (nv mv : Group) (s t : State), ∃ qv pv : Group,
    exec (.vdivS64Bf dv nv) s = .next { s with responses := s.responses ++ [.ok (.group qv)] } ∧
    exec (.vdivS64Bf dv mv) t = .next { t with responses := t.responses ++ [.ok (.group pv)] } ∧
    ∀ i j : Nat, i < s.vlen.bits / 64 → j < t.vlen.bits / 64 →
      lane 64 i nv = lane 64 j mv → lane 64 i qv = lane 64 j pv)

/-- 40_arithmetic.md R100, at both widths. -/
def Obligations.MixedSignHighMultiply : Prop :=
  ∀ (w : Nat), w = 32 ∨ w = 64 → ∀ m n : BitVec w,
    (m.msb = true → addW (mulhs m n) n = BitVec.ofInt w ((m.toNat : Int) * n.toInt / 2 ^ w) ∧
      -2 ^ (w - 1) ≤ (m.toNat : Int) * n.toInt / 2 ^ w ∧ (m.toNat : Int) * n.toInt / 2 ^ w ≤ 2 ^ (w - 1) - 1) ∧
    (m.msb = false → mulhs m n = BitVec.ofInt w ((m.toNat : Int) * n.toInt / 2 ^ w))

/-- 40_arithmetic.md R102: the assembly is `mulhu_64`, and no line overflows. -/
def Obligations.HighMultiplyFromHalvesIsExact : Prop :=
  ∀ x y : BitVec 64, mulhuFromHalves x y = mulhu x y ∧
    (∀ x0 x1 y0 y1 p t : Nat, x0 = x.toNat % 2 ^ 32 → x1 = x.toNat / 2 ^ 32 → y0 = y.toNat % 2 ^ 32 → y1 = y.toNat / 2 ^ 32 →
      p = x0 * y0 / 2 ^ 32 → t = x1 * y0 + p →
      x0 * y0 < 2 ^ 64 ∧ x0 * y1 < 2 ^ 64 ∧ x1 * y0 < 2 ^ 64 ∧ x1 * y1 < 2 ^ 64 ∧ t < 2 ^ 64 ∧ t % 2 ^ 32 + x0 * y1 < 2 ^ 64 ∧
      (mulhu x y).toNat = x1 * y1 + t / 2 ^ 32 + (t % 2 ^ 32 + x0 * y1) / 2 ^ 32)

/-- 40_arithmetic.md R103: the signed assembly is `mulhs_64`. -/
def Obligations.SignedHighMultiplyFromHalvesIsExact : Prop :=
  ∀ x y : BitVec 64, mulhsFromHalves x y = mulhs x y

/-- 40_arithmetic.md R105, at both widths. -/
def Obligations.PowerOfTwoTestIsOneBitSet : Prop :=
  ∀ (w : Nat), w = 32 ∨ w = 64 → ∀ v : BitVec w, v ≠ 0 →
    (ispow2 v = true ↔ v.toNat = 2 ^ flog2 v) ∧
    (ispow2 v = true ↔ ∃ k : Nat, k < w ∧ ∀ i : Nat, v.getLsbD i = decide (i = k)) ∧
    (ispow2 v = true ↔ andW v (subW v 1#w) = 0) ∧
    (∀ k : Nat, k < w → v.toNat = 2 ^ k → ispow2 v = true)

/-- 41_generate.md R124: the shortcut without a second wide division gives the same `magic`. -/
def Obligations.DoublingGivesTheLargerPower : Prop :=
  ∀ (w : Nat), w = 32 ∨ w = 64 → ∀ (d : BitVec w) (k : Nat), d.toNat ≠ 0 →
    reciprocalByDoubling k d = BitVec.ofNat w (2 ^ (k + 1) / d.toNat + 1)

/-- 40_arithmetic.md R108, at both widths. -/
def Obligations.ReferenceSignedDivisionTruncates : Prop :=
  ∀ (w : Nat), w = 32 ∨ w = 64 → ∀ n d : BitVec w, d.toInt ≠ 0 →
    tdiv n d = BitVec.ofInt w (n.toInt.tdiv d.toInt) ∧
    (tdiv n d).toInt = if n.toInt = -2 ^ (w - 1) ∧ d.toInt = -1 then -2 ^ (w - 1) else n.toInt.tdiv d.toInt

/-- 40_arithmetic.md R94, R95 and the last clause of R97, at both widths. -/
def Obligations.SignCorrectionNegates : Prop :=
  ∀ (w : Nat), w = 32 ∨ w = 64 → ∀ v : BitVec w,
    cneg v (smask w false) = v ∧ cneg v (smask w true) = BitVec.ofInt w (-v.toInt) ∧
    (uabs v).toNat = v.toInt.natAbs ∧ sar v (w - 1) = smask w v.msb

/-- `DESC = {ctl, magic}` (30_encoding.md R65). -/
def Obligations.PackedDividerRoundTrip : Prop :=
  ∀ (w : Nat), w = 32 ∨ w = 64 → ∀ (sg : Signedness) (va : Variant),
    (∀ dv : Divider w sg va, (packDesc dv).extractLsb' 0 w = dv.magic ∧ (packDesc dv).extractLsb' w 16 = dv.ctl ∧
      unpackDesc (packDesc dv) = dv) ∧
    (∀ x : BitVec (16 + w), packDesc (unpackDesc x : Divider w sg va) = x)

/-- The canonical byte image of 20_memory.md R43; how many bytes a value of no whole number of bytes takes, and their padding, is the
model's choice, entry 18. -/
def Obligations.ByteImageIsLittleEndian : Prop :=
  (∀ (n : Nat) (x : BitVec n), (byteImage x).length = (n + 7) / 8 ∧ ofByteImage n (byteImage x) = x ∧
    (∀ k : Nat, 8 * k + 8 ≤ n → (byteImage x)[k]? = some (x.extractLsb' (8 * k) 8)) ∧
    (∀ (k j : Nat) (b : Byte), (byteImage x)[k]? = some b → j < 8 → 8 * k + j < n → b.getLsbD j = x.getLsbD (8 * k + j))) ∧
  (∀ (w : Nat), w = 32 ∨ w = 64 → ∀ (sg : Signedness) (va : Variant) (dv : Divider w sg va),
    byteImage (packDesc dv) = byteImage dv.magic ++ byteImage dv.ctl)

/-- The words of 30_encoding.md R61 and the operands of R63 in the frame that the encoder writes. R63 defines no single frame; the lanes
and their zeros are the model's choice, entry 3. -/
def Obligations.EncodedFrameHoldsTheOperandsOnly : Prop :=
  (∀ (d n : BitVec 32) (dv : Divider 32 .unsigned .branchfull) (nv : Group),
    encode (.genU32 d) = { opw := 0x00#8, d := d.setWidth 64, magic := 0, ctl := 0, n := 0, nv := [] } ∧
    encode (.stratU32 dv) = { opw := 0x01#8, d := 0, magic := dv.magic.setWidth 64, ctl := dv.ctl, n := 0, nv := [] } ∧
    encode (.divU32 dv n) = { opw := 0x02#8, d := 0, magic := dv.magic.setWidth 64, ctl := dv.ctl, n := n.setWidth 64, nv := [] } ∧
    encode (.vdivU32 dv nv) = { opw := 0x03#8, d := 0, magic := dv.magic.setWidth 64, ctl := dv.ctl, n := 0, nv := nv }) ∧
  (∀ (d n : BitVec 64) (dv : Divider 64 .unsigned .branchfull) (nv : Group),
    encode (.genU64 d) = { opw := 0x04#8, d := d, magic := 0, ctl := 0, n := 0, nv := [] } ∧
    encode (.stratU64 dv) = { opw := 0x05#8, d := 0, magic := dv.magic, ctl := dv.ctl, n := 0, nv := [] } ∧
    encode (.divU64 dv n) = { opw := 0x06#8, d := 0, magic := dv.magic, ctl := dv.ctl, n := n, nv := [] } ∧
    encode (.vdivU64 dv nv) = { opw := 0x07#8, d := 0, magic := dv.magic, ctl := dv.ctl, n := 0, nv := nv }) ∧
  (∀ (d n : BitVec 32) (dv : Divider 32 .signed .branchfull) (nv : Group),
    encode (.genS32 d) = { opw := 0x08#8, d := d.setWidth 64, magic := 0, ctl := 0, n := 0, nv := [] } ∧
    encode (.stratS32 dv) = { opw := 0x09#8, d := 0, magic := dv.magic.setWidth 64, ctl := dv.ctl, n := 0, nv := [] } ∧
    encode (.divS32 dv n) = { opw := 0x0A#8, d := 0, magic := dv.magic.setWidth 64, ctl := dv.ctl, n := n.setWidth 64, nv := [] } ∧
    encode (.vdivS32 dv nv) = { opw := 0x0B#8, d := 0, magic := dv.magic.setWidth 64, ctl := dv.ctl, n := 0, nv := nv }) ∧
  (∀ (d n : BitVec 64) (dv : Divider 64 .signed .branchfull) (nv : Group),
    encode (.genS64 d) = { opw := 0x0C#8, d := d, magic := 0, ctl := 0, n := 0, nv := [] } ∧
    encode (.stratS64 dv) = { opw := 0x0D#8, d := 0, magic := dv.magic, ctl := dv.ctl, n := 0, nv := [] } ∧
    encode (.divS64 dv n) = { opw := 0x0E#8, d := 0, magic := dv.magic, ctl := dv.ctl, n := n, nv := [] } ∧
    encode (.vdivS64 dv nv) = { opw := 0x0F#8, d := 0, magic := dv.magic, ctl := dv.ctl, n := 0, nv := nv }) ∧
  (∀ (d n : BitVec 32) (dv : Divider 32 .unsigned .branchfree) (nv : Group),
    encode (.genU32Bf d) = { opw := 0x10#8, d := d.setWidth 64, magic := 0, ctl := 0, n := 0, nv := [] } ∧
    encode (.stratU32Bf dv) = { opw := 0x11#8, d := 0, magic := dv.magic.setWidth 64, ctl := dv.ctl, n := 0, nv := [] } ∧
    encode (.divU32Bf dv n) = { opw := 0x12#8, d := 0, magic := dv.magic.setWidth 64, ctl := dv.ctl, n := n.setWidth 64, nv := [] } ∧
    encode (.vdivU32Bf dv nv) = { opw := 0x13#8, d := 0, magic := dv.magic.setWidth 64, ctl := dv.ctl, n := 0, nv := nv }) ∧
  (∀ (d n : BitVec 64) (dv : Divider 64 .unsigned .branchfree) (nv : Group),
    encode (.genU64Bf d) = { opw := 0x14#8, d := d, magic := 0, ctl := 0, n := 0, nv := [] } ∧
    encode (.stratU64Bf dv) = { opw := 0x15#8, d := 0, magic := dv.magic, ctl := dv.ctl, n := 0, nv := [] } ∧
    encode (.divU64Bf dv n) = { opw := 0x16#8, d := 0, magic := dv.magic, ctl := dv.ctl, n := n, nv := [] } ∧
    encode (.vdivU64Bf dv nv) = { opw := 0x17#8, d := 0, magic := dv.magic, ctl := dv.ctl, n := 0, nv := nv }) ∧
  (∀ (d n : BitVec 32) (dv : Divider 32 .signed .branchfree) (nv : Group),
    encode (.genS32Bf d) = { opw := 0x18#8, d := d.setWidth 64, magic := 0, ctl := 0, n := 0, nv := [] } ∧
    encode (.stratS32Bf dv) = { opw := 0x19#8, d := 0, magic := dv.magic.setWidth 64, ctl := dv.ctl, n := 0, nv := [] } ∧
    encode (.divS32Bf dv n) = { opw := 0x1A#8, d := 0, magic := dv.magic.setWidth 64, ctl := dv.ctl, n := n.setWidth 64, nv := [] } ∧
    encode (.vdivS32Bf dv nv) = { opw := 0x1B#8, d := 0, magic := dv.magic.setWidth 64, ctl := dv.ctl, n := 0, nv := nv }) ∧
  (∀ (d n : BitVec 64) (dv : Divider 64 .signed .branchfree) (nv : Group),
    encode (.genS64Bf d) = { opw := 0x1C#8, d := d, magic := 0, ctl := 0, n := 0, nv := [] } ∧
    encode (.stratS64Bf dv) = { opw := 0x1D#8, d := 0, magic := dv.magic, ctl := dv.ctl, n := 0, nv := [] } ∧
    encode (.divS64Bf dv n) = { opw := 0x1E#8, d := 0, magic := dv.magic, ctl := dv.ctl, n := n, nv := [] } ∧
    encode (.vdivS64Bf dv nv) = { opw := 0x1F#8, d := 0, magic := dv.magic, ctl := dv.ctl, n := 0, nv := nv })

/-- The byte image of a group (20_memory.md R43, D14), its lanes being those of 30_encoding.md R68; that a group is held as 64-bit words
is the model's choice, entry 5. -/
def Obligations.GroupImageStartsWithLaneZero : Prop :=
  ∀ (v : Vlen) (g : Group), (groupImage v g).length = v.bits / 8 ∧
    (∀ k : Nat, k < v.bits / 8 → (groupImage v g)[k]? = some (BitVec.ofNat 8 (groupValue g >>> (8 * k)))) ∧
    (∀ (w : Nat), w = 32 ∨ w = 64 → ∀ i : Nat, i < v.bits / w →
      ((groupImage v g).drop (w / 8 * i)).take (w / 8) = byteImage (lane w i g)) ∧
    (g.length = v.bits / 64 → ofGroupImage v (groupImage v g) = g)
end

