-- ==== Sys2Proof/Laws/Arith.lean ====
section
/-! SUPPORT. What each primitive of Machine/Arith.lean computes, as a `BitVec` operation and as a number. -/

namespace Sys2Proof.Machine

variable {w : Nat}

theorem addW_eq (a b : BitVec w) : addW a b = a + b := by
  apply BitVec.eq_of_toNat_eq
  simp [addW]

theorem subW_eq (a b : BitVec w) : subW a b = a - b := by
  have h : (BitVec.ofInt w ((a.toNat : Int) - b.toNat)) = BitVec.ofInt w a.toNat - BitVec.ofInt w b.toNat := by
    apply BitVec.eq_of_toInt_eq
    rw [BitVec.toInt_sub, BitVec.toInt_ofInt, BitVec.toInt_ofInt, BitVec.toInt_ofInt, Int.bmod_sub_bmod, Int.sub_bmod_bmod]
  rw [subW, h]
  simp

theorem shr_eq (v : BitVec w) (s : Nat) : shr v s = v >>> s := by
  apply BitVec.eq_of_toNat_eq
  have h : v.toNat / 2 ^ s < 2 ^ w := lt_of_le_of_lt (Nat.div_le_self _ _) v.isLt
  simp [shr, Nat.shiftRight_eq_div_pow, Nat.mod_eq_of_lt h]

@[simp] theorem toNat_shr (v : BitVec w) (s : Nat) : (shr v s).toNat = v.toNat / 2 ^ s := by
  rw [shr_eq, BitVec.toNat_ushiftRight, Nat.shiftRight_eq_div_pow]

theorem sar_eq (v : BitVec w) (s : Nat) : sar v s = v.sshiftRight s := by
  simp [sar, BitVec.sshiftRight, Int.shiftRight_eq_div_pow]

@[simp] theorem toInt_sar (v : BitVec w) (s : Nat) : (sar v s).toInt = v.toInt / 2 ^ s := by
  rw [sar_eq, BitVec.toInt_sshiftRight, Int.shiftRight_eq_div_pow]
  simp

@[simp] theorem toNat_mulhu (a b : BitVec w) : (mulhu a b).toNat = a.toNat * b.toNat / 2 ^ w := by
  have h : a.toNat * b.toNat / 2 ^ w < 2 ^ w := by
    rw [Nat.div_lt_iff_lt_mul (by positivity)]
    exact Nat.mul_lt_mul'' a.isLt b.isLt
  simp [mulhu, Nat.mod_eq_of_lt h]

/-- `mulhu` never exceeds the numerator (43_scalar_divide.md R175). -/
theorem toNat_mulhu_le (a b : BitVec w) : (mulhu a b).toNat ≤ b.toNat := by
  rw [toNat_mulhu]
  have h : a.toNat * b.toNat ≤ 2 ^ w * b.toNat := Nat.mul_le_mul_right _ a.isLt.le
  calc a.toNat * b.toNat / 2 ^ w ≤ 2 ^ w * b.toNat / 2 ^ w := Nat.div_le_div_right h
    _ = b.toNat := Nat.mul_div_cancel_left _ (by positivity)

/-- The signed value of a pattern that stands for an integer in range is that integer. -/
theorem toInt_ofInt_of_range (hw : 0 < w) {i : Int} (h1 : -2 ^ (w - 1) ≤ i) (h2 : i < 2 ^ (w - 1)) :
    (BitVec.ofInt w i).toInt = i := by
  obtain ⟨k, rfl⟩ : ∃ k, w = k + 1 := ⟨w - 1, by omega⟩
  rw [BitVec.toInt_ofInt]
  simp only [Nat.add_sub_cancel] at h1 h2
  apply Int.bmod_eq_of_le
  · have : ((2 ^ (k + 1) : Nat) : Int) = 2 * 2 ^ k := by push_cast; ring
    omega
  · have : ((2 ^ (k + 1) : Nat) : Int) = 2 * 2 ^ k := by push_cast; ring
    omega

theorem toInt_range (v : BitVec w) : -2 ^ (w - 1) ≤ v.toInt ∧ v.toInt < 2 ^ (w - 1) := by
  have h1 := BitVec.le_toInt v
  have h2 := BitVec.toInt_lt (x := v)
  exact ⟨h1, h2⟩

@[simp] theorem toInt_mulhs (a b : BitVec w) : (mulhs a b).toInt = a.toInt * b.toInt / 2 ^ w := by
  rcases Nat.eq_zero_or_pos w with rfl | hw
  · simp [BitVec.eq_nil a, BitVec.eq_nil b, BitVec.eq_nil (mulhs _ _)]
  obtain ⟨ha1, ha2⟩ := toInt_range a
  obtain ⟨hb1, hb2⟩ := toInt_range b
  obtain ⟨k, rfl⟩ : ∃ k, w = k + 1 := ⟨w - 1, by omega⟩
  simp only [Nat.add_sub_cancel] at *
  have hp : (0 : Int) < 2 ^ k := by positivity
  have e : (2 : Int) ^ (k + 1) = 2 * 2 ^ k := by ring
  apply toInt_ofInt_of_range hw
  · simp only [Nat.add_sub_cancel]
    rw [Int.le_ediv_iff_mul_le (by positivity), e]
    nlinarith
  · simp only [Nat.add_sub_cancel]
    rw [Int.ediv_lt_iff_lt_mul (by positivity), e]
    nlinarith

theorem smask_true : smask w true = BitVec.allOnes w := rfl
theorem smask_false : smask w false = 0#w := rfl

/-- `cneg` with a sign mask negates or does nothing (40_arithmetic.md R94). -/
theorem cneg_smask (v : BitVec w) (b : Bool) : cneg v (smask w b) = if b then -v else v := by
  cases b
  · simp [cneg, smask_false, subW_eq, xorW]
  · simp only [cneg, smask_true, subW_eq, xorW, if_true]
    rw [BitVec.xor_allOnes, BitVec.neg_eq_not_add, ← BitVec.neg_one_eq_allOnes, BitVec.sub_neg]

/-- The magnitude, also of the most negative value (40_arithmetic.md R95). -/
@[simp] theorem toNat_uabs (d : BitVec w) : (uabs d).toNat = d.toInt.natAbs := by
  have h : uabs d = d.abs := by
    unfold uabs BitVec.abs
    rw [subW_eq]
    simp
  rw [h, BitVec.toNat_abs]
  rw [BitVec.toInt_eq_msb_cond]
  split
  · have := d.isLt
    omega
  · simp

end Sys2Proof.Machine
end

