-- ==== Sys2Proof/Laws/Operands.lean ====
section
/-! SUPPORT. What is read from a `ctl` that GEN composed, and from the lanes of a group that VDIV composed. -/

namespace Sys2Proof.Machine

section Ctl
variable {sg : Signedness} {va : Variant}

theorem shiftOf_32 (dv : Divider 32 sg va) : shiftOf dv = dv.ctl.toNat % 32 := by
  simp [shiftOf]

theorem shiftOf_64 (dv : Divider 64 sg va) : shiftOf dv = dv.ctl.toNat % 64 := by
  simp [shiftOf]

/-- At both widths the shift is the low bits of `ctl` (30_encoding.md R67). -/
theorem shiftOf_eq {w : Nat} (hw : w = 32 ∨ w = 64) (dv : Divider w sg va) : shiftOf dv = dv.ctl.toNat % w := by
  rcases hw with rfl | rfl
  · exact shiftOf_32 dv
  · exact shiftOf_64 dv

theorem shiftOf_lt {w : Nat} (hw : w = 32 ∨ w = 64) (dv : Divider w sg va) : shiftOf dv < w := by
  rw [shiftOf_eq hw]
  exact Nat.mod_lt _ (by omega)

/-- `ctl` as the number its fields make (30_encoding.md R66). -/
theorem toNat_makeCtl {shift : Nat} (h : shift < 64) (add neg pow2 : Bool) :
    (makeCtl shift add neg pow2).toNat = 256 * pow2.toNat + 128 * neg.toNat + 64 * add.toNat + shift := by
  interval_cases shift <;> cases add <;> cases neg <;> cases pow2 <;> rfl

theorem makeCtl_eq {shift : Nat} (h : shift < 64) (add neg pow2 : Bool) :
    makeCtl shift add neg pow2 = BitVec.ofNat 16 (256 * pow2.toNat + 128 * neg.toNat + 64 * add.toNat + shift) := by
  apply BitVec.eq_of_toNat_eq
  rw [BitVec.toNat_ofNat, ← toNat_makeCtl h, Nat.mod_eq_of_lt (makeCtl shift add neg pow2).isLt]

@[simp] theorem makeCtl_add (shift : Nat) (add neg pow2 : Bool) : (makeCtl shift add neg pow2)[6] = add := by
  unfold makeCtl
  generalize BitVec.ofNat 6 shift = x
  revert x add neg pow2
  decide

theorem makeCtl_getLsbD_add (shift : Nat) (add neg pow2 : Bool) : (makeCtl shift add neg pow2).getLsbD 6 = add := by
  simp

@[simp] theorem makeCtl_neg (shift : Nat) (add neg pow2 : Bool) : (makeCtl shift add neg pow2)[7] = neg := by
  unfold makeCtl
  generalize BitVec.ofNat 6 shift = x
  revert x add neg pow2
  decide

theorem makeCtl_getLsbD_neg (shift : Nat) (add neg pow2 : Bool) : (makeCtl shift add neg pow2).getLsbD 7 = neg := by
  simp

@[simp] theorem makeCtl_pow2 (shift : Nat) (add neg pow2 : Bool) : (makeCtl shift add neg pow2)[8] = pow2 := by
  unfold makeCtl
  generalize BitVec.ofNat 6 shift = x
  revert x add neg pow2
  decide

theorem makeCtl_getLsbD_pow2 (shift : Nat) (add neg pow2 : Bool) : (makeCtl shift add neg pow2).getLsbD 8 = pow2 := by
  simp

@[simp] theorem addOf_makeCtl {w : Nat} (m : BitVec w) (s : Nat) (a n p : Bool) :
    addOf (⟨m, makeCtl s a n p⟩ : Divider w sg va) = a := makeCtl_getLsbD_add ..

@[simp] theorem negOf_makeCtl {w : Nat} (m : BitVec w) (s : Nat) (a n p : Bool) :
    negOf (⟨m, makeCtl s a n p⟩ : Divider w sg va) = n := makeCtl_getLsbD_neg ..

@[simp] theorem pow2Of_makeCtl {w : Nat} (m : BitVec w) (s : Nat) (a n p : Bool) :
    pow2Of (⟨m, makeCtl s a n p⟩ : Divider w sg va) = p := makeCtl_getLsbD_pow2 ..

/-- The shift that is read is the shift that was stored. -/
theorem shiftOf_makeCtl {w : Nat} (hw : w = 32 ∨ w = 64) (m : BitVec w) {s : Nat} (hs : s < w) (a n p : Bool) :
    shiftOf (⟨m, makeCtl s a n p⟩ : Divider w sg va) = s := by
  rw [shiftOf_eq hw, toNat_makeCtl (by omega)]
  have ha := Bool.toNat_le a
  have hn := Bool.toNat_le n
  have hp := Bool.toNat_le p
  rcases hw with rfl | rfl <;> omega

end Ctl

section Lanes
variable {w : Nat}

theorem packNat_lt (xs : List (BitVec w)) : packNat xs < 2 ^ (w * xs.length) := by
  induction xs with
  | nil => simp [packNat]
  | cons x xs ih =>
    have hx := x.isLt
    have e : 2 ^ (w * (xs.length + 1)) = 2 ^ w * 2 ^ (w * xs.length) := by rw [← Nat.pow_add]; congr 1; ring
    have : 2 ^ w * (packNat xs + 1) ≤ 2 ^ w * 2 ^ (w * xs.length) := Nat.mul_le_mul_left _ ih
    simp only [packNat, List.length_cons]
    rw [e]
    linarith [Nat.mul_add (2 ^ w) (packNat xs) 1]

/-- Digit `i` of the packed number is lane `i`. -/
theorem packNat_digit (xs : List (BitVec w)) (i : Nat) (h : i < xs.length) :
    packNat xs / 2 ^ (w * i) % 2 ^ w = (xs[i]).toNat := by
  induction xs generalizing i with
  | nil => simp at h
  | cons x xs ih =>
    cases i with
    | zero => simp [packNat, Nat.mod_eq_of_lt x.isLt]
    | succ i =>
      have h' : i < xs.length := by simpa using h
      have e : 2 ^ (w * (i + 1)) = 2 ^ w * 2 ^ (w * i) := by rw [← Nat.pow_add]; congr 1; ring
      have d : packNat (x :: xs) / 2 ^ w = packNat xs := by
        rw [packNat, Nat.add_mul_div_left _ _ (by positivity), Nat.div_eq_of_lt x.isLt, Nat.zero_add]
      rw [e, ← Nat.div_div_eq_div_mul, d, ih i h']
      rfl

theorem packNat_append (xs ys : List (BitVec w)) :
    packNat (xs ++ ys) = packNat xs + 2 ^ (w * xs.length) * packNat ys := by
  induction xs with
  | nil => simp [packNat]
  | cons x xs ih =>
    have e : 2 ^ (w * (xs.length + 1)) = 2 ^ w * 2 ^ (w * xs.length) := by rw [← Nat.pow_add]; congr 1; ring
    simp only [List.cons_append, packNat, List.length_cons, ih, e]
    ring

theorem length_lanesOf (v : Vlen) (g : Group) : (lanesOf v w g).length = v.lanes w := by
  simp [lanesOf]

@[simp] theorem length_groupOfValue (v : Vlen) (x : Nat) : (groupOfValue v x).length = v.words := by
  simp [groupOfValue]

/-- A group of `m` words holds the low `64*m` bits of the value it is made of. -/
theorem packNat_words (x m : Nat) :
    packNat ((List.range m).map fun k => BitVec.ofNat 64 (x >>> (64 * k))) = x % 2 ^ (64 * m) := by
  induction m with
  | zero => simp [packNat, Nat.mod_one]
  | succ m ih =>
    have e : 64 * (m + 1) = 64 * m + 64 := by ring
    rw [List.range_succ, List.map_append, packNat_append, ih, e, Nat.pow_add, Nat.mod_mul]
    simp [packNat, Nat.shiftRight_eq_div_pow]

theorem words_mul (v : Vlen) : 64 * v.words = v.bits := by cases v <;> decide

/-- A group made of a `VLEN_BITS`-bit value has that value (30_encoding.md R68). -/
theorem groupValue_groupOfValue (v : Vlen) (x : Nat) : groupValue (groupOfValue v x) = x % 2 ^ v.bits := by
  rw [groupValue, groupOfValue, packNat_words, words_mul]

theorem mul_lanes_le (v : Vlen) (w : Nat) : w * v.lanes w ≤ v.bits := Nat.mul_div_le _ _

theorem groupValue_mapLanes (v : Vlen) (f : BitVec w → BitVec w) (nv : Group) :
    groupValue (mapLanes v f nv) = packNat ((lanesOf v w nv).map f) := by
  rw [mapLanes, groupValue_groupOfValue]
  apply Nat.mod_eq_of_lt
  apply lt_of_lt_of_le (packNat_lt _)
  rw [List.length_map, length_lanesOf]
  exact Nat.pow_le_pow_right Nat.two_pos (mul_lanes_le v w)

theorem toNat_lane (i : Nat) (g : Group) : (lane w i g).toNat = groupValue g / 2 ^ (w * i) % 2 ^ w := by
  rw [lane, BitVec.toNat_ofNat, Nat.shiftRight_eq_div_pow]

/-- Each lane of the result is the function of the same lane of the operand (44_batched_divide.md R203, R206). -/
theorem lane_mapLanes (v : Vlen) (f : BitVec w → BitVec w) (nv : Group) {i : Nat} (h : i < v.lanes w) :
    lane w i (mapLanes v f nv) = f (lane w i nv) := by
  apply BitVec.eq_of_toNat_eq
  rw [toNat_lane, groupValue_mapLanes, packNat_digit _ _ (by simpa [length_lanesOf] using h)]
  simp [lanesOf]

/-- The result is a `VLEN_BITS`-bit value (30_encoding.md R68). -/
@[simp] theorem length_mapLanes (v : Vlen) (f : BitVec w → BitVec w) (nv : Group) :
    (mapLanes v f nv).length = v.words := length_groupOfValue ..

/-- The result depends on the lanes of the operand only. -/
theorem mapLanes_congr (v : Vlen) (f : BitVec w → BitVec w) {nv mv : Group} (h : lanesOf v w nv = lanesOf v w mv) :
    mapLanes v f nv = mapLanes v f mv := by
  rw [mapLanes, mapLanes, h]

/-- The lanes are read from the low `VLEN_BITS` bits of a group's value. -/
theorem lanesOf_congr {v : Vlen} {nv mv : Group} (h : groupValue nv % 2 ^ v.bits = groupValue mv % 2 ^ v.bits) :
    lanesOf v w nv = lanesOf v w mv := by
  apply List.map_congr_left
  intro i hi
  have hi' : i < v.lanes w := List.mem_range.mp hi
  have hle : w * i + w ≤ v.bits := by
    have h1 : w * (i + 1) ≤ w * v.lanes w := Nat.mul_le_mul_left _ hi'
    have h2 := mul_lanes_le v w
    have h3 : w * (i + 1) = w * i + w := by ring
    omega
  have key (x : Nat) : x / 2 ^ (w * i) % 2 ^ w = x % 2 ^ v.bits / 2 ^ (w * i) % 2 ^ w := by
    obtain ⟨c, hc⟩ := Nat.exists_eq_add_of_le hle
    rw [hc, Nat.pow_add, Nat.pow_add, Nat.mul_assoc, Nat.mod_mul_right_div_self, Nat.mod_mul_right_mod]
  apply BitVec.eq_of_toNat_eq
  rw [toNat_lane, toNat_lane, key, h, ← key]

end Lanes

end Sys2Proof.Machine
end

