-- ==== Sys2Proof/Laws/Divide.lean ====
section
/-! SUPPORT. What the shared steps of the dividers compute, as numbers (43_scalar_divide.md R175, R176, R178; 40_arithmetic.md R100). -/

namespace Sys2Proof.Machine

variable {w : Nat}

/-- The multiply-with-add value is one floor; neither the subtraction nor the addition wraps (43_scalar_divide.md R175). -/
theorem toNat_addStep (m n : BitVec w) :
    (addStep (mulhu m n) n).toNat = n.toNat * (2 ^ w + m.toNat) / 2 ^ (w + 1) := by
  have hle := toNat_mulhu_le m n
  have hn := n.isLt
  have hs : (subW n (mulhu m n)).toNat = n.toNat - (mulhu m n).toNat := by
    rw [subW_eq, BitVec.toNat_sub_of_le hle]
  have e : n.toNat * (2 ^ w + m.toNat) / 2 ^ (w + 1) = (n.toNat + (mulhu m n).toNat) / 2 := by
    rw [pow_succ, ← Nat.div_div_eq_div_mul, toNat_mulhu, Nat.mul_add, Nat.mul_comm m.toNat]
    congr 1
    rw [Nat.add_comm, Nat.add_mul_div_right _ _ (by positivity), Nat.add_comm]
  rw [e, addStep, addW_eq, BitVec.toNat_add, toNat_shr, hs, pow_one, Nat.mod_eq_of_lt (by omega)]
  omega

theorem toInt_addW_of_range (hw : 0 < w) {a b : BitVec w} {i : Int} (hb : b = BitVec.ofInt w i)
    (h1 : -2 ^ (w - 1) ≤ a.toInt + i) (h2 : a.toInt + i < 2 ^ (w - 1)) : (addW a b).toInt = a.toInt + i := by
  have h := toInt_ofInt_of_range hw h1 h2
  rw [BitVec.toInt_ofInt] at h
  rw [addW_eq, hb, BitVec.toInt_add, BitVec.toInt_ofInt, Int.add_bmod_bmod, h]

/-- An arithmetic shift by `W-1` is the sign mask (40_arithmetic.md R97). -/
theorem sar_width_sub_one (hw : 0 < w) (v : BitVec w) : sar v (w - 1) = if v.toInt < 0 then BitVec.allOnes w else 0#w := by
  obtain ⟨h1, h2⟩ := toInt_range v
  apply BitVec.eq_of_toInt_eq
  rw [toInt_sar]
  split
  · rename_i h
    have e : v.toInt / 2 ^ (w - 1) = -1 := by
      rw [Int.ediv_eq_iff_of_pos (by positivity)]
      omega
    rw [e, BitVec.toInt_allOnes, if_pos hw]
  · rename_i h
    rw [Int.ediv_eq_zero_of_lt (by omega) h2]
    simp

/-- The step "a negative value gets `2^shift - b`" never overflows (43_scalar_divide.md R176, R178). -/
theorem toInt_add_masked_bias {shift : Nat} (hs : shift < w) (b : Bool) (v : BitVec w) :
    (addW v (andW (sar v (w - 1)) (bias w shift b))).toInt =
      if v.toInt < 0 then v.toInt + (2 ^ shift - b.toNat) else v.toInt := by
  have hw : 0 < w := by omega
  obtain ⟨h1, h2⟩ := toInt_range v
  have hp : (2 : Int) ^ shift ≤ 2 ^ (w - 1) := pow_le_pow_right₀ (by norm_num) (by omega)
  have h0 : (1 : Int) ≤ 2 ^ shift := one_le_pow₀ (by norm_num)
  have hb : (b.toNat : Int) ≤ 1 := by exact_mod_cast Bool.toNat_le b
  rw [sar_width_sub_one hw]
  split
  · apply toInt_addW_of_range hw
    · simp [andW, bias]
    · omega
    · omega
  · simp [andW, addW_eq]

/-- The shift-only value is the numerator divided by `2^shift`, truncated toward zero (43_scalar_divide.md R176). -/
theorem toInt_signedShift {shift : Nat} (hs : shift < w) (n : BitVec w) :
    (signedShift shift n).toInt = n.toInt.tdiv (2 ^ shift) := by
  have hp : (0 : Int) < 2 ^ shift := by positivity
  rw [signedShift, toInt_sar, toInt_add_masked_bias hs]
  split
  · rename_i h
    rw [← neg_neg n.toInt, Int.neg_tdiv, Int.tdiv_eq_ediv_of_nonneg (by omega)]
    generalize -n.toInt = k at *
    have e : -k + (2 ^ shift - ((true : Bool).toNat : Int)) = -(k + 1 - 2 ^ shift) := by simp; ring
    rw [e]
    have hk := Int.emod_add_mul_ediv k (2 ^ shift)
    have hk0 := Int.emod_nonneg k hp.ne'
    have hk1 := Int.emod_lt_of_pos k hp
    rw [Int.ediv_eq_iff_of_pos hp]
    constructor <;> nlinarith
  · rename_i h
    rw [Int.tdiv_eq_ediv_of_nonneg (by omega)]

theorem toInt_signedHigh (add : Bool) (m n : BitVec w) :
    (signedHigh add m n).toInt = (m.toInt * n.toInt / 2 ^ w + if add then n.toInt else 0).bmod (2 ^ w) := by
  cases add
  · simp only [signedHigh, Bool.false_eq_true, if_false, toInt_mulhs, Int.add_zero]
    rw [← toInt_mulhs, BitVec.toInt_bmod_cancel]
  · simp only [signedHigh, if_true, addW_eq, BitVec.toInt_add, toInt_mulhs]

/-- Signed `magic` times numerator plus numerator is unsigned `magic` times numerator (40_arithmetic.md R100). -/
theorem mixed_sign_floor (m n : BitVec w) :
    m.toInt * n.toInt / 2 ^ w + (if m.msb then n.toInt else 0) = n.toInt * m.toNat / 2 ^ w := by
  have hp : (2 : Int) ^ w ≠ 0 := by positivity
  cases h : m.msb
  · rw [BitVec.toInt_eq_msb_cond, h]
    simp [mul_comm]
  · rw [BitVec.toInt_eq_msb_cond, h]
    simp only [if_true]
    rw [← Int.add_mul_ediv_right _ _ hp]
    congr 1
    push_cast
    ring

/-- Unsigned `magic` times numerator, upper half, is a signed `W`-bit value (40_arithmetic.md R100). -/
theorem mixed_sign_range (m n : BitVec w) :
    -2 ^ (w - 1) ≤ n.toInt * m.toNat / 2 ^ w ∧ n.toInt * m.toNat / 2 ^ w < 2 ^ (w - 1) := by
  obtain ⟨h1, h2⟩ := toInt_range n
  have hm : (m.toNat : Int) < 2 ^ w := by exact_mod_cast m.isLt
  have hm0 : (0 : Int) ≤ m.toNat := by positivity
  have hp : (0 : Int) < 2 ^ w := by positivity
  have hq : (0 : Int) < 2 ^ (w - 1) := by positivity
  constructor
  · rw [Int.le_ediv_iff_mul_le hp]
    nlinarith
  · rw [Int.ediv_lt_iff_lt_mul hp]
    nlinarith

theorem ofInt_toInt_cneg (v : BitVec w) (b : Bool) : cneg v (smask w b) = BitVec.ofInt w (if b then -v.toInt else v.toInt) := by
  rw [cneg_smask]
  cases b
  · simp
  · apply BitVec.eq_of_toInt_eq
    simp [BitVec.toInt_neg]

/-- Adding one to a negative value, in either of the two ways the pseudocode writes it (44_batched_divide.md R202). -/
theorem addW_sign_bit (hw : 0 < w) (q : BitVec w) : addW q (shr q (w - 1)) = if q.msb then addW q 1#w else q := by
  have e : shr q (w - 1) = if q.msb then 1#w else 0#w := by
    apply BitVec.eq_of_toNat_eq
    rw [toNat_shr]
    have hq := q.isLt
    obtain ⟨k, rfl⟩ : ∃ k, w = k + 1 := ⟨w - 1, by omega⟩
    rw [BitVec.msb_eq_decide]
    simp only [Nat.add_sub_cancel] at *
    by_cases h : 2 ^ k ≤ q.toNat
    · simp only [h, decide_true, if_true, BitVec.toNat_ofNat]
      rw [Nat.mod_eq_of_lt (Nat.one_lt_two_pow (by omega))]
      have : 2 ^ (k + 1) = 2 ^ k * 2 := pow_succ _ _
      rw [Nat.div_eq_iff (by positivity)]
      omega
    · simp only [h, decide_false, Bool.false_eq_true, if_false, BitVec.toNat_ofNat]
      rw [Nat.div_eq_of_lt (by omega)]
      simp
  rw [e]
  split
  · rfl
  · simp [addW_eq]

/-- Rounding a floor toward zero: one is added to a negative value and never overflows (43_scalar_divide.md R176). -/
theorem toInt_round_toward_zero (hw : 0 < w) (q : BitVec w) :
    (if q.msb then addW q 1#w else q).toInt = q.toInt + if q.toInt < 0 then 1 else 0 := by
  obtain ⟨h1, h2⟩ := toInt_range q
  have hm : q.msb = decide (q.toInt < 0) := BitVec.msb_eq_toInt
  rw [hm]
  by_cases h : q.toInt < 0
  · simp only [h, decide_true, if_true]
    have hp : (0 : Int) < 2 ^ (w - 1) := by positivity
    apply toInt_addW_of_range hw
    · simp
    · omega
    · omega
  · simp [h]

end Sys2Proof.Machine
end

