-- ==== Sys2Proof/Laws/Batch.lean ====
section
/-! SUPPORT. What each group division computes: the scalar division of its kind on every lane (44_batched_divide.md R202). -/

namespace Sys2Proof.Machine

variable {w : Nat}

theorem vdivU_eq (v : Vlen) (dv : Divider w .unsigned .branchfull) (nv : Group) : vdivU v dv nv = mapLanes v (divU dv) nv := by
  unfold vdivU divU
  dsimp only
  split <;> [skip; split] <;> rfl

theorem vdivUBf_eq (v : Vlen) (dv : Divider w .unsigned .branchfree) (nv : Group) :
    vdivUBf v dv nv = mapLanes v (divUBf dv) nv := rfl

theorem vdivS_eq (hw : 0 < w) (v : Vlen) (dv : Divider w .signed .branchfull) (nv : Group) :
    vdivS v dv nv = mapLanes v (divS dv) nv := by
  unfold vdivS divS
  dsimp only
  split
  · rfl
  · simp only [addW_sign_bit hw]

theorem vdivSBf_eq (v : Vlen) (dv : Divider w .signed .branchfree) (nv : Group) :
    vdivSBf v dv nv = mapLanes v (divSBf dv) nv := rfl

end Sys2Proof.Machine
end

