-- ==== Sys2Proof/Laws/Decode.lean ====
section
/-! SUPPORT. The small lemmas of the decoder and the encoder. -/

namespace Sys2Proof

@[simp] theorem encode_opw (i : Instr) : (encode i).opw = i.fields.word := by cases i <;> rfl

@[simp] theorem readOpFields_word (f : OpFields) : readOpFields f.word = .ok f := by
  obtain ⟨fn, w64, sgn, bf⟩ := f
  cases fn <;> cases w64 <;> cases sgn <;> cases bf <;> rfl

theorem decode_of_reserved {v : Vlen} {q : Request} (h : q.opw.extractLsb' 5 3 ≠ 0#3) :
    decode v q = .error .illegalOperation := by
  simp [decode, readOpFields, h]

/-- A lane that holds a group of the unit's width is read back whole. -/
theorem group_of_fits {v : Vlen} {q : Request} (h : groupFits v q.nv = true) : q.group v = q.nv := by
  have hl : q.nv.length = v.words := by simpa [groupFits] using h
  apply List.ext_getElem
  · simp [Request.group, hl]
  · intro k h1 h2
    simp [Request.group, List.getElem?_eq_getElem h2]

/-- The group an operation is given is always a `VLEN_BITS`-bit value. -/
theorem groupFits_group (v : Vlen) (q : Request) : groupFits v (q.group v) = true := by
  simp [groupFits, Request.group]

end Sys2Proof
end

