-- ==== Sys2Proof/Laws/Reciprocal.lean ====
section
/-! SUPPORT. Why a rounded-up reciprocal divides exactly (41_generate.md R122, R123, R126, R127): facts of integer arithmetic, and
the sizes of the reciprocals GEN computes. -/

namespace Sys2Proof.Machine

/-- The rounded-up reciprocal times the divisor exceeds `2^k` by the rounding error. -/
theorem reciprocal_mul (k : Nat) {d : Nat} (hd : 0 < d) : (2 ^ k / d + 1) * d = 2 ^ k + (d - 2 ^ k % d) := by
  have h1 := Nat.div_add_mod (2 ^ k) d
  have h2 := Nat.mod_lt (2 ^ k) hd
  have h3 : (2 ^ k / d + 1) * d = d * (2 ^ k / d) + d := by ring
  omega

/-- Multiplying by the reciprocal and dropping `k` bits is dividing, while the numerator times the rounding error stays below `2^k`
(41_generate.md R123). -/
theorem reciprocal_exact {k d n : Nat} (hd : 0 < d) (h : n * (d - 2 ^ k % d) < 2 ^ k) :
    n * (2 ^ k / d + 1) / 2 ^ k = n / d := by
  have hM := reciprocal_mul k hd
  generalize 2 ^ k / d + 1 = M at *
  generalize d - 2 ^ k % d = e at *
  have hp : 0 < 2 ^ k := by positivity
  have hn := Nat.div_add_mod n d
  have hr := Nat.mod_lt n hd
  have hprod : n * M * d = n * 2 ^ k + n * e := by rw [Nat.mul_assoc, hM, Nat.mul_add]
  generalize n / d = q at *
  generalize n % d = r at *
  apply Nat.div_eq_of_lt_le
  · apply Nat.le_of_mul_le_mul_right _ hd
    nlinarith
  · apply Nat.lt_of_mul_lt_mul_right (a := d)
    nlinarith

/-- The floor for a negative numerator is one below the truncated quotient (41_generate.md R127). -/
theorem reciprocal_exact_neg {k a m : Nat} (ha : 0 < a) (hm : 0 < m) (h : m * (a - 2 ^ k % a) ≤ 2 ^ k) :
    -(m : Int) * ((2 ^ k / a + 1 : Nat) : Int) / 2 ^ k = -((m / a : Nat) : Int) - 1 := by
  have hM := reciprocal_mul k ha
  have he : 0 < a - 2 ^ k % a := by have := Nat.mod_lt (2 ^ k) ha; omega
  generalize 2 ^ k / a + 1 = M at *
  generalize a - 2 ^ k % a = e at *
  have hp : 0 < 2 ^ k := by positivity
  have hn := Nat.div_add_mod m a
  have hr := Nat.mod_lt m ha
  have hprod : m * M * a = m * 2 ^ k + m * e := by rw [Nat.mul_assoc, hM, Nat.mul_add]
  have hme : 0 < m * e := Nat.mul_pos hm he
  generalize m / a = q at *
  generalize m % a = r at *
  have h1 : q * 2 ^ k < m * M := by
    apply Nat.lt_of_mul_lt_mul_right (a := a)
    nlinarith
  have h2 : m * M ≤ (q + 1) * 2 ^ k := by
    apply Nat.le_of_mul_le_mul_right _ ha
    nlinarith
  have hp' : (0 : Int) < 2 ^ k := by positivity
  rw [Int.ediv_eq_iff_of_pos hp']
  have h1' : (q : Int) * 2 ^ k < m * M := by exact_mod_cast h1
  have h2' : (m : Int) * M ≤ (q + 1) * 2 ^ k := by exact_mod_cast h2
  constructor <;> linarith

/-- The floor for a numerator of either sign (41_generate.md R127). -/
theorem reciprocal_exact_int {k a b : Nat} (ha : 0 < a) (h : b * (a - 2 ^ k % a) < 2 ^ k) {n : Int} (hn : n.natAbs ≤ b) :
    n * ((2 ^ k / a + 1 : Nat) : Int) / 2 ^ k = n.tdiv a - if n < 0 then 1 else 0 := by
  have hb : n.natAbs * (a - 2 ^ k % a) < 2 ^ k := lt_of_le_of_lt (Nat.mul_le_mul_right _ hn) h
  rcases Int.natAbs_eq n with e | e
  · generalize n.natAbs = m at *
    subst e
    have := reciprocal_exact ha hb
    rw [if_neg (by omega), Int.sub_zero, Int.tdiv_eq_ediv_of_nonneg (by omega)]
    exact_mod_cast this
  · generalize n.natAbs = m at *
    subst e
    rcases Nat.eq_zero_or_pos m with rfl | hm
    · simp
    · have := reciprocal_exact_neg ha hm hb.le
      rw [if_pos (by omega), this, Int.neg_tdiv, Int.tdiv_eq_ediv_of_nonneg (by omega)]
      push_cast
      rfl

/-- The smaller reciprocal fits: `d` lies strictly between two powers of two. -/
theorem reciprocal_lt {w l d : Nat} (hl : 2 ^ l < d) (hw : l + 1 ≤ w) (h1 : 1 ≤ l ∨ l + 2 ≤ w) : 2 ^ (w + l) / d + 1 < 2 ^ w := by
  have hd : 0 < d := lt_of_le_of_lt (Nat.zero_le _) hl
  have key : 2 ^ (w + l) < (2 ^ w - 1) * d := by
    have e : 2 ^ w = 2 ^ (w - l - 1) * 2 * 2 ^ l := by
      rw [Nat.mul_assoc, ← pow_succ', ← Nat.pow_add]
      congr 1
      omega
    have hA : 1 ≤ 2 ^ (w - l - 1) := Nat.one_le_two_pow
    have hB : 1 ≤ 2 ^ l := Nat.one_le_two_pow
    have hAB : 2 ^ l + 1 < 2 ^ w := by
      rcases h1 with h | h
      · have : 2 ≤ 2 ^ l := by
          calc 2 = 2 ^ 1 := rfl
            _ ≤ 2 ^ l := Nat.pow_le_pow_right (by norm_num) h
        have : 2 * 2 ^ l ≤ 2 ^ w := by rw [← pow_succ']; exact Nat.pow_le_pow_right (by norm_num) hw
        omega
      · have : 4 * 2 ^ l ≤ 2 ^ w := by
          have : 4 * 2 ^ l = 2 ^ (l + 2) := by rw [Nat.pow_add]; ring
          rw [this]
          exact Nat.pow_le_pow_right (by norm_num) h
        omega
    have e2 : 2 ^ (w + l) = 2 ^ w * 2 ^ l := Nat.pow_add ..
    rw [e2]
    generalize 2 ^ w = P at *
    generalize 2 ^ l = Q at *
    obtain ⟨c, rfl⟩ : ∃ c, d = Q + 1 + c := ⟨d - Q - 1, by omega⟩
    obtain ⟨P, rfl⟩ : ∃ P', P = P' + 1 := ⟨P - 1, by omega⟩
    simp only [Nat.add_sub_cancel]
    nlinarith
  have : 2 ^ (w + l) / d < 2 ^ w - 1 := by
    rw [Nat.div_lt_iff_lt_mul hd]
    exact key
  have := Nat.one_le_two_pow (n := w)
  omega

/-- The larger reciprocal has one bit more. -/
theorem le_reciprocal {w l d : Nat} (hd : 0 < d) (hl : d < 2 ^ (l + 1)) : 2 ^ w < 2 ^ (w + l + 1) / d + 1 := by
  have : 2 ^ w ≤ 2 ^ (w + l + 1) / d := by
    rw [Nat.le_div_iff_mul_le hd]
    have e : 2 ^ (w + l + 1) = 2 ^ w * 2 ^ (l + 1) := by rw [Nat.add_assoc, Nat.pow_add]
    rw [e]
    exact Nat.mul_le_mul_left _ hl.le
  omega

variable {w : Nat}

theorem flog2_le {v : BitVec w} (h : v.toNat ≠ 0) : 2 ^ flog2 v ≤ v.toNat := Nat.log2_self_le h

theorem lt_flog2 (v : BitVec w) : v.toNat < 2 ^ (flog2 v + 1) := Nat.lt_log2_self

theorem flog2_eq {v : BitVec w} {l : Nat} (h1 : 2 ^ l ≤ v.toNat) (h2 : v.toNat < 2 ^ (l + 1)) : flog2 v = l := by
  have h0 : v.toNat ≠ 0 := by have := Nat.one_le_two_pow (n := l); omega
  exact (Nat.log2_eq_iff h0).mpr ⟨h1, h2⟩

theorem flog2_lt {v : BitVec w} (h : v.toNat ≠ 0) : flog2 v < w := by
  have h1 := flog2_le h
  exact (Nat.pow_lt_pow_iff_right (by norm_num)).mp (lt_of_le_of_lt h1 v.isLt)

/-- `ispow2` finds every power of two (40_arithmetic.md R105). -/
theorem ispow2_iff {v : BitVec w} : ispow2 v = true ↔ ∃ m, v.toNat = 2 ^ m := by
  constructor
  · intro h
    exact ⟨flog2 v, by simpa [ispow2] using h⟩
  · rintro ⟨m, h⟩
    have : flog2 v = m := flog2_eq h.ge (by rw [h]; exact Nat.pow_lt_pow_right (by norm_num) (by omega))
    simp [ispow2, this, h]

/-- The magnitude of a signed pattern is at most `2^(W-1)`. -/
theorem toNat_uabs_le (d : BitVec w) : (uabs d).toNat ≤ 2 ^ (w - 1) := by
  rw [toNat_uabs]
  obtain ⟨h1, h2⟩ := toInt_range d
  have e : ((2 ^ (w - 1) : Nat) : Int) = 2 ^ (w - 1) := by push_cast; rfl
  omega

end Sys2Proof.Machine
end

