-- ==== Sys2Proof/Laws/State.lean ====
section
/-! SUPPORT. What each state operation leaves in each field, and what the shared operations can answer. -/

namespace Sys2Proof.Machine

@[simp] theorem State.answer_vlen (r : Response) (s : State) : (s.answer r).vlen = s.vlen := rfl
@[simp] theorem State.answer_requests (r : Response) (s : State) : (s.answer r).requests = s.requests := rfl
@[simp] theorem State.answer_taken (r : Response) (s : State) : (s.answer r).taken = s.taken := rfl
@[simp] theorem State.answer_responses (r : Response) (s : State) :
    (s.answer r).responses = s.responses ++ [r] := rfl

@[simp] theorem State.raise_eq_answer (x : Violation) (s : State) : s.raise x = s.answer (.raised x) := rfl

@[simp] theorem State.issue_vlen (q : Request) (s : State) : (s.issue q).vlen = s.vlen := rfl
@[simp] theorem State.issue_requests (q : Request) (s : State) : (s.issue q).requests = s.requests ++ [q] := rfl
@[simp] theorem State.issue_taken (q : Request) (s : State) : (s.issue q).taken = s.taken := rfl
@[simp] theorem State.issue_responses (q : Request) (s : State) : (s.issue q).responses = s.responses := rfl

@[simp] theorem State.issueFirst_vlen (q : Request) (s : State) : (s.issueFirst q).vlen = s.vlen := rfl
@[simp] theorem State.issueFirst_requests (q : Request) (s : State) :
    (s.issueFirst q).requests = q :: s.requests := rfl
@[simp] theorem State.issueFirst_taken (q : Request) (s : State) : (s.issueFirst q).taken = s.taken := rfl
@[simp] theorem State.issueFirst_responses (q : Request) (s : State) : (s.issueFirst q).responses = s.responses := rfl

@[simp] theorem State.resetWith_vlen (v : Vlen) : (State.resetWith v).vlen = v := rfl
@[simp] theorem State.resetWith_requests (v : Vlen) : (State.resetWith v).requests = [] := rfl
@[simp] theorem State.resetWith_taken (v : Vlen) : (State.resetWith v).taken = [] := rfl
@[simp] theorem State.resetWith_responses (v : Vlen) : (State.resetWith v).responses = [] := rfl

/-- Taking a request: there is none, or the first one moves from the requests to those taken and nothing else changes. -/
theorem State.takeRequest_cases (s : State) :
    (s.requests = [] ∧ s.takeRequest = none) ∨
    (∃ q rest, s.requests = q :: rest ∧
      s.takeRequest = some (q, { s with requests := rest, taken := s.taken ++ [q] })) := by
  unfold State.takeRequest
  cases h : s.requests with
  | nil => exact .inl ⟨rfl, rfl⟩
  | cons q rest => exact .inr ⟨q, rest, rfl, rfl⟩

/-- A GEN either raises the violation of the checks or answers with the derived Divider. -/
theorem generate_cases {w : Nat} {sg : Signedness} {va : Variant} (gen : BitVec w → Divider w sg va) (d : BitVec w)
    (s : State) :
    (∃ x, checkDivisor sg va d = .error x ∧ generate gen d s = s.answer (.raised x)) ∨
    (checkDivisor sg va d = .ok () ∧ generate gen d s = s.answer (.ok (.divider w sg va (gen d)))) := by
  unfold generate
  cases h : checkDivisor sg va d with
  | error x => exact .inl ⟨x, rfl, rfl⟩
  | ok u => exact .inr ⟨rfl, rfl⟩

/-- What a GEN answers does not depend on the state. -/
theorem generate_answers {w : Nat} {sg : Signedness} {va : Variant} (gen : BitVec w → Divider w sg va) (d : BitVec w) :
    ∃ r, ∀ s : State, generate gen d s = s.answer r := by
  cases h : checkDivisor sg va d with
  | error x => exact ⟨.raised x, fun s => by simp only [generate, h, State.raise_eq_answer]⟩
  | ok u => exact ⟨.ok (.divider w sg va (gen d)), fun s => by simp only [generate, h]⟩

/-- What every operation can do: it answers with one response, which depends on the operation and on `VLEN_BITS` alone, and changes
nothing else. -/
theorem exec_answers (i : Instr) (v : Vlen) : ∃ r, ∀ s : State, s.vlen = v → exec i s = .next (s.answer r) := by
  have gen {w : Nat} {sg : Signedness} {va : Variant} (g : BitVec w → Divider w sg va) (d : BitVec w) :
      ∃ r, ∀ s : State, s.vlen = v →
        (Host.Outcome.next (generate g d s) : Host.Outcome State Fault Refusal) = .next (s.answer r) :=
    let ⟨r, h⟩ := generate_answers g d
    ⟨r, fun s _ => by rw [h]⟩
  have grp (f : Vlen → Group) : ∃ r, ∀ s : State, s.vlen = v →
      (Host.Outcome.next (answerGroup (f s.vlen) s) : Host.Outcome State Fault Refusal) = .next (s.answer r) :=
    ⟨.ok (.group (f v)), fun s h => by rw [h]; rfl⟩
  cases i with
  | genU32 d => exact gen _ d
  | genU64 d => exact gen _ d
  | genU32Bf d => exact gen _ d
  | genU64Bf d => exact gen _ d
  | genS32 d => exact gen _ d
  | genS64 d => exact gen _ d
  | genS32Bf d => exact gen _ d
  | genS64Bf d => exact gen _ d
  | vdivU32 dv nv => exact grp (fun v => vdivU v dv nv)
  | vdivU64 dv nv => exact grp (fun v => vdivU v dv nv)
  | vdivU32Bf dv nv => exact grp (fun v => vdivUBf v dv nv)
  | vdivU64Bf dv nv => exact grp (fun v => vdivUBf v dv nv)
  | vdivS32 dv nv => exact grp (fun v => vdivS v dv nv)
  | vdivS64 dv nv => exact grp (fun v => vdivS v dv nv)
  | vdivS32Bf dv nv => exact grp (fun v => vdivSBf v dv nv)
  | vdivS64Bf dv nv => exact grp (fun v => vdivSBf v dv nv)
  | _ => exact ⟨_, fun s _ => rfl⟩

/-- What a step can do: nothing without a request; otherwise it takes the first request and answers it with one response, which
depends on the request and on `VLEN_BITS` alone. -/
theorem step_answers (q : Request) (v : Vlen) :
    ∃ r, ∀ (s : State) (rest : List Request), s.vlen = v → s.requests = q :: rest →
      step s = .next { s with requests := rest, taken := s.taken ++ [q], responses := s.responses ++ [r] } := by
  cases h : readRequest v q with
  | error x =>
    refine ⟨.raised x, fun s rest hv hq => ?_⟩
    subst hv
    simp only [step, State.takeRequest, hq, h]
    rfl
  | ok i =>
    obtain ⟨r, hr⟩ := exec_answers i v
    refine ⟨r, fun s rest hv hq => ?_⟩
    subst hv
    simp only [step, State.takeRequest, hq, h]
    exact hr _ rfl

end Sys2Proof.Machine
end

