-- ==== Sys2Proof/Laws/Generate.lean ====
section
/-! SUPPORT. What the shared operations of GEN can answer: the checks, the derived Dividers and the state they leave. -/

namespace Sys2Proof.Machine

variable {w : Nat}

theorem checkDivisor_zero {sg : Signedness} {va : Variant} {d : BitVec w} (h : d.toNat = 0) :
    checkDivisor sg va d = .error .divisorZero := by
  simp [checkDivisor, h]

theorem checkDivisor_one_branchfree {d : BitVec w} (h : d.toNat = 1) :
    checkDivisor .unsigned .branchfree d = .error .divisorOneBranchfree := by
  simp [checkDivisor, h]

theorem checkDivisor_signed {va : Variant} {d : BitVec w} (h : d.toNat ≠ 0) : checkDivisor .signed va d = .ok () := by
  simp [checkDivisor, h]

theorem checkDivisor_branchfull {sg : Signedness} {d : BitVec w} (h : d.toNat ≠ 0) : checkDivisor sg .branchfull d = .ok () := by
  simp [checkDivisor, h]

theorem checkDivisor_branchfree {d : BitVec w} (h : d.toNat ≠ 0) (h1 : d.toNat ≠ 1) :
    checkDivisor .unsigned .branchfree d = .ok () := by
  simp [checkDivisor, h, h1]

/-- A GEN whose checks pass answers with the derived Divider (41_generate.md R120, R121). -/
theorem generate_ok {sg : Signedness} {va : Variant} (gen : BitVec w → Divider w sg va) {d : BitVec w}
    (h : checkDivisor sg va d = .ok ()) (s : State) : generate gen d s = s.answer (.ok (.divider w sg va (gen d))) := by
  simp only [generate, h]

/-- A GEN whose checks fail raises the violation (41_generate.md R121). -/
theorem generate_error {sg : Signedness} {va : Variant} (gen : BitVec w → Divider w sg va) {d : BitVec w} {x : Violation}
    (h : checkDivisor sg va d = .error x) (s : State) : generate gen d s = s.answer (.raised x) := by
  simp only [generate, h, State.raise_eq_answer]

/-- The exponent of a power of two is its base-2 logarithm. -/
theorem exponent_unique {n l k : Nat} (h1 : 2 ^ l ≤ n) (h2 : n < 2 ^ (l + 1)) (hk : n = 2 ^ k) : k = l := by
  subst hk
  have e1 : l ≤ k := (Nat.pow_le_pow_iff_right (by norm_num)).mp h1
  have e2 : k < l + 1 := (Nat.pow_lt_pow_iff_right (by norm_num)).mp h2
  omega

/-- What `UGEN` can answer: a power of two with the sentinel, or the smaller or the larger reciprocal (41_generate.md R122). -/
theorem ugen_spec (va : Variant) {d : BitVec w} (h : d.toNat ≠ 0) (hb : va = .branchfree → d.toNat ≠ 1) :
   ∃ (m : BitVec w) (l : Nat) (add pow2 : Bool), l < w ∧ ugen va d = ⟨m, makeCtl l add false pow2⟩ ∧
    (pow2 = true → m = 0 ∧ add = false ∧ d.toNat = 2 ^ (l + if va = .branchfree then 1 else 0)) ∧
    (pow2 = false → m ≠ 0 ∧ ¬ (∃ k, d.toNat = 2 ^ k) ∧ 2 ^ l < d.toNat ∧ d.toNat < 2 ^ (l + 1) ∧ (va = .branchfree → add = true) ∧
       (add = true → 2 ^ w + m.toNat = 2 ^ (w + l + 1) / d.toNat + 1) ∧
       (add = false → d.toNat - 2 ^ (w + l) % d.toNat < 2 ^ l ∧ m.toNat = 2 ^ (w + l) / d.toNat + 1)) := by
  have hl1 := flog2_le h
  have hl2 := lt_flog2 d
  have hlw := flog2_lt h
  have hu : ugen va d = ugen va d := rfl
  conv at hu => rhs; unfold ugen
  generalize flog2 d = l at *
  by_cases hp : ispow2 d = true
  · simp only [hp, if_true] at hu
    obtain ⟨k, hk⟩ := ispow2_iff.mp hp
    have hkl : k = l := exponent_unique hl1 hl2 hk
    subst hkl
    cases va with
    | branchfull => exact ⟨_, _, _, _, hlw, hu, by simp [hk], by simp⟩
    | branchfree =>
      have : 1 ≤ k := by
        by_contra hc
        have : k = 0 := by omega
        subst this
        exact hb rfl (by simpa using hk)
      exact ⟨_, k - 1, _, _, by omega, hu, by simp [hk]; omega, by simp⟩
  · have hp' := hp
    rw [ispow2_iff] at hp'
    simp only [hp] at hu
    have hlt : 2 ^ l < d.toNat := lt_of_le_of_ne hl1 (fun e => hp' ⟨l, e.symm⟩)
    have hl0 : 1 ≤ l := by
      by_contra hc
      have : l = 0 := by omega
      subst this
      omega
    have hs := reciprocal_lt (w := w) hlt (by omega) (.inl hl0)
    have hB : 2 ^ (w + l + 1) / d.toNat + 1 < 2 ^ (w + 1) := by
      have := reciprocal_lt (w := w + 1) hlt (by omega) (.inl hl0)
      have e : w + 1 + l = w + l + 1 := by omega
      rwa [e] at this
    have hA := le_reciprocal (w := w) (by omega : 0 < d.toNat) hl2
    by_cases hc : va = .branchfull ∧ roundingError (w + l) d < 2 ^ l
    · simp only [hc] at hu
      simp only [roundingError, wdiv] at hc
      simp only [hc.1, Bool.false_eq_true, if_false, if_true, and_self] at hu ⊢
      have hm : (reciprocal (w + l) d).toNat = 2 ^ (w + l) / d.toNat + 1 := by
        simp [reciprocal, wdiv, Nat.mod_eq_of_lt hs]
      refine ⟨_, _, _, _, hlw, by rw [hu], by simp, fun _ => ⟨?_, hp', hlt, hl2, by simp, by simp, fun _ => ⟨hc.2, hm⟩⟩⟩
      intro e
      rw [e] at hm
      simp at hm
    · simp only [hc, Bool.false_eq_true, if_false] at hu
      have hm : 2 ^ w + (reciprocal (w + l + 1) d).toNat = 2 ^ (w + l + 1) / d.toNat + 1 := by
        simp only [reciprocal, wdiv, BitVec.toNat_ofNat]
        generalize 2 ^ (w + l + 1) / d.toNat + 1 = M at *
        have : M % 2 ^ w = M - 2 ^ w := by
          rw [Nat.mod_eq_sub_mod (by omega), Nat.mod_eq_of_lt (by rw [pow_succ] at hB; omega)]
        omega
      refine ⟨_, _, _, _, hlw, hu, by simp, fun _ => ⟨?_, hp', hlt, hl2, by simp, fun _ => hm, by simp⟩⟩
      intro e
      rw [e] at hm
      simp at hm
      omega

/-- What `SGEN` can answer: a power of two with the sentinel, or a reciprocal of the magnitude whose top bit is `ADD`
(41_generate.md R126, R129). -/
theorem sgen_spec (hw : 2 ≤ w) (va : Variant) {d : BitVec w} (h : d.toNat ≠ 0) :
   ∃ (m : BitVec w) (l : Nat) (add pow2 : Bool), l < w ∧ sgen va d = ⟨m, makeCtl l add d.msb pow2⟩ ∧
    (pow2 = true → m = 0 ∧ add = false ∧ d.toInt.natAbs = 2 ^ l) ∧
    (pow2 = false → m ≠ 0 ∧ ¬ (∃ k, d.toInt.natAbs = 2 ^ k) ∧ (va = .branchfree → add = true) ∧ add = m.msb ∧
       2 ^ (w - 1) * (d.toInt.natAbs - 2 ^ (w + l) % d.toInt.natAbs) < 2 ^ (w + l) ∧ m.toNat = 2 ^ (w + l) / d.toInt.natAbs + 1) := by
  have h' : (uabs d).toNat ≠ 0 := by
    rw [toNat_uabs]
    intro e
    apply h
    have : d.toInt = 0 := by omega
    have : d = 0 := by apply BitVec.eq_of_toInt_eq; simpa using this
    simp [this]
  have hle := toNat_uabs_le d
  have hu : sgen va d = sgen va d := rfl
  conv at hu => rhs; unfold sgen
  dsimp only at hu
  rw [← toNat_uabs]
  generalize uabs d = a at *
  have hl1 := flog2_le h'
  have hl2 := lt_flog2 a
  have hlw := flog2_lt h'
  generalize flog2 a = l at *
  by_cases hp : ispow2 a = true
  · simp only [hp, if_true] at hu
    obtain ⟨k, hk⟩ := ispow2_iff.mp hp
    have hkl : k = l := exponent_unique hl1 hl2 hk
    subst hkl
    exact ⟨_, _, _, _, hlw, hu, by simp [hk], by simp⟩
  · have hp' := hp
    rw [ispow2_iff] at hp'
    simp only [hp] at hu
    have hlt : 2 ^ l < a.toNat := lt_of_le_of_ne hl1 (fun e => hp' ⟨l, e.symm⟩)
    have hl0 : 1 ≤ l := by
      by_contra hc
      have : l = 0 := by omega
      subst this
      omega
    have hlw2 : l + 1 < w := by
      have : l < w - 1 := (Nat.pow_lt_pow_iff_right (a := 2) (by norm_num)).mp (lt_of_lt_of_le hlt hle)
      omega
    have hs := reciprocal_lt (w := w - 1) hlt (by omega) (.inl hl0)
    have hB := reciprocal_lt (w := w) hlt (by omega) (.inl hl0)
    have hA := le_reciprocal (w := w - 1) (by omega : 0 < a.toNat) hl2
    have ew : w - 1 + l + 1 = w + l := by omega
    have ew2 : w + (l - 1) = w - 1 + l := by omega
    have ep : 2 ^ w = 2 * 2 ^ (w - 1) := by rw [← pow_succ']; congr 1; omega
    rw [ew] at hA
    by_cases hc : va = .branchfull ∧ roundingError (w - 1 + l) a < 2 ^ l
    · simp only [hc] at hu
      simp only [roundingError, wdiv] at hc
      simp only [hc.1, Bool.false_eq_true, if_false, if_true, and_self] at hu ⊢
      have hm : (reciprocal (w - 1 + l) a).toNat = 2 ^ (w - 1 + l) / a.toNat + 1 := by
        have : 2 ^ (w - 1 + l) / a.toNat + 1 < 2 ^ w := by omega
        simp [reciprocal, wdiv, Nat.mod_eq_of_lt this]
      refine ⟨_, l - 1, _, _, by omega, hu, by simp, fun _ => ⟨?_, hp', by simp, ?_, ?_, ?_⟩⟩
      · intro e
        rw [e] at hm
        simp at hm
      · rw [BitVec.msb_eq_decide, hm]
        simp
        omega
      · rw [ew2]
        have := Nat.mul_lt_mul_of_pos_left hc.2 (Nat.two_pow_pos (w - 1))
        rwa [← Nat.pow_add] at this
      · rw [hm, ew2]
    · simp only [hc, Bool.false_eq_true, if_false] at hu
      have hm : (reciprocal (w + l) a).toNat = 2 ^ (w + l) / a.toNat + 1 := by
        simp [reciprocal, wdiv, Nat.mod_eq_of_lt hB]
      refine ⟨_, _, _, _, hlw, by rw [hu], by simp, fun _ => ⟨?_, hp', by simp, ?_, ?_, hm⟩⟩
      · intro e
        rw [e] at hm
        simp at hm
      · rw [BitVec.msb_eq_decide, hm]
        simp
        omega
      · have : a.toNat - 2 ^ (w + l) % a.toNat < 2 ^ (l + 1) := by omega
        have e : 2 ^ (w + l) = 2 ^ (w - 1) * 2 ^ (l + 1) := by rw [← Nat.pow_add]; congr 1; omega
        calc _ < 2 ^ (w - 1) * 2 ^ (l + 1) := Nat.mul_lt_mul_of_pos_left this (by positivity)
          _ = _ := e.symm

end Sys2Proof.Machine
end

