-- ==== Sys2Proof/Laws/Image.lean ====
section
/-! SUPPORT. What the byte images of values and groups hold. -/

namespace Sys2Proof.Machine

section Value
variable {n : Nat} (x : BitVec n)

/-- A byte that the value fills holds bits of the value only. -/
theorem imageByte_whole {k : Nat} (h : 8 * k + 8 ≤ n) : imageByte x k = x.extractLsb' (8 * k) 8 := if_pos h

/-- Every bit of the value stands at its place in the image, whatever the padding is. -/
theorem getLsbD_imageByte {k j : Nat} (hj : j < 8) (h : 8 * k + j < n) :
    (imageByte x k).getLsbD j = x.getLsbD (8 * k + j) := by
  have hp : ¬ n - 8 * k ≤ j := by omega
  unfold imageByte
  split <;> simp [hj]
  omega

@[simp] theorem length_byteImage : (byteImage x).length = (n + 7) / 8 := by simp [byteImage]

theorem getElem?_byteImage {k : Nat} (h : k < (n + 7) / 8) : (byteImage x)[k]? = some (imageByte x k) := by
  simp [byteImage, h]

theorem toNat_ofByteImage (bs : List Byte) : (ofByteImage n bs).toNat = packNat bs % 2 ^ n := BitVec.toNat_ofNat ..

end Value

section Grouped
variable (v : Vlen)

@[simp] theorem length_groupImage (g : Group) : (groupImage v g).length = v.bits / 8 := by
  cases v <;> simp [groupImage, Vlen.bits]

@[simp] theorem length_ofGroupImage (bs : List Byte) : (ofGroupImage v bs).length = v.words := length_groupOfValue ..

/-- A group of the unit's own length is a `VLEN_BITS`-bit value (30_encoding.md R68). -/
theorem groupValue_lt {g : Group} (h : g.length = v.words) : groupValue g < 2 ^ v.bits := by
  rw [← words_mul, ← h]
  exact packNat_lt g

/-- A group of the unit's own length is the group of its value: the other direction of `groupValue_groupOfValue`. -/
theorem groupOfValue_groupValue {g : Group} (h : g.length = v.words) : groupOfValue v (groupValue g) = g := by
  refine List.ext_getElem (by simp [h]) fun i h1 h2 => ?_
  apply BitVec.eq_of_toNat_eq
  simpa [groupOfValue, groupValue, Nat.shiftRight_eq_div_pow] using packNat_digit g i h2

end Grouped

end Sys2Proof.Machine
end

