-- ==== Sys2Proof/Laws/PerInstr.lean ====
section
/-! SUPPORT. Statements about each operation as syntax, one lemma a constructor. -/

namespace Sys2Proof.Laws

/-- The word the encoder writes is read back as the operation's own four fields (30_encoding.md R60, R61). -/
def OperationWord.Statement (i : Instr) : Prop := readOpFields (encode i).opw = .ok i.fields

theorem OperationWord.genU32 (d : BitVec 32) :
    OperationWord.Statement (.genU32 d) := by
  simp [OperationWord.Statement]

theorem OperationWord.stratU32 (dv : Divider 32 .unsigned .branchfull) :
    OperationWord.Statement (.stratU32 dv) := by
  simp [OperationWord.Statement]

theorem OperationWord.divU32 (dv : Divider 32 .unsigned .branchfull) (n : BitVec 32) :
    OperationWord.Statement (.divU32 dv n) := by
  simp [OperationWord.Statement]

theorem OperationWord.vdivU32 (dv : Divider 32 .unsigned .branchfull) (nv : Group) :
    OperationWord.Statement (.vdivU32 dv nv) := by
  simp [OperationWord.Statement]

theorem OperationWord.genU64 (d : BitVec 64) :
    OperationWord.Statement (.genU64 d) := by
  simp [OperationWord.Statement]

theorem OperationWord.stratU64 (dv : Divider 64 .unsigned .branchfull) :
    OperationWord.Statement (.stratU64 dv) := by
  simp [OperationWord.Statement]

theorem OperationWord.divU64 (dv : Divider 64 .unsigned .branchfull) (n : BitVec 64) :
    OperationWord.Statement (.divU64 dv n) := by
  simp [OperationWord.Statement]

theorem OperationWord.vdivU64 (dv : Divider 64 .unsigned .branchfull) (nv : Group) :
    OperationWord.Statement (.vdivU64 dv nv) := by
  simp [OperationWord.Statement]

theorem OperationWord.genS32 (d : BitVec 32) :
    OperationWord.Statement (.genS32 d) := by
  simp [OperationWord.Statement]

theorem OperationWord.stratS32 (dv : Divider 32 .signed .branchfull) :
    OperationWord.Statement (.stratS32 dv) := by
  simp [OperationWord.Statement]

theorem OperationWord.divS32 (dv : Divider 32 .signed .branchfull) (n : BitVec 32) :
    OperationWord.Statement (.divS32 dv n) := by
  simp [OperationWord.Statement]

theorem OperationWord.vdivS32 (dv : Divider 32 .signed .branchfull) (nv : Group) :
    OperationWord.Statement (.vdivS32 dv nv) := by
  simp [OperationWord.Statement]

theorem OperationWord.genS64 (d : BitVec 64) :
    OperationWord.Statement (.genS64 d) := by
  simp [OperationWord.Statement]

theorem OperationWord.stratS64 (dv : Divider 64 .signed .branchfull) :
    OperationWord.Statement (.stratS64 dv) := by
  simp [OperationWord.Statement]

theorem OperationWord.divS64 (dv : Divider 64 .signed .branchfull) (n : BitVec 64) :
    OperationWord.Statement (.divS64 dv n) := by
  simp [OperationWord.Statement]

theorem OperationWord.vdivS64 (dv : Divider 64 .signed .branchfull) (nv : Group) :
    OperationWord.Statement (.vdivS64 dv nv) := by
  simp [OperationWord.Statement]

theorem OperationWord.genU32Bf (d : BitVec 32) :
    OperationWord.Statement (.genU32Bf d) := by
  simp [OperationWord.Statement]

theorem OperationWord.stratU32Bf (dv : Divider 32 .unsigned .branchfree) :
    OperationWord.Statement (.stratU32Bf dv) := by
  simp [OperationWord.Statement]

theorem OperationWord.divU32Bf (dv : Divider 32 .unsigned .branchfree) (n : BitVec 32) :
    OperationWord.Statement (.divU32Bf dv n) := by
  simp [OperationWord.Statement]

theorem OperationWord.vdivU32Bf (dv : Divider 32 .unsigned .branchfree) (nv : Group) :
    OperationWord.Statement (.vdivU32Bf dv nv) := by
  simp [OperationWord.Statement]

theorem OperationWord.genU64Bf (d : BitVec 64) :
    OperationWord.Statement (.genU64Bf d) := by
  simp [OperationWord.Statement]

theorem OperationWord.stratU64Bf (dv : Divider 64 .unsigned .branchfree) :
    OperationWord.Statement (.stratU64Bf dv) := by
  simp [OperationWord.Statement]

theorem OperationWord.divU64Bf (dv : Divider 64 .unsigned .branchfree) (n : BitVec 64) :
    OperationWord.Statement (.divU64Bf dv n) := by
  simp [OperationWord.Statement]

theorem OperationWord.vdivU64Bf (dv : Divider 64 .unsigned .branchfree) (nv : Group) :
    OperationWord.Statement (.vdivU64Bf dv nv) := by
  simp [OperationWord.Statement]

theorem OperationWord.genS32Bf (d : BitVec 32) :
    OperationWord.Statement (.genS32Bf d) := by
  simp [OperationWord.Statement]

theorem OperationWord.stratS32Bf (dv : Divider 32 .signed .branchfree) :
    OperationWord.Statement (.stratS32Bf dv) := by
  simp [OperationWord.Statement]

theorem OperationWord.divS32Bf (dv : Divider 32 .signed .branchfree) (n : BitVec 32) :
    OperationWord.Statement (.divS32Bf dv n) := by
  simp [OperationWord.Statement]

theorem OperationWord.vdivS32Bf (dv : Divider 32 .signed .branchfree) (nv : Group) :
    OperationWord.Statement (.vdivS32Bf dv nv) := by
  simp [OperationWord.Statement]

theorem OperationWord.genS64Bf (d : BitVec 64) :
    OperationWord.Statement (.genS64Bf d) := by
  simp [OperationWord.Statement]

theorem OperationWord.stratS64Bf (dv : Divider 64 .signed .branchfree) :
    OperationWord.Statement (.stratS64Bf dv) := by
  simp [OperationWord.Statement]

theorem OperationWord.divS64Bf (dv : Divider 64 .signed .branchfree) (n : BitVec 64) :
    OperationWord.Statement (.divS64Bf dv n) := by
  simp [OperationWord.Statement]

theorem OperationWord.vdivS64Bf (dv : Divider 64 .signed .branchfree) (nv : Group) :
    OperationWord.Statement (.vdivS64Bf dv nv) := by
  simp [OperationWord.Statement]

end Sys2Proof.Laws
end

