-- ==== Sys2Proof/Tests/Slice0.lean ====
section
/-! SUPPORT. Tests of the model on fixed values, and for each statement with hypotheses a case that meets them. Expected values come
from spec/95_test_vectors.md and spec/96_test_vectors_div.md, or are written out from the rule named. -/

open Sys2Proof Sys2Proof.Machine Sys2Proof.Safety

namespace Sys2Proof.Tests

/-- What a unit fresh from reset answers to one operation. -/
def oneAnswer (v : Vlen) (i : Instr) : List Response := responsesOf (exec i (State.resetWith v))

/-- A unit of 128 bits that waits for one request. -/
def waiting (q : Request) : State := (State.resetWith .v128).issue q

/-! WellFormed: one ill-formed term for each check. -/

theorem test_group_of_wrong_length_refused :
    Instr.wellFormed .v128 (.vdivU32 ⟨1, 0⟩ [1]) = false ∧ Instr.wellFormed .v256 (.vdivS64Bf ⟨1, 0⟩ [1, 2]) = false ∧
      Instr.wellFormed .v128 (.vdivU32 ⟨1, 0⟩ [1, 2]) = true := by decide

theorem test_frame_with_reserved_bit_refused :
    ({ emptyFrame 0x20 with d := 7 } : Request).reservedClear = false ∧ (emptyFrame 0x20).wellFormed .v128 = false := by decide

theorem test_frame_with_wrong_divisor_refused :
    ({ emptyFrame 0x01 with d := 7 } : Request).divisorFits = false ∧
      ({ emptyFrame 0x00 with d := 0x100000007 } : Request).divisorFits = false ∧
      ({ emptyFrame 0x04 with d := 0x100000007 } : Request).wellFormed .v128 = true := by decide

theorem test_frame_with_wrong_divider_refused :
    ({ emptyFrame 0x00 with magic := 7 } : Request).dividerFits = false ∧
      ({ emptyFrame 0x00 with ctl := 1 } : Request).dividerFits = false ∧
      ({ emptyFrame 0x01 with magic := 0x100000000 } : Request).dividerFits = false := by decide

theorem test_frame_with_wrong_numerator_refused :
    ({ emptyFrame 0x03 with n := 7, nv := [0, 0] } : Request).numeratorFits = false ∧
      ({ emptyFrame 0x02 with n := 0x100000000 } : Request).numeratorFits = false := by decide

theorem test_frame_with_wrong_group_refused :
    ({ emptyFrame 0x02 with nv := [0, 0] } : Request).groupLaneFits .v128 = false ∧
      ({ emptyFrame 0x03 with nv := [0] } : Request).groupLaneFits .v128 = false := by decide

/-- The Divider of 7 (41_generate.md R130), which meets every check below. -/
theorem test_divider_of_seven_accepted : (⟨0x24924925, 0x0042⟩ : Divider 32 .unsigned .branchfull).wellFormed = true := by decide

theorem test_shift_out_of_range_refused : (⟨0x24924925, 0x0060⟩ : Divider 32 .unsigned .branchfull).shiftInRange = false := by decide

theorem test_sentinel_without_flag_refused :
    (⟨0, 0x0003⟩ : Divider 32 .unsigned .branchfull).pow2IsSentinel = false ∧
      (⟨5, 0x0103⟩ : Divider 32 .unsigned .branchfull).pow2IsSentinel = false := by decide

theorem test_power_with_add_refused : (⟨0, 0x0143⟩ : Divider 32 .unsigned .branchfull).pow2ExcludesAdd = false := by decide

theorem test_unsigned_with_neg_refused : (⟨0, 0x0183⟩ : Divider 32 .unsigned .branchfull).unsignedNegClear = false := by decide

theorem test_branchfree_without_add_refused :
    (⟨0xCCCCCCCD, 0x0003⟩ : Divider 32 .unsigned .branchfree).branchfreeAdd = false := by decide

theorem test_signed_add_not_top_bit_refused :
    (⟨0x66666667, 0x0041⟩ : Divider 32 .signed .branchfull).signedAddIsTopBit = false := by decide

theorem test_divider_with_reserved_bit_refused :
    (⟨0x24924925, 0x0242⟩ : Divider 32 .unsigned .branchfull).reservedClear = false ∧
      (⟨0x24924925, 0x0062⟩ : Divider 32 .unsigned .branchfull).reservedClear = false := by decide

/-! Decode: words written out bit by bit from 30_encoding.md R60 (reserved 000, `BF`, `SGN`, `W64`, `FUNC`). -/

theorem test_decode_gen :
    decode .v128 { emptyFrame 0b00000000 with d := 0x8000000F } = .ok (.genU32 0x8000000F) ∧
    decode .v128 { emptyFrame 0b00000100 with d := 0x800000000000000F } = .ok (.genU64 0x800000000000000F) ∧
    decode .v128 { emptyFrame 0b00001000 with d := 0x8000000F } = .ok (.genS32 0x8000000F) ∧
    decode .v128 { emptyFrame 0b00001100 with d := 0x800000000000000F } = .ok (.genS64 0x800000000000000F) ∧
    decode .v128 { emptyFrame 0b00010000 with d := 0x8000000F } = .ok (.genU32Bf 0x8000000F) ∧
    decode .v128 { emptyFrame 0b00010100 with d := 0x800000000000000F } = .ok (.genU64Bf 0x800000000000000F) ∧
    decode .v128 { emptyFrame 0b00011000 with d := 0x8000000F } = .ok (.genS32Bf 0x8000000F) ∧
    decode .v128 { emptyFrame 0b00011100 with d := 0x800000000000000F } = .ok (.genS64Bf 0x800000000000000F) := by decide

theorem test_decode_strat :
    decode .v128 { emptyFrame 0b00000001 with magic := 0x8000000F, ctl := 0xFF42 } = .ok (.stratU32 ⟨0x8000000F, 0xFF42⟩) ∧
    decode .v128 { emptyFrame 0b00000101 with magic := 0x800000000000000F, ctl := 0xFF42 } = .ok (.stratU64 ⟨0x800000000000000F, 0xFF42⟩) ∧
    decode .v128 { emptyFrame 0b00001001 with magic := 0x8000000F, ctl := 0xFF42 } = .ok (.stratS32 ⟨0x8000000F, 0xFF42⟩) ∧
    decode .v128 { emptyFrame 0b00001101 with magic := 0x800000000000000F, ctl := 0xFF42 } = .ok (.stratS64 ⟨0x800000000000000F, 0xFF42⟩) ∧
    decode .v128 { emptyFrame 0b00010001 with magic := 0x8000000F, ctl := 0xFF42 } = .ok (.stratU32Bf ⟨0x8000000F, 0xFF42⟩) ∧
    decode .v128 { emptyFrame 0b00010101 with magic := 0x800000000000000F, ctl := 0xFF42 } = .ok (.stratU64Bf ⟨0x800000000000000F, 0xFF42⟩) ∧
    decode .v128 { emptyFrame 0b00011001 with magic := 0x8000000F, ctl := 0xFF42 } = .ok (.stratS32Bf ⟨0x8000000F, 0xFF42⟩) ∧
    decode .v128 { emptyFrame 0b00011101 with magic := 0x800000000000000F, ctl := 0xFF42 } = .ok (.stratS64Bf ⟨0x800000000000000F, 0xFF42⟩) := by decide

theorem test_decode_div :
    decode .v128 { emptyFrame 0b00000010 with magic := 0x8000000F, ctl := 0xFF42, n := 9 } =
      .ok (.divU32 ⟨0x8000000F, 0xFF42⟩ 9) ∧
    decode .v128 { emptyFrame 0b00000110 with magic := 0x800000000000000F, ctl := 0xFF42, n := 9 } =
      .ok (.divU64 ⟨0x800000000000000F, 0xFF42⟩ 9) ∧
    decode .v128 { emptyFrame 0b00001010 with magic := 0x8000000F, ctl := 0xFF42, n := 9 } =
      .ok (.divS32 ⟨0x8000000F, 0xFF42⟩ 9) ∧
    decode .v128 { emptyFrame 0b00001110 with magic := 0x800000000000000F, ctl := 0xFF42, n := 9 } =
      .ok (.divS64 ⟨0x800000000000000F, 0xFF42⟩ 9) ∧
    decode .v128 { emptyFrame 0b00010010 with magic := 0x8000000F, ctl := 0xFF42, n := 9 } =
      .ok (.divU32Bf ⟨0x8000000F, 0xFF42⟩ 9) ∧
    decode .v128 { emptyFrame 0b00010110 with magic := 0x800000000000000F, ctl := 0xFF42, n := 9 } =
      .ok (.divU64Bf ⟨0x800000000000000F, 0xFF42⟩ 9) ∧
    decode .v128 { emptyFrame 0b00011010 with magic := 0x8000000F, ctl := 0xFF42, n := 9 } =
      .ok (.divS32Bf ⟨0x8000000F, 0xFF42⟩ 9) ∧
    decode .v128 { emptyFrame 0b00011110 with magic := 0x800000000000000F, ctl := 0xFF42, n := 9 } =
      .ok (.divS64Bf ⟨0x800000000000000F, 0xFF42⟩ 9) := by decide

theorem test_decode_vdiv :
    decode .v128 { emptyFrame 0b00000011 with magic := 0x8000000F, ctl := 0xFF42, nv := [5, 6] } =
      .ok (.vdivU32 ⟨0x8000000F, 0xFF42⟩ [5, 6]) ∧
    decode .v128 { emptyFrame 0b00000111 with magic := 0x800000000000000F, ctl := 0xFF42, nv := [5, 6] } =
      .ok (.vdivU64 ⟨0x800000000000000F, 0xFF42⟩ [5, 6]) ∧
    decode .v128 { emptyFrame 0b00001011 with magic := 0x8000000F, ctl := 0xFF42, nv := [5, 6] } =
      .ok (.vdivS32 ⟨0x8000000F, 0xFF42⟩ [5, 6]) ∧
    decode .v128 { emptyFrame 0b00001111 with magic := 0x800000000000000F, ctl := 0xFF42, nv := [5, 6] } =
      .ok (.vdivS64 ⟨0x800000000000000F, 0xFF42⟩ [5, 6]) ∧
    decode .v128 { emptyFrame 0b00010011 with magic := 0x8000000F, ctl := 0xFF42, nv := [5, 6] } =
      .ok (.vdivU32Bf ⟨0x8000000F, 0xFF42⟩ [5, 6]) ∧
    decode .v128 { emptyFrame 0b00010111 with magic := 0x800000000000000F, ctl := 0xFF42, nv := [5, 6] } =
      .ok (.vdivU64Bf ⟨0x800000000000000F, 0xFF42⟩ [5, 6]) ∧
    decode .v128 { emptyFrame 0b00011011 with magic := 0x8000000F, ctl := 0xFF42, nv := [5, 6] } =
      .ok (.vdivS32Bf ⟨0x8000000F, 0xFF42⟩ [5, 6]) ∧
    decode .v128 { emptyFrame 0b00011111 with magic := 0x800000000000000F, ctl := 0xFF42, nv := [5, 6] } =
      .ok (.vdivS64Bf ⟨0x800000000000000F, 0xFF42⟩ [5, 6]) := by decide

theorem test_decode_illegal :
    decode .v128 (emptyFrame 0x20) = .error .illegalOperation ∧ decode .v512 (emptyFrame 0xFF) = .error .illegalOperation := by decide

/-- At `W = 32` the upper half of an operand lane is not read; a group lane with too few words reads as zero above and one with too
many is read up to `VLEN_BITS` (entries 3 and 5). -/
theorem test_decode_lanes :
    decode .v128 { emptyFrame 0x00 with d := 0xFFFFFFFF00000007 } = .ok (.genU32 7) ∧
      decode .v128 { emptyFrame 0x03 with nv := [5] } = .ok (.vdivU32 ⟨0, 0⟩ [5, 0]) ∧
      decode .v128 { emptyFrame 0x03 with nv := [5, 6, 7] } = .ok (.vdivU32 ⟨0, 0⟩ [5, 6]) := by decide

/-- The two functions the host calls, on the first and the last row of the table. -/
theorem test_table_words :
    decodeTableWord 8 0x00 = some (.genU32 0) ∧ decodeTableWord 8 0x1F = some (.vdivS64Bf ⟨0, 0⟩ [0, 0]) ∧
      decodeTableWord 8 0x20 = none := by decide

theorem test_step_runs_a_table_word :
    responsesOf (step (State.reset.withFetchWord 8 0x08)) = [.raised .divisorZero] ∧
      responsesOf (step (State.reset.withFetchWord 8 0x0F)) = [.ok (.group [0, 0])] ∧
      responsesOf (step (State.reset.withFetchWord 8 0x60)) = [.raised .illegalOperation] := by decide

/-! GEN: vectors of 95_test_vectors.md section 3.1. -/

theorem test_gen_u32_seven :
    oneAnswer .v128 (.genU32 0x7) = [.ok (.divider 32 .unsigned .branchfull ⟨0x24924925, 0x0042⟩)] := by decide

theorem test_gen_u32_top_power_plus_one :
    oneAnswer .v128 (.genU32 0x80000001) =
    [.ok (.divider 32 .unsigned .branchfull ⟨0xFFFFFFFF, 0x001F⟩)] := by decide

theorem test_gen_u64_seven :
    oneAnswer .v128 (.genU64 0x7) =
    [.ok (.divider 64 .unsigned .branchfull ⟨0x2492492492492493, 0x0042⟩)] := by decide

theorem test_gen_u64_top_power_plus_one :
    oneAnswer .v128 (.genU64 0x8000000000000001) =
    [.ok (.divider 64 .unsigned .branchfull ⟨0xFFFFFFFFFFFFFFFF, 0x003F⟩)] := by decide

theorem test_gen_s32_minus_nine :
    oneAnswer .v128 (.genS32 0xFFFFFFF7) = [.ok (.divider 32 .signed .branchfull ⟨0x71C71C72, 0x0082⟩)] := by decide

theorem test_gen_s32_most_negative :
    oneAnswer .v128 (.genS32 0x80000000) = [.ok (.divider 32 .signed .branchfull ⟨0x0, 0x019F⟩)] := by decide

theorem test_gen_s64_minus_nine :
    oneAnswer .v128 (.genS64 0xFFFFFFFFFFFFFFF7) =
    [.ok (.divider 64 .signed .branchfull ⟨0xE38E38E38E38E38F, 0x00C3⟩)] := by decide

theorem test_gen_s64_most_negative :
    oneAnswer .v128 (.genS64 0x8000000000000000) =
    [.ok (.divider 64 .signed .branchfull ⟨0x0, 0x01BF⟩)] := by decide

theorem test_gen_u32_bf_six_hundred_forty_one :
    oneAnswer .v128 (.genU32Bf 0x281) = [.ok (.divider 32 .unsigned .branchfree ⟨0x98F603FF, 0x0049⟩)] := by decide

theorem test_gen_u32_bf_one :
    oneAnswer .v128 (.genU32Bf 0x1) = [.raised .divisorOneBranchfree] := by decide

theorem test_gen_u64_bf_six_hundred_forty_one :
    oneAnswer .v128 (.genU64Bf 0x281) =
    [.ok (.divider 64 .unsigned .branchfree ⟨0x98F603FE6709FC02, 0x0049⟩)] := by decide

theorem test_gen_u64_bf_one :
    oneAnswer .v128 (.genU64Bf 0x1) = [.raised .divisorOneBranchfree] := by decide

theorem test_gen_s32_bf_minus_nine :
    oneAnswer .v128 (.genS32Bf 0xFFFFFFF7) =
    [.ok (.divider 32 .signed .branchfree ⟨0xE38E38E4, 0x00C3⟩)] := by decide

theorem test_gen_s32_bf_most_negative :
    oneAnswer .v128 (.genS32Bf 0x80000000) = [.ok (.divider 32 .signed .branchfree ⟨0x0, 0x019F⟩)] := by decide

theorem test_gen_s64_bf_minus_nine :
    oneAnswer .v128 (.genS64Bf 0xFFFFFFFFFFFFFFF7) =
    [.ok (.divider 64 .signed .branchfree ⟨0xE38E38E38E38E38F, 0x00C3⟩)] := by decide

theorem test_gen_s64_bf_most_negative :
    oneAnswer .v128 (.genS64Bf 0x8000000000000000) =
    [.ok (.divider 64 .signed .branchfree ⟨0x0, 0x01BF⟩)] := by decide

/-! STRAT: vectors of 95_test_vectors.md section 3.2. -/

theorem test_strat_u32_power_before_add :
    oneAnswer .v128 (.stratU32 ⟨0x3039, 0x0140⟩) = [.ok (.strategy 0)] := by decide

theorem test_strat_u32_reserved_bits :
    oneAnswer .v128 (.stratU32 ⟨0x3039, 0xFE40⟩) = [.ok (.strategy 2)] := by decide

theorem test_strat_u64_power_before_add :
    oneAnswer .v128 (.stratU64 ⟨0x3039, 0x0140⟩) = [.ok (.strategy 0)] := by decide

theorem test_strat_u64_reserved_bits :
    oneAnswer .v128 (.stratU64 ⟨0x3039, 0xFE40⟩) = [.ok (.strategy 2)] := by decide

theorem test_strat_s32_power_before_add :
    oneAnswer .v128 (.stratS32 ⟨0x3039, 0x0140⟩) = [.ok (.strategy 0)] := by decide

theorem test_strat_s32_reserved_bits :
    oneAnswer .v128 (.stratS32 ⟨0x3039, 0xFE40⟩) = [.ok (.strategy 2)] := by decide

theorem test_strat_s64_power_before_add :
    oneAnswer .v128 (.stratS64 ⟨0x3039, 0x0140⟩) = [.ok (.strategy 0)] := by decide

theorem test_strat_s64_reserved_bits :
    oneAnswer .v128 (.stratS64 ⟨0x3039, 0xFE40⟩) = [.ok (.strategy 2)] := by decide

theorem test_strat_u32_bf_power_before_add :
    oneAnswer .v128 (.stratU32Bf ⟨0x3039, 0x0140⟩) = [.ok (.strategy 0)] := by decide

theorem test_strat_u32_bf_reserved_bits :
    oneAnswer .v128 (.stratU32Bf ⟨0x3039, 0xFE40⟩) = [.ok (.strategy 2)] := by decide

theorem test_strat_u64_bf_power_before_add :
    oneAnswer .v128 (.stratU64Bf ⟨0x3039, 0x0140⟩) = [.ok (.strategy 0)] := by decide

theorem test_strat_u64_bf_reserved_bits :
    oneAnswer .v128 (.stratU64Bf ⟨0x3039, 0xFE40⟩) = [.ok (.strategy 2)] := by decide

theorem test_strat_s32_bf_power_before_add :
    oneAnswer .v128 (.stratS32Bf ⟨0x3039, 0x0140⟩) = [.ok (.strategy 0)] := by decide

theorem test_strat_s32_bf_reserved_bits :
    oneAnswer .v128 (.stratS32Bf ⟨0x3039, 0xFE40⟩) = [.ok (.strategy 2)] := by decide

theorem test_strat_s64_bf_power_before_add :
    oneAnswer .v128 (.stratS64Bf ⟨0x3039, 0x0140⟩) = [.ok (.strategy 0)] := by decide

theorem test_strat_s64_bf_reserved_bits :
    oneAnswer .v128 (.stratS64Bf ⟨0x3039, 0xFE40⟩) = [.ok (.strategy 2)] := by decide

/-! DIV: vectors of 96_test_vectors_div.md section 3.3. -/

theorem test_div_u32_by_641 :
    oneAnswer .v128 (.divU32 ⟨0x98F603FF, 0x0049⟩ 0xFFFFFFFF) = [.ok (.quotient 32 0x663D80)] := by decide

theorem test_div_u32_by_largest :
    oneAnswer .v128 (.divU32 ⟨0x80000001, 0x001F⟩ 0xFFFFFFFF) = [.ok (.quotient 32 0x1)] := by decide

theorem test_div_u64_by_641 :
    oneAnswer .v128 (.divU64 ⟨0xCC7B01FF3384FE01, 0x0009⟩ 0xFFFFFFFFFFFFFFFF) =
    [.ok (.quotient 64 0x663D80FF99C27F)] := by decide

theorem test_div_u64_by_largest :
    oneAnswer .v128 (.divU64 ⟨0x8000000000000001, 0x003F⟩ 0xFFFFFFFFFFFFFFFF) =
    [.ok (.quotient 64 0x1)] := by decide

theorem test_div_s32_minus_fifty_by_minus_seven :
    oneAnswer .v128 (.divS32 ⟨0x92492493, 0x00C2⟩ 0xFFFFFFCE) = [.ok (.quotient 32 0x7)] := by decide

theorem test_div_s32_most_negative_by_minus_one :
    oneAnswer .v128 (.divS32 ⟨0x0, 0x0180⟩ 0x80000000) = [.ok (.quotient 32 0x80000000)] := by decide

theorem test_div_s64_minus_fifty_by_minus_seven :
    oneAnswer .v128 (.divS64 ⟨0x4924924924924925, 0x0081⟩ 0xFFFFFFFFFFFFFFCE) =
    [.ok (.quotient 64 0x7)] := by decide

theorem test_div_s64_most_negative_by_minus_one :
    oneAnswer .v128 (.divS64 ⟨0x0, 0x0180⟩ 0x8000000000000000) =
    [.ok (.quotient 64 0x8000000000000000)] := by decide

theorem test_div_u32_bf_by_641 :
    oneAnswer .v128 (.divU32Bf ⟨0x98F603FF, 0x0049⟩ 0xFFFFFFFF) = [.ok (.quotient 32 0x663D80)] := by decide

theorem test_div_u32_bf_by_largest :
    oneAnswer .v128 (.divU32Bf ⟨0x2, 0x005F⟩ 0xFFFFFFFF) = [.ok (.quotient 32 0x1)] := by decide

theorem test_div_u64_bf_by_641 :
    oneAnswer .v128 (.divU64Bf ⟨0x98F603FE6709FC02, 0x0049⟩ 0xFFFFFFFFFFFFFFFF) =
    [.ok (.quotient 64 0x663D80FF99C27F)] := by decide

theorem test_div_u64_bf_by_largest :
    oneAnswer .v128 (.divU64Bf ⟨0x2, 0x007F⟩ 0xFFFFFFFFFFFFFFFF) = [.ok (.quotient 64 0x1)] := by decide

theorem test_div_s32_bf_minus_fifty_by_minus_seven :
    oneAnswer .v128 (.divS32Bf ⟨0x92492493, 0x00C2⟩ 0xFFFFFFCE) = [.ok (.quotient 32 0x7)] := by decide

theorem test_div_s32_bf_most_negative_by_minus_one :
    oneAnswer .v128 (.divS32Bf ⟨0x0, 0x0180⟩ 0x80000000) = [.ok (.quotient 32 0x80000000)] := by decide

theorem test_div_s64_bf_minus_fifty_by_minus_seven :
    oneAnswer .v128 (.divS64Bf ⟨0x924924924924924A, 0x00C2⟩ 0xFFFFFFFFFFFFFFCE) =
    [.ok (.quotient 64 0x7)] := by decide

theorem test_div_s64_bf_most_negative_by_minus_one :
    oneAnswer .v128 (.divS64Bf ⟨0x0, 0x0180⟩ 0x8000000000000000) =
    [.ok (.quotient 64 0x8000000000000000)] := by decide

/-! VDIV: groups of 96_test_vectors_div.md section 3.4. -/

theorem test_vdiv_u32_first_vector :
    oneAnswer .v128 (.vdivU32 ⟨0x24924925, 0x0042⟩ [0x600000000, 0xFFFFFFFF00000007]) =
    [.ok (.group [0x0, 0x2492492400000001])] := by decide

theorem test_vdiv_u32_last_vector :
    oneAnswer .v128 (.vdivU32 ⟨0x80000001, 0x001F⟩ [0xFFFFFFFEFFFFFFFF, 0x100000000]) =
    [.ok (.group [0x1, 0x0])] := by decide

theorem test_vdiv_u64_first_vector :
    oneAnswer .v128 (.vdivU64 ⟨0xCCCCCCCCCCCCCCCD, 0x0003⟩ [0x63, 0xFFFFFFFFFFFFFFFF]) =
    [.ok (.group [0x9, 0x1999999999999999])] := by decide

theorem test_vdiv_u64_last_vector :
    oneAnswer .v256 (.vdivU64 ⟨0xFFFFFFFFFFFFFFFF, 0x003F⟩ [0x8000000000000000, 0x8000000000000001, 0xFFFFFFFFFFFFFFFF, 0x0]) =
    [.ok (.group [0x0, 0x1, 0x1, 0x0])] := by decide

theorem test_vdiv_s32_first_vector :
    oneAnswer .v128 (.vdivS32 ⟨0x92492493, 0x00C2⟩ [0x32FFFFFFCE, 0xFFFFFFF900000006]) =
    [.ok (.group [0xFFFFFFF900000007, 0x100000000])] := by decide

theorem test_vdiv_s32_last_vector :
    oneAnswer .v128 (.vdivS32 ⟨0x40000001, 0x001D⟩ [0x800000017FFFFFFF, 0x7FFFFFFE80000000]) =
    [.ok (.group [0xFFFFFFFF00000001, 0xFFFFFFFF])] := by decide

theorem test_vdiv_s64_first_vector :
    oneAnswer .v128 (.vdivS64 ⟨0xAAAAAAAAAAAAAAAB, 0x00C1⟩ [0x9, 0xFFFFFFFFFFFFFFF7]) =
    [.ok (.group [0xFFFFFFFFFFFFFFFD, 0x3])] := by decide

theorem test_vdiv_s64_last_vector :
    oneAnswer .v256 (.vdivS64 ⟨0x4924924924924925, 0x0001⟩ [0xFFFFFFFFFFFFFFCE, 0x32, 0x8000000000000000, 0x7FFFFFFFFFFFFFFF]) =
    [.ok (.group [0xFFFFFFFFFFFFFFF9, 0x7, 0xEDB6DB6DB6DB6DB7, 0x1249249249249249])] := by decide

theorem test_vdiv_u32_bf_first_vector :
    oneAnswer .v128 (.vdivU32Bf ⟨0x55555556, 0x0041⟩ [0x20000000A, 0xFFFFFFFF00000003]) =
    [.ok (.group [0x3, 0x5555555500000001])] := by decide

theorem test_vdiv_u32_bf_last_vector :
    oneAnswer .v128 (.vdivU32Bf ⟨0xFFFFFFFD, 0x005F⟩ [0x8000000180000000, 0xFFFFFFFF]) =
    [.ok (.group [0x100000000, 0x1])] := by decide

theorem test_vdiv_u64_bf_first_vector :
    oneAnswer .v128 (.vdivU64Bf ⟨0x999999999999999A, 0x0043⟩ [0x63, 0x64]) = [.ok (.group [0x9, 0xA])] := by decide

theorem test_vdiv_u64_bf_last_vector :
    oneAnswer .v256 (.vdivU64Bf ⟨0x98F603FE6709FC02, 0x0049⟩ [0x280, 0x281, 0xFFFFFFFFFFFFFFFF, 0x100000000]) =
    [.ok (.group [0x0, 0x1, 0x663D80FF99C27F, 0x663D80])] := by decide

theorem test_vdiv_s32_bf_first_vector :
    oneAnswer .v128 (.vdivS32Bf ⟨0xCCCCCCCD, 0x0042⟩ [0xDFFFFFFF3, 0x4FFFFFFFB]) =
    [.ok (.group [0x2FFFFFFFE, 0xFFFFFFFF])] := by decide

theorem test_vdiv_s32_bf_last_vector :
    oneAnswer .v128 (.vdivS32Bf ⟨0x0, 0x019F⟩ [0x8000000180000000, 0xFFFFFFFF7FFFFFFF]) =
    [.ok (.group [0x1, 0x0])] := by decide

theorem test_vdiv_s64_bf_first_vector :
    oneAnswer .v128 (.vdivS64Bf ⟨0xCCCCCCCCCCCCCCCD, 0x00C3⟩ [0x5F, 0xFFFFFFFFFFFFFFA1]) =
    [.ok (.group [0xFFFFFFFFFFFFFFF7, 0x9])] := by decide

theorem test_vdiv_s64_bf_last_vector :
    oneAnswer .v256 (.vdivS64Bf ⟨0xCC7B01FF3384FE01, 0x0049⟩ [0xFFFFFFFFFFFFFD7F, 0xFFFFFFFFFFFFFD80, 0x8000000000000000, 0x7FFFFFFFFFFFFFFF]) =
    [.ok (.group [0xFFFFFFFFFFFFFFFF, 0x0, 0xFFCCE13F80331EC1, 0x331EC07FCCE13F])] := by decide

/-! Dividers that the matching GEN did not produce: 96_test_vectors_div.md section 3.3, 70_reset_and_hazards.md R274. -/

theorem test_divider_of_three_used_branchfree :
    oneAnswer .v128 (.divU32Bf (Divider.rekind (⟨0xAAAAAAAB, 0x0001⟩ : Divider 32 .unsigned .branchfull)) 10) =
      [.ok (.quotient 32 4)] := by decide

theorem test_altered_dividers :
    oneAnswer .v128 (.divU32 ⟨0x24924925, 0xFE42⟩ 0xFFFFFFFF) = [.ok (.quotient 32 0x24924924)] ∧
      oneAnswer .v128 (.divU32 ⟨0x24924925, 0x0062⟩ 0xFFFFFFFF) = [.ok (.quotient 32 0x24924924)] ∧
      oneAnswer .v128 (.divU32 ⟨0x24924925, 0x0142⟩ 0xFFFFFFFF) = [.ok (.quotient 32 0x3FFFFFFF)] ∧
      oneAnswer .v128 (.divU32 ⟨0xDEADBEEF, 0x0103⟩ 100) = [.ok (.quotient 32 12)] := by decide

theorem test_all_zero_divider :
    oneAnswer .v128 (.divS32 ⟨0, 0⟩ 12345) = [.ok (.quotient 32 0)] ∧
      oneAnswer .v128 (.divS32Bf ⟨0, 0⟩ 12345) = [.ok (.quotient 32 12345)] := by decide

/-! The high multiply from halves: two lanes of 96_test_vectors_div.md section 3.4. -/

theorem test_high_multiply_all_ones :
    mulhuFromHalves 0xFFFFFFFFFFFFFFFF 0xFFFFFFFFFFFFFFFF = 0xFFFFFFFFFFFFFFFE ∧
      mulhsFromHalves 0xFFFFFFFFFFFFFFFF 0xFFFFFFFFFFFFFFFF = 0 := by decide

theorem test_high_multiply_mixed_signs :
    mulhuFromHalves 0x6666666666666667 0xFFFFFFFFFFFFFF9C = 0x666666666666663E ∧
      mulhsFromHalves 0x6666666666666667 0xFFFFFFFFFFFFFF9C = 0xFFFFFFFFFFFFFFD7 := by decide

/-! Packed and stored forms: 30_encoding.md R65, 20_memory.md R43. -/

theorem test_packed_divider :
    packDesc (⟨0x24924925, 0x0042⟩ : Divider 32 .unsigned .branchfull) = 0x004224924925 ∧
      byteImage (packDesc (⟨0x24924925, 0x0042⟩ : Divider 32 .unsigned .branchfull)) =
        [0x25, 0x49, 0x92, 0x24, 0x42, 0x00] := by decide

/-- Lane 0 of a group at the lowest address, at both widths. -/
theorem test_group_image :
    groupImage .v128 [0x0000000700000001, 0x8000000000000002] = [1, 0, 0, 0, 7, 0, 0, 0, 2, 0, 0, 0, 0, 0, 0, 0x80] ∧
      ofGroupImage .v128 [1, 0, 0, 0, 7, 0, 0, 0, 2, 0, 0, 0, 0, 0, 0, 0x80] = [0x0000000700000001, 0x8000000000000002] := by decide

/-- A 2-bit status takes one byte, and is read back whatever the six bits of padding are (entry 18). -/
theorem test_status_image :
    (byteImage (Response.status (.raised .divisorOneBranchfree))).length = 1 ∧
      ofByteImage 2 [0b00000010] = 0b10 ∧ ofByteImage 2 [0b10110110] = 0b10 := by decide

/-! For each statement with hypotheses, a case that meets all of them; where it has several clauses, one for each at a boundary. -/

theorem test_witness_DecodeEncodeRoundTrip : Instr.wellFormed .v512 (.vdivS64Bf ⟨1, 0xFFFF⟩ [1, 2, 3, 4, 5, 6, 7, 8]) = true := by
  decide

theorem test_witness_EncodeDecodeRoundTrip :
    Request.wellFormed .v128 { emptyFrame 0x0A with magic := 7, ctl := 0x42, n := 0xFFFFFFFF } = true ∧
      decode .v128 { emptyFrame 0x0A with magic := 7, ctl := 0x42, n := 0xFFFFFFFF } = .ok (.divS32 ⟨7, 0x42⟩ 0xFFFFFFFF) := by
  decide

theorem test_witness_DecodedOperationIsWellFormed :
    decode .v256 { emptyFrame 0x03 with nv := [9] } = .ok (.vdivU32 ⟨0, 0⟩ [9, 0, 0, 0]) := by decide

theorem test_witness_OperationTable :
    (emptyFrame 0x1F).opw.toNat < 32 ∧ decode .v128 (emptyFrame 0x1E) = .ok (.divS64Bf ⟨0, 0⟩ 0) := by decide

theorem test_witness_StepRunsTheDecodedOperation :
    (waiting { emptyFrame 0x00 with d := 7 }).requests = { emptyFrame 0x00 with d := 7 } :: [] ∧
      decode (waiting { emptyFrame 0x00 with d := 7 }).vlen { emptyFrame 0x00 with d := 7 } = .ok (.genU32 7) := by decide

theorem test_witness_IllegalWordIsAnsweredUnexamined :
    (waiting (emptyFrame 0x20)).requests = emptyFrame 0x20 :: [] ∧ (emptyFrame 0x20).opw.extractLsb' 5 3 ≠ 0 := by decide

theorem test_witness_StepWithoutRequestChangesNothing : State.reset.requests = [] := by decide

/-- One answered request, and one waiting. -/
def answeredAndWaiting : State :=
  { vlen := .v128, requests := [{ emptyFrame 0x00 with d := 7 }], taken := [{ emptyFrame 0x00 with d := 3 }],
    responses := [.ok (.divider 32 .unsigned .branchfull ⟨0xAAAAAAAB, 0x0001⟩)] }

theorem test_witness_EveryStepKeepsResponsesBelong :
    ResponsesBelong answeredAndWaiting ∧ ∃ t, step answeredAndWaiting = .next t ∧ t.responses.length = 2 :=
  ⟨.cons (by decide) .nil, _, rfl, by decide⟩

theorem test_witness_EveryStepKeepsDividersWellFormed :
    DividersWellFormed answeredAndWaiting ∧ ∃ t, step answeredAndWaiting = .next t ∧ t.responses.length = 2 :=
  ⟨by unfold DividersWellFormed; decide, _, rfl, by decide⟩

theorem test_witness_ResponseDependsOnTheRequestAlone :
    answeredAndWaiting.vlen = (waiting { emptyFrame 0x00 with d := 7 }).vlen ∧
      answeredAndWaiting.requests = { emptyFrame 0x00 with d := 7 } :: [] ∧
      (waiting { emptyFrame 0x00 with d := 7 }).requests = { emptyFrame 0x00 with d := 7 } :: [] := by decide

theorem test_witness_ReorderedRequestsGetTheSameResponses :
    ((waiting (emptyFrame 0x00)).issue (emptyFrame 0x01)).vlen = ((waiting (emptyFrame 0x01)).issue (emptyFrame 0x00)).vlen ∧
      ((waiting (emptyFrame 0x00)).issue (emptyFrame 0x01)).requests.Perm
        ((waiting (emptyFrame 0x01)).issue (emptyFrame 0x00)).requests := by decide

theorem test_witness_ViolationLeavesEveryOtherRequestAlone :
    freshResponses .v128 (emptyFrame 0x00) = [.raised .divisorZero] ∧
      freshResponses .v128 { emptyFrame 0x10 with d := 1 } = [.raised .divisorOneBranchfree] ∧
      freshResponses .v128 (emptyFrame 0xFF) = [.raised .illegalOperation] := by decide

/-- A legal word whose `FUNC` is not VDIV, and an illegal one whose `FUNC` is VDIV. -/
theorem test_witness_OnlyBatchedOperationsDependOnVlen :
    (emptyFrame 0x1E).opw.extractLsb' 0 2 ≠ 3 ∧ (emptyFrame 0x1E).opw.extractLsb' 5 3 = 0 ∧
      (emptyFrame 0x23).opw.extractLsb' 0 2 = 3 ∧ (emptyFrame 0x23).opw.extractLsb' 5 3 ≠ 0 ∧
      step State.reset = .next State.reset := ⟨by decide, by decide, by decide, by decide, rfl⟩

theorem test_witness_ApplicationNeverFails :
    (waiting (emptyFrame 0x1F)).requests = emptyFrame 0x1F :: [] ∧ (emptyFrame 0x1F).opw.extractLsb' 5 3 = 0 ∧
      (emptyFrame 0x1F).opw.extractLsb' 0 2 ≠ 0 ∧ (emptyFrame 0x01).opw.extractLsb' 0 2 ≠ 0 := by decide

/-- `L = 0` and `L = W - 1` for the unsigned statements O21 and O22, with the zero divisor of the first clause. -/
theorem test_witness_GenU_AnswersItsDivider :
    (0 : BitVec 32).toNat = 0 ∧ 2 ^ 0 ≤ (1 : BitVec 32).toNat ∧ (1 : BitVec 32).toNat < 2 ^ (0 + 1) ∧
      2 ^ 31 ≤ (0xFFFFFFFF : BitVec 32).toNat ∧ (0xFFFFFFFF : BitVec 32).toNat < 2 ^ (31 + 1) ∧
      2 ^ 63 ≤ (0x8000000000000000 : BitVec 64).toNat ∧ (0x8000000000000000 : BitVec 64).toNat < 2 ^ (63 + 1) := by decide

/-- `L = 1` and `L = W - 1` for the branchfree statements O25 and O26, with the divisors 0 and 1 of the first clauses. -/
theorem test_witness_GenUBf_AnswersItsDivider :
    (0 : BitVec 64).toNat = 0 ∧ (1 : BitVec 32).toNat = 1 ∧ (1 : BitVec 64).toNat = 1 ∧
      1 ≤ 1 ∧ 2 ^ 1 ≤ (2 : BitVec 32).toNat ∧ (2 : BitVec 32).toNat < 2 ^ (1 + 1) ∧
      2 ^ 63 ≤ (0xFFFFFFFFFFFFFFFF : BitVec 64).toNat ∧ (0xFFFFFFFFFFFFFFFF : BitVec 64).toNat < 2 ^ (63 + 1) := by decide

/-- `L = 0` (both 1 and -1) and `L = W - 1` (the most negative divisor) for the signed statements O23, O24, O27 and O28. -/
theorem test_witness_GenS_AnswersItsDivider :
    2 ^ 0 ≤ (0xFFFFFFFF : BitVec 32).toInt.natAbs ∧ (0xFFFFFFFF : BitVec 32).toInt.natAbs < 2 ^ (0 + 1) ∧
      2 ^ 31 ≤ (0x80000000 : BitVec 32).toInt.natAbs ∧ (0x80000000 : BitVec 32).toInt.natAbs < 2 ^ (31 + 1) ∧
      2 ^ 0 ≤ (1 : BitVec 64).toInt.natAbs ∧ (1 : BitVec 64).toInt.natAbs < 2 ^ (0 + 1) ∧
      2 ^ 63 ≤ (0x8000000000000000 : BitVec 64).toInt.natAbs ∧ (0x8000000000000000 : BitVec 64).toInt.natAbs < 2 ^ (63 + 1) := by
  decide

/-- The divisors of O29, O30, O38 to O41 and of the second half of O45: the smallest and the largest pattern that is not refused. -/
theorem test_witness_GeneratedDividers :
    (1 : BitVec 32).toNat ≠ 0 ∧ (0xFFFFFFFFFFFFFFFF : BitVec 64).toNat ≠ 0 ∧ (2 : BitVec 32).toNat ≠ 0 ∧ (2 : BitVec 32).toNat ≠ 1 ∧
      (0x8000000000000000 : BitVec 64).toNat ≠ 0 ∧ (0x8000000000000000 : BitVec 64).toNat ≠ 1 := by decide

theorem test_witness_NegatedDivisorChangesOnlyNeg :
    (7 : BitVec 32) ≠ 0 ∧ (7 : BitVec 32) ≠ BitVec.intMin 32 ∧ (0x7FFFFFFFFFFFFFFF : BitVec 64) ≠ 0 ∧
      (0x7FFFFFFFFFFFFFFF : BitVec 64) ≠ BitVec.intMin 64 := by decide

/-- The inner conditions of O35: `POW2` set, `POW2` clear, and `ADD` equal to the top bit of `magic`. -/
theorem test_witness_SignedBranchfullQuotient :
    (0x019F : Ctl).getLsbD 8 = true ∧ (0x0042 : Ctl).getLsbD 8 = false ∧
      (0x0042 : Ctl).getLsbD 6 = (0x92492493 : BitVec 32).msb ∧ (0x0001 : Ctl).getLsbD 6 = (0x66666667 : BitVec 32).msb := by decide

/-- Two different `ctl` that agree on the bits of each mask of O37, and `POW2` set for its last clauses. -/
theorem test_witness_BitsNotReadDoNotMatter :
    ((0xFEE2 : Ctl) ≠ 0x0042 ∧ (0xFEE2 : Ctl) &&& 0x015F = (0x0042 : Ctl) &&& 0x015F) ∧
      (0xFEC2 : Ctl) &&& 0x017F = (0x0042 : Ctl) &&& 0x017F ∧ (0xFE62 : Ctl) &&& 0x01DF = (0x0042 : Ctl) &&& 0x01DF ∧
      (0xFE42 : Ctl) &&& 0x01FF = (0x0042 : Ctl) &&& 0x01FF ∧ (0xFFE2 : Ctl) &&& 0x001F = (0x0042 : Ctl) &&& 0x001F ∧
      (0xFFC2 : Ctl) &&& 0x003F = (0x0042 : Ctl) &&& 0x003F ∧ (0xFE22 : Ctl) &&& 0x019F = (0x0042 : Ctl) &&& 0x019F ∧
      (0xFE02 : Ctl) &&& 0x01BF = (0x0042 : Ctl) &&& 0x01BF ∧ (0xFEBF : Ctl) &&& 0x0140 = (0x0000 : Ctl) &&& 0x0140 ∧
      (0x0143 : Ctl).getLsbD 8 = true ∧ (0xFEE3 + 0x0100 : Ctl) &&& 0x011F = (0x0143 : Ctl) &&& 0x011F ∧
      (0x01C3 : Ctl) &&& 0x013F = (0x0143 : Ctl) &&& 0x013F ∧ (0x0123 : Ctl) &&& 0x019F = (0x0143 : Ctl) &&& 0x019F ∧
      (0xFF03 : Ctl) &&& 0x01BF = (0x0143 : Ctl) &&& 0x01BF := by decide

/-- A divisor that is not a power of two, for O42. -/
theorem test_witness_UnsignedMagicIsAnExactReciprocal :
    (7 : BitVec 32).toNat ≠ 0 ∧ ∀ m : Nat, (7 : BitVec 32).toNat ≠ 2 ^ m := by
  refine ⟨by decide, fun m h => ?_⟩
  have h3 : m < 3 := (Nat.pow_lt_pow_iff_right (a := 2) (by decide)).mp (by rw [← h]; decide)
  interval_cases m <;> exact absurd h (by decide)

/-- A negative divisor whose magnitude is not a power of two, and the first and last numerator, for O43. -/
theorem test_witness_SignedMagicIsAnExactReciprocal :
    (0xFFFFFFF9 : BitVec 32).toNat ≠ 0 ∧ (∀ m : Nat, (0xFFFFFFF9 : BitVec 32).toInt.natAbs ≠ 2 ^ m) ∧
      (-2 ^ 31 ≤ (-2 ^ 31 : Int) ∧ (-2 ^ 31 : Int) < 2 ^ 31) ∧ (-2 ^ 63 ≤ (2 ^ 63 - 1 : Int) ∧ (2 ^ 63 - 1 : Int) < 2 ^ 63) := by
  refine ⟨by decide, fun m h => ?_, by decide, by decide⟩
  have h3 : m < 3 := (Nat.pow_lt_pow_iff_right (a := 2) (by decide)).mp (by rw [← h]; decide)
  interval_cases m <;> exact absurd h (by decide)

/-- The last lane of a group in each width, and a divisor, for O45. -/
theorem test_witness_GroupDivisionIsScalarDivisionLaneByLane :
    3 < (waiting (emptyFrame 0x03)).vlen.bits / 32 ∧ 1 < (waiting (emptyFrame 0x03)).vlen.bits / 64 ∧
      (7 : BitVec 32).toNat ≠ 0 ∧ (7 : BitVec 64).toNat ≠ 0 ∧ (7 : BitVec 32).toNat ≠ 1 ∧ (7 : BitVec 64).toNat ≠ 1 := by decide

/-- Two different groups whose values agree modulo `2^128`, for O46. -/
theorem test_witness_GroupResultHoldsItsLanesOnly :
    ([1, 2, 3] : Group) ≠ [1, 2] ∧
      groupValue [1, 2, 3] % 2 ^ (State.resetWith .v128).vlen.bits = groupValue [1, 2] % 2 ^ (State.resetWith .v128).vlen.bits := by
  decide

/-- Lane 1 of one group and the last lane of another, in units of different `VLEN_BITS`, for O47. -/
theorem test_witness_LanesAreIndependentOfEachOtherAndOfVlen :
    1 < (State.resetWith .v128).vlen.bits / 32 ∧ 7 < (State.resetWith .v256).vlen.bits / 32 ∧
      lane 32 1 [0x500000009, 1] = lane 32 7 [0, 0, 0, 0x500000001] ∧
      1 < (State.resetWith .v128).vlen.bits / 64 ∧ 7 < (State.resetWith .v512).vlen.bits / 64 ∧
      lane 64 1 [9, 5] = lane 64 7 [0, 0, 0, 0, 0, 0, 0, 5] := by decide

/-- A multiplier with its top bit set and one without, for O48. -/
theorem test_witness_MixedSignHighMultiply :
    (0x80000000 : BitVec 32).msb = true ∧ (0x7FFFFFFF : BitVec 32).msb = false ∧
      (0x8000000000000000 : BitVec 64).msb = true ∧ (0x7FFFFFFFFFFFFFFF : BitVec 64).msb = false := by decide

/-- The halves of two operands, for the second part of O49. -/
theorem test_witness_HighMultiplyFromHalvesIsExact :
    0xFFFFFFFF = (0xFFFFFFFFFFFFFFFF : BitVec 64).toNat % 2 ^ 32 ∧ 0xFFFFFFFF = (0xFFFFFFFFFFFFFFFF : BitVec 64).toNat / 2 ^ 32 ∧
      0xFFFFFFFE = 0xFFFFFFFF * 0xFFFFFFFF / 2 ^ 32 ∧ 0xFFFFFFFEFFFFFFFF = 0xFFFFFFFF * 0xFFFFFFFF + 0xFFFFFFFE := by decide

/-- A nonzero value and the largest power of two of each width, for O51. -/
theorem test_witness_PowerOfTwoTestIsOneBitSet :
    (6 : BitVec 32) ≠ 0 ∧ 31 < 32 ∧ (0x80000000 : BitVec 32).toNat = 2 ^ 31 ∧ 63 < 64 ∧
      (0x8000000000000000 : BitVec 64).toNat = 2 ^ 63 := by decide

theorem test_witness_DoublingGivesTheLargerPower : (32 = 32 ∨ 32 = 64) ∧ (7 : BitVec 32).toNat ≠ 0 ∧ (1 : BitVec 64).toNat ≠ 0 := by
  decide

/-- A divisor for O53, and its corner. -/
theorem test_witness_ReferenceSignedDivisionTruncates :
    (0xFFFFFFFF : BitVec 32).toInt ≠ 0 ∧ (0xFFFFFFFF : BitVec 32).toInt = -1 ∧ (0x80000000 : BitVec 32).toInt = -2 ^ (32 - 1) := by
  decide

/-- For O56: the last byte of a packed Divider, and the top bit of a 2-bit code. -/
theorem test_witness_ByteImageIsLittleEndian :
    8 * 9 + 8 ≤ 64 + 16 ∧ (∃ b : Byte, (byteImage (0b10 : BitVec 2))[0]? = some b) ∧ 1 < 8 ∧ 8 * 0 + 1 < 2 :=
  ⟨by decide, ⟨_, rfl⟩, by decide, by decide⟩

/-- For O58: the last byte and the last lane of the largest group, at both widths. -/
theorem test_witness_GroupImageStartsWithLaneZero :
    63 < Vlen.v512.bits / 8 ∧ 15 < Vlen.v512.bits / 32 ∧ 7 < Vlen.v512.bits / 64 ∧
      [1, 2, 3, 4, 5, 6, 7, (8 : BitVec 64)].length = Vlen.v512.bits / 64 := by decide

/-- The widths of O48, O51 to O56 and O58. -/
theorem test_witness_widths : (32 = 32 ∨ 32 = 64) ∧ (64 = 32 ∨ 64 = 64) := by decide

end Sys2Proof.Tests
end

section
/-! PROOFS. The group divisions: what each VDIV answers, as the scalar division of its kind on every lane (44_batched_divide.md R200,
R203), and the independence of the lanes. -/

namespace Sys2Proof.Machine

theorem exec_vdivU32 (dv : Divider 32 .unsigned .branchfull) (nv : Group) (s : State) :
    exec (.vdivU32 dv nv) s = .next (answerGroup (mapLanes s.vlen (divU dv) nv) s) := by
  rw [← vdivU_eq]; rfl

theorem exec_vdivU64 (dv : Divider 64 .unsigned .branchfull) (nv : Group) (s : State) :
    exec (.vdivU64 dv nv) s = .next (answerGroup (mapLanes s.vlen (divU dv) nv) s) := by
  rw [← vdivU_eq]; rfl

theorem exec_vdivS32 (dv : Divider 32 .signed .branchfull) (nv : Group) (s : State) :
    exec (.vdivS32 dv nv) s = .next (answerGroup (mapLanes s.vlen (divS dv) nv) s) := by
  rw [← vdivS_eq (by decide)]; rfl

theorem exec_vdivS64 (dv : Divider 64 .signed .branchfull) (nv : Group) (s : State) :
    exec (.vdivS64 dv nv) s = .next (answerGroup (mapLanes s.vlen (divS dv) nv) s) := by
  rw [← vdivS_eq (by decide)]; rfl

theorem exec_vdivU32Bf (dv : Divider 32 .unsigned .branchfree) (nv : Group) (s : State) :
    exec (.vdivU32Bf dv nv) s = .next (answerGroup (mapLanes s.vlen (divUBf dv) nv) s) := by
  rw [← vdivUBf_eq]; rfl

theorem exec_vdivU64Bf (dv : Divider 64 .unsigned .branchfree) (nv : Group) (s : State) :
    exec (.vdivU64Bf dv nv) s = .next (answerGroup (mapLanes s.vlen (divUBf dv) nv) s) := by
  rw [← vdivUBf_eq]; rfl

theorem exec_vdivS32Bf (dv : Divider 32 .signed .branchfree) (nv : Group) (s : State) :
    exec (.vdivS32Bf dv nv) s = .next (answerGroup (mapLanes s.vlen (divSBf dv) nv) s) := by
  rw [← vdivSBf_eq]; rfl

theorem exec_vdivS64Bf (dv : Divider 64 .signed .branchfree) (nv : Group) (s : State) :
    exec (.vdivS64Bf dv nv) s = .next (answerGroup (mapLanes s.vlen (divSBf dv) nv) s) := by
  rw [← vdivSBf_eq]; rfl

/-- Equal lanes give equal lanes, whatever their positions and the two units' `VLEN_BITS`: one function acts on each lane alone
(44_batched_divide.md R203). -/
theorem lane_mapLanes_eq_of_lane_eq {w : Nat} (f : BitVec w → BitVec w) {u v : Vlen} {nv mv : Group} {i j : Nat}
    (hi : i < u.lanes w) (hj : j < v.lanes w) (h : lane w i nv = lane w j mv) :
    lane w i (mapLanes u f nv) = lane w j (mapLanes v f mv) := by
  rw [lane_mapLanes u f nv hi, lane_mapLanes v f mv hj, h]

/-- An operation that answers with one function of every lane of its group keeps the lanes independent of each other and of
`VLEN_BITS`. -/
theorem lanes_independent_of_exec_eq_mapLanes {w : Nat} {op : Group → Instr} {f : BitVec w → BitVec w}
    (hop : ∀ nv s, exec (op nv) s = .next (answerGroup (mapLanes s.vlen f nv) s)) (nv mv : Group) (s t : State) :
    ∃ qv pv : Group,
      exec (op nv) s = .next { s with responses := s.responses ++ [.ok (.group qv)] } ∧
      exec (op mv) t = .next { t with responses := t.responses ++ [.ok (.group pv)] } ∧
      ∀ i j : Nat, i < s.vlen.bits / w → j < t.vlen.bits / w → lane w i nv = lane w j mv → lane w i qv = lane w j pv :=
  ⟨mapLanes s.vlen f nv, mapLanes t.vlen f mv, hop nv s, hop mv t,
    fun _ _ hi hj h => lane_mapLanes_eq_of_lane_eq f hi hj h⟩

/-- Settles O47: every VDIV is the scalar division of its kind mapped over the lanes, so its lanes are independent. -/
theorem lanesAreIndependentOfEachOtherAndOfVlen : Obligations.LanesAreIndependentOfEachOtherAndOfVlen :=
  ⟨fun dv => lanes_independent_of_exec_eq_mapLanes (exec_vdivU32 dv),
    fun dv => lanes_independent_of_exec_eq_mapLanes (exec_vdivU64 dv),
    fun dv => lanes_independent_of_exec_eq_mapLanes (exec_vdivS32 dv),
    fun dv => lanes_independent_of_exec_eq_mapLanes (exec_vdivS64 dv),
    fun dv => lanes_independent_of_exec_eq_mapLanes (exec_vdivU32Bf dv),
    fun dv => lanes_independent_of_exec_eq_mapLanes (exec_vdivU64Bf dv),
    fun dv => lanes_independent_of_exec_eq_mapLanes (exec_vdivS32Bf dv),
    fun dv => lanes_independent_of_exec_eq_mapLanes (exec_vdivS64Bf dv)⟩

end Sys2Proof.Machine
end

section
/-! PROOFS. One step of the unit: what it does with and without a request, what its response depends on, and the runs made of such
steps (10_state.md section 1, 20_memory.md R48, 60_exceptions.md R236, R243). -/

namespace Sys2Proof.Machine

open Sys2Proof.Safety

theorem step_of_no_request {s : State} (h : s.requests = []) : step s = .next s := by
  simp only [step, State.takeRequest, h]

/-- A legal operation word: the operation runs on the state that has taken its request. -/
theorem step_of_decode_ok {s : State} {q : Request} {rest : List Request} {i : Instr} (hq : s.requests = q :: rest)
    (hd : decode s.vlen q = .ok i) : step s = exec i { s with requests := rest, taken := s.taken ++ [q] } := by
  simp only [step, State.takeRequest, hq, readRequest, hd]

/-- An illegal operation word: the violation is the response, and no operation runs (60_exceptions.md R233). -/
theorem step_of_decode_error {s : State} {q : Request} {rest : List Request} {e : Reject} (hq : s.requests = q :: rest)
    (hd : decode s.vlen q = .error e) :
    step s = .next { s with
      requests := rest, taken := s.taken ++ [q], responses := s.responses ++ [.raised (violationOf e)] } := by
  simp only [step, State.takeRequest, hq, readRequest, hd]
  rfl

/-- A unit that has a request gives the response of a fresh unit asked for nothing else. -/
theorem step_answers_fresh (v : Vlen) (q : Request) :
    ∃ r, freshResponses v q = [r] ∧ ∀ (s : State) (rest : List Request), s.vlen = v → s.requests = q :: rest →
      step s = .next { s with requests := rest, taken := s.taken ++ [q], responses := s.responses ++ [r] } := by
  obtain ⟨r, hr⟩ := step_answers q v
  refine ⟨r, ?_, hr⟩
  rw [freshResponses, hr ((State.resetWith v).issue q) [] rfl rfl]
  rfl

/-- The inversion of a step: nothing was asked and nothing changes, or the first request gets its fresh unit's response. -/
theorem step_eq_next_cases {s t : State} (h : step s = .next t) :
    (s.requests = [] ∧ t = s) ∨
    ∃ q rest r, s.requests = q :: rest ∧ freshResponses s.vlen q = [r] ∧
      t = { s with requests := rest, taken := s.taken ++ [q], responses := s.responses ++ [r] } := by
  cases hq : s.requests with
  | nil =>
    rw [step_of_no_request hq] at h
    cases h
    exact .inl ⟨rfl, rfl⟩
  | cons q rest =>
    obtain ⟨r, hf, hr⟩ := step_answers_fresh s.vlen q
    rw [hr s rest rfl hq] at h
    cases h
    exact .inr ⟨q, rest, r, rfl, hf, rfl⟩

theorem step_vlen {s t : State} (h : step s = .next t) : t.vlen = s.vlen := by
  obtain ⟨-, rfl⟩ | ⟨q, rest, r, -, -, rfl⟩ := step_eq_next_cases h <;> rfl

/-- Settles O10: the response added is the fresh unit's, and it is added at the place of its request. -/
theorem everyStepKeepsResponsesBelong : Obligations.EveryStepKeepsResponsesBelong := by
  intro s t hs h
  obtain ⟨-, rfl⟩ | ⟨q, rest, r, -, hr, rfl⟩ := step_eq_next_cases h
  · exact hs
  · exact List.rel_append hs (.cons hr .nil)

/-- Settles O13: one response serves every state with the same `VLEN_BITS`. -/
theorem responseDependsOnTheRequestAlone : Obligations.ResponseDependsOnTheRequestAlone := by
  intro s t q rs rt hv hs ht
  obtain ⟨r, hr⟩ := step_answers q s.vlen
  exact ⟨r, hr s rs rfl hs, hr t rt hv.symm ht⟩

/-- Settles O7: the branch of `step` for a legal word. -/
theorem stepRunsTheDecodedOperation : Obligations.StepRunsTheDecodedOperation :=
  fun _ _ _ _ hq hd => step_of_decode_ok hq hd

theorem core_run_succ {M : Host.Core} {s t : M.State} (h : M.step s = .next t) (k : Nat) : M.run (k + 1) s = M.run k t := by
  rw [Host.Core.run, h]

theorem run_succ_of_step {s t : State} (h : step s = .next t) (k : Nat) :
    Host.Core.run Sys2Proof.core (k + 1) s = Host.Core.run Sys2Proof.core k t := core_run_succ h k

/-- A run as long as the list of requests answers each as a fresh unit would: the first by one step, the others by the run from
the state that step leads to. -/
theorem run_answers_requests (qs : List Request) (s : State) (hs : s.requests = qs) :
    ∃ rs : List Response,
      Host.Core.run Sys2Proof.core qs.length s =
        .next { s with requests := [], taken := s.taken ++ qs, responses := s.responses ++ rs } ∧
      List.Forall₂ (fun q r => freshResponses s.vlen q = [r]) qs rs := by
  induction qs generalizing s with
  | nil =>
    cases s
    cases hs
    refine ⟨[], ?_, .nil⟩
    simp only [List.append_nil]
    rfl
  | cons q rest ih =>
    obtain ⟨r, hf, hr⟩ := step_answers_fresh s.vlen q
    obtain ⟨rs, hrun, hrs⟩ := ih { s with requests := rest, taken := s.taken ++ [q], responses := s.responses ++ [r] } rfl
    refine ⟨r :: rs, ?_, .cons hf hrs⟩
    rw [List.length_cons, run_succ_of_step (hr s rest rfl hs), hrun]
    simp only [List.append_assoc, List.singleton_append]

/-- Settles O14: the run over all the requests that wait. -/
theorem runAnswersEveryRequestAlone : Obligations.RunAnswersEveryRequestAlone :=
  fun s => run_answers_requests s.requests s rfl

end Sys2Proof.Machine
end

section
/-! PROOFS. What decoding and running an operation take from `VLEN_BITS`: a group operand its width, a VDIV its lanes, and nothing
else (30_encoding.md R62, R68; 70_reset_and_hazards.md R262). -/

namespace Sys2Proof

theorem assemble_wellFormed (v : Vlen) (f : OpFields) (q : Request) : (assemble v f q).wellFormed v = true := by
  obtain ⟨func, w64, sgn, bf⟩ := f
  cases func with
  | gen | strat | div => cases w64 <;> cases sgn <;> cases bf <;> rfl
  | vdiv => cases w64 <;> cases sgn <;> cases bf <;> exact groupFits_group v q

/-- The four fields that name an operation are that operation's fields. -/
theorem fields_assemble (v : Vlen) (f : OpFields) (q : Request) : (assemble v f q).fields = f := by
  obtain ⟨func, w64, sgn, bf⟩ := f
  cases func <;> cases w64 <;> cases sgn <;> cases bf <;> rfl

/-- Only the group operand of a VDIV is cut to the unit's width. -/
theorem assemble_eq_of_ne_vdiv (v v' : Vlen) {f : OpFields} (q : Request) (h : f.func ≠ .vdiv) :
    assemble v f q = assemble v' f q := by
  obtain ⟨func, w64, sgn, bf⟩ := f
  cases func with
  | gen | strat | div => cases w64 <;> cases sgn <;> cases bf <;> rfl
  | vdiv => exact absurd rfl h

theorem exists_assemble_of_decode_ok {v : Vlen} {q : Request} {i : Instr} (h : decode v q = .ok i) :
    ∃ f, readOpFields q.opw = .ok f ∧ i = assemble v f q := by
  unfold decode at h
  cases hf : readOpFields q.opw with
  | error e => simp [hf] at h
  | ok f =>
    simp only [hf, Except.ok.injEq] at h
    exact ⟨f, rfl, h.symm⟩

theorem decode_of_legal {q : Request} (h : q.opw.extractLsb' 5 3 = 0) :
    ∃ f : OpFields, f.func = Func.ofBits (q.opw.extractLsb' 0 2) ∧ ∀ v, decode v q = .ok (assemble v f q) :=
  ⟨⟨_, q.opw.getLsbD 2, q.opw.getLsbD 3, q.opw.getLsbD 4⟩, rfl, fun v => by simp only [decode, readOpFields, h]; rfl⟩

theorem Func.ofBits_eq_vdiv_iff (b : BitVec 2) : Func.ofBits b = .vdiv ↔ b = 3 := by
  revert b
  decide

end Sys2Proof

namespace Sys2Proof.Machine

open Sys2Proof.Safety

/-- Settles O3: an operation that is decoded was assembled from the frame, and only a group could have another width. -/
theorem decodedOperationIsWellFormed : Obligations.DecodedOperationIsWellFormed := by
  intro v q i h
  obtain ⟨f, -, rfl⟩ := exists_assemble_of_decode_ok h
  exact assemble_wellFormed v f q

/-- Every operation but VDIV answers the same whatever `VLEN_BITS` is. -/
theorem exec_answers_of_ne_vdiv {i : Instr} (h : i.fields.func ≠ .vdiv) :
    ∃ r, ∀ s : State, exec i s = .next (s.answer r) := by
  have gen {w : Nat} {sg : Signedness} {va : Variant} (g : BitVec w → Divider w sg va) (d : BitVec w) :
      ∃ r, ∀ s : State, (.next (generate g d s) : Host.Outcome State Fault Refusal) = .next (s.answer r) :=
    let ⟨r, hr⟩ := generate_answers g d
    ⟨r, fun s => congrArg _ (hr s)⟩
  cases i with
  | genU32 d | genU64 d | genS32 d | genS64 d | genU32Bf d | genU64Bf d | genS32Bf d | genS64Bf d => exact gen _ d
  | vdivU32 | vdivU64 | vdivS32 | vdivS64 | vdivU32Bf | vdivU64Bf | vdivS32Bf | vdivS64Bf => exact absurd rfl h
  | _ => exact ⟨_, fun _ => rfl⟩

theorem freshResponses_of_decode_ok {v : Vlen} {q : Request} {i : Instr} {r : Response} (hd : decode v q = .ok i)
    (hr : ∀ s : State, exec i s = .next (s.answer r)) : freshResponses v q = [r] := by
  rw [freshResponses, step_of_decode_ok (q := q) (rest := []) rfl hd, hr]
  rfl

theorem freshResponses_of_reserved (v : Vlen) {q : Request} (h : q.opw.extractLsb' 5 3 ≠ 0) :
    freshResponses v q = [.raised .illegalOperation] := by
  rw [freshResponses, step_of_decode_error (q := q) (rest := []) rfl (decode_of_reserved h)]
  rfl

theorem freshResponses_eq_of_ne_vdiv (v v' : Vlen) {q : Request} (hl : q.opw.extractLsb' 5 3 = 0)
    (h : q.opw.extractLsb' 0 2 ≠ 3) : freshResponses v q = freshResponses v' q := by
  obtain ⟨f, hf, hd⟩ := decode_of_legal hl
  have hne : f.func ≠ .vdiv := fun e => h ((Func.ofBits_eq_vdiv_iff _).mp (hf ▸ e))
  obtain ⟨r, hr⟩ := exec_answers_of_ne_vdiv (i := assemble v f q) (by rwa [fields_assemble])
  rw [freshResponses_of_decode_ok (hd v) hr,
    freshResponses_of_decode_ok ((hd v').trans (congrArg _ (assemble_eq_of_ne_vdiv v' v q hne))) hr]

/-- Settles O17: an illegal word is rejected whatever `VLEN_BITS` is, and a legal one that is no VDIV decodes to the same
operation, which answers the same. -/
theorem onlyBatchedOperationsDependOnVlen : Obligations.OnlyBatchedOperationsDependOnVlen := by
  refine ⟨fun v v' q h => ?_, fun s t => step_vlen⟩
  by_cases hl : q.opw.extractLsb' 5 3 = 0
  · exact freshResponses_eq_of_ne_vdiv v v' hl (h.resolve_right (not_not_intro hl))
  · rw [freshResponses_of_reserved v hl, freshResponses_of_reserved v' hl]

end Sys2Proof.Machine
end

section
/-! PROOFS. The Dividers GEN returns: the properties R33 of 10_state.md, the sentinel `magic = 0` and the strategy code. -/

namespace Sys2Proof

/-- The properties R33 (a) to (g) of 10_state.md that a Divider's bits and kind show, as propositions. -/
structure Divider.BitProperties {w : Nat} {sg : Signedness} {va : Variant} (dv : Divider w sg va) : Prop where
  shift_lt : dv.ctl.toNat % 64 < w
  pow2_iff : dv.ctl.getLsbD 8 = true ↔ dv.magic = 0
  pow2_excludes_add : ¬(dv.ctl.getLsbD 8 = true ∧ dv.ctl.getLsbD 6 = true)
  unsigned_neg : sg = .unsigned → dv.ctl.getLsbD 7 = false
  branchfree_add : va = .branchfree → (dv.ctl.getLsbD 6 = true ↔ dv.ctl.getLsbD 8 = false)
  signed_add : sg = .signed → dv.ctl.getLsbD 8 = false → (dv.ctl.getLsbD 6 = true ↔ dv.magic.msb = true)
  ctl_lt : dv.ctl.toNat < 512
  bit5_clear : w = 32 → dv.ctl.getLsbD 5 = false

section Checks
variable {w : Nat} {sg : Signedness} {va : Variant} (dv : Divider w sg va)

theorem Divider.shiftInRange_iff : dv.shiftInRange = true ↔ dv.ctl.toNat % 64 < w := by
  simp [Divider.shiftInRange]

theorem Divider.pow2IsSentinel_iff : dv.pow2IsSentinel = true ↔ (dv.ctl.getLsbD 8 = true ↔ dv.magic = 0) := by
  rw [Divider.pow2IsSentinel, beq_iff_eq, Bool.eq_iff_iff, beq_iff_eq]

theorem Divider.pow2ExcludesAdd_iff :
    dv.pow2ExcludesAdd = true ↔ ¬(dv.ctl.getLsbD 8 = true ∧ dv.ctl.getLsbD 6 = true) := by
  rw [Divider.pow2ExcludesAdd, Bool.not_eq_true', ← Bool.not_eq_true, Bool.and_eq_true]

theorem Divider.unsignedNegClear_iff : dv.unsignedNegClear = true ↔ (sg = .unsigned → dv.ctl.getLsbD 7 = false) := by
  rw [Divider.unsignedNegClear, Bool.or_eq_true, Bool.not_eq_true']
  cases sg with
  | unsigned => exact ⟨fun h _ => h.resolve_left (by decide), fun h => .inr (h rfl)⟩
  | signed => exact iff_of_true (.inl rfl) nofun

theorem Divider.branchfreeAdd_iff :
    dv.branchfreeAdd = true ↔ (va = .branchfree → (dv.ctl.getLsbD 6 = true ↔ dv.ctl.getLsbD 8 = false)) := by
  rw [Divider.branchfreeAdd, Bool.or_eq_true, beq_iff_eq (a := dv.ctl.getLsbD 6),
    Bool.eq_iff_iff (a := dv.ctl.getLsbD 6), Bool.not_eq_true']
  cases va with
  | branchfree => exact ⟨fun h _ => h.resolve_left (by decide), fun h => .inr (h rfl)⟩
  | branchfull => exact iff_of_true (.inl rfl) nofun

theorem Divider.signedAddIsTopBit_iff :
    dv.signedAddIsTopBit = true ↔
      (sg = .signed → dv.ctl.getLsbD 8 = false → (dv.ctl.getLsbD 6 = true ↔ dv.magic.msb = true)) := by
  rw [Divider.signedAddIsTopBit, Bool.or_eq_true, Bool.or_eq_true, beq_iff_eq (a := dv.ctl.getLsbD 6),
    Bool.eq_iff_iff (a := dv.ctl.getLsbD 6)]
  cases sg with
  | unsigned => exact iff_of_true (.inl (.inl rfl)) nofun
  | signed => cases dv.ctl.getLsbD 8 <;> simp

theorem Divider.reservedClear_iff :
    dv.reservedClear = true ↔ dv.ctl.toNat < 512 ∧ (w = 32 → dv.ctl.getLsbD 5 = false) := by
  have hhigh : dv.ctl.extractLsb' 9 7 = 0 ↔ dv.ctl.toNat < 512 := by
    rw [← BitVec.toNat_inj]
    simp [Nat.shiftRight_eq_div_pow]
    omega
  rw [Divider.reservedClear, Bool.and_eq_true, beq_iff_eq, hhigh, Bool.or_eq_true, bne_iff_ne, Bool.not_eq_true',
    ← imp_iff_not_or]

/-- The checks of `Divider.wellFormed` are the properties. -/
theorem Divider.wellFormed_iff_bitProperties : dv.wellFormed = true ↔ dv.BitProperties := by
  simp only [Divider.wellFormed, Bool.and_eq_true, dv.shiftInRange_iff, dv.pow2IsSentinel_iff, dv.pow2ExcludesAdd_iff,
    dv.unsignedNegClear_iff, dv.branchfreeAdd_iff, dv.signedAddIsTopBit_iff, dv.reservedClear_iff, and_assoc]
  exact ⟨fun ⟨shift, sentinel, excl, neg, add, top, ctl, bit5⟩ => ⟨shift, sentinel, excl, neg, add, top, ctl, bit5⟩,
    fun ⟨shift, sentinel, excl, neg, add, top, ctl, bit5⟩ => ⟨shift, sentinel, excl, neg, add, top, ctl, bit5⟩⟩

end Checks

end Sys2Proof

namespace Sys2Proof.Machine

open Sys2Proof.Safety

section Generated
variable {w : Nat} {sg : Signedness} {va : Variant}

/-- A shift below 32 leaves `ctl[5]` clear (10_state.md R33 (g)). -/
theorem makeCtl_bit5 {shift : Nat} (h : shift < 32) (add neg pow2 : Bool) :
    (makeCtl shift add neg pow2).getLsbD 5 = false := by
  rw [BitVec.getLsbD, toNat_makeCtl (by omega), Nat.testBit_eq_decide_div_mod_eq, decide_eq_false_iff_not]
  have hneg := Bool.toNat_le neg
  omega

/-- A Divider with a composed `ctl` has the properties R33 when its flags agree with each other, its kind and its `magic`. -/
theorem bitProperties_makeCtl (hw : w = 32 ∨ w = 64) {m : BitVec w} {l : Nat} (hl : l < w) {add neg pow2 : Bool}
    (hm : pow2 = true ↔ m = 0) (hadd : pow2 = true → add = false) (hneg : sg = .unsigned → neg = false)
    (hbf : va = .branchfree → pow2 = false → add = true) (htop : sg = .signed → pow2 = false → add = m.msb) :
    (⟨m, makeCtl l add neg pow2⟩ : Divider w sg va).BitProperties := by
  have hctl : (makeCtl l add neg pow2).toNat = 256 * pow2.toNat + 128 * neg.toNat + 64 * add.toNat + l :=
    toNat_makeCtl (by omega) ..
  have hl64 : l < 64 := by omega
  have hp1 := Bool.toNat_le pow2
  have hn1 := Bool.toNat_le neg
  have ha1 := Bool.toNat_le add
  constructor
  case shift_lt => rw [hctl]; omega
  case pow2_iff => rwa [makeCtl_getLsbD_pow2]
  case pow2_excludes_add =>
    rw [makeCtl_getLsbD_pow2, makeCtl_getLsbD_add]
    rintro ⟨hp, ha⟩
    rw [hadd hp] at ha
    exact Bool.false_ne_true ha
  case unsigned_neg => rwa [makeCtl_getLsbD_neg]
  case branchfree_add =>
    rw [makeCtl_getLsbD_pow2, makeCtl_getLsbD_add]
    intro hv
    cases pow2 with
    | true => simp [hadd rfl]
    | false => simp [hbf hv rfl]
  case signed_add =>
    rw [makeCtl_getLsbD_pow2, makeCtl_getLsbD_add]
    exact fun hs hp => by rw [htop hs hp]
  case ctl_lt => rw [hctl]; omega
  case bit5_clear => exact fun h32 => makeCtl_bit5 (by omega) ..

/-- The checks of a GEN pass exactly for the divisors that are not refused (41_generate.md R121). -/
theorem checkDivisor_eq_ok_iff {d : BitVec w} :
    checkDivisor sg va d = .ok () ↔ d.toNat ≠ 0 ∧ (sg = .unsigned → va = .branchfree → d.toNat ≠ 1) := by
  unfold checkDivisor
  split
  · simp_all
  · split <;> simp_all

theorem ugen_bitProperties (hw : w = 32 ∨ w = 64) {d : BitVec w} (h : checkDivisor .unsigned va d = .ok ()) :
    (ugen va d).BitProperties := by
  obtain ⟨h0, h1⟩ := checkDivisor_eq_ok_iff.mp h
  obtain ⟨m, l, add, pow2, hl, e, hpow, hrec⟩ := ugen_spec va h0 (h1 rfl)
  rw [e]
  cases pow2 with
  | true =>
    obtain ⟨hm, ha, -⟩ := hpow rfl
    exact bitProperties_makeCtl hw hl (iff_of_true rfl hm) (fun _ => ha) (by simp) (by simp) (by simp)
  | false =>
    obtain ⟨hm, -, -, -, hbf, -⟩ := hrec rfl
    exact bitProperties_makeCtl hw hl (iff_of_false (by simp) hm) (by simp) (by simp) (fun hv _ => hbf hv) (by simp)

theorem sgen_bitProperties (hw : w = 32 ∨ w = 64) {d : BitVec w} (h : checkDivisor .signed va d = .ok ()) :
    (sgen va d).BitProperties := by
  obtain ⟨h0, -⟩ := checkDivisor_eq_ok_iff.mp h
  obtain ⟨m, l, add, pow2, hl, e, hpow, hrec⟩ := sgen_spec (by omega) va h0
  rw [e]
  cases pow2 with
  | true =>
    obtain ⟨hm, ha, -⟩ := hpow rfl
    exact bitProperties_makeCtl hw hl (iff_of_true rfl hm) (fun _ => ha) (by simp) (by simp) (by simp)
  | false =>
    obtain ⟨hm, -, hbf, htop, -⟩ := hrec rfl
    exact bitProperties_makeCtl hw hl (iff_of_false (by simp) hm) (by simp) (by simp) (fun hv _ => hbf hv) (fun _ _ => htop)

/-- R33 (d) of 10_state.md, second half: in a signed kind `NEG` is the divisor's sign. -/
theorem sgen_neg_iff (hw : 2 ≤ w) {d : BitVec w} (h : checkDivisor .signed va d = .ok ()) :
    (sgen va d).ctl.getLsbD 7 = true ↔ d.toInt < 0 := by
  obtain ⟨m, l, add, pow2, -, e, -, -⟩ := sgen_spec hw va (checkDivisor_eq_ok_iff.mp h).1
  rw [e, makeCtl_getLsbD_neg, BitVec.msb_eq_toInt, decide_eq_true_iff]

/-- `POW2` marks the powers of two (41_generate.md R122). -/
theorem ugen_pow2_iff {d : BitVec w} (h : checkDivisor .unsigned va d = .ok ()) :
    (ugen va d).ctl.getLsbD 8 = true ↔ ∃ k : Nat, d.toNat = 2 ^ k := by
  obtain ⟨h0, h1⟩ := checkDivisor_eq_ok_iff.mp h
  obtain ⟨m, l, add, pow2, -, e, hpow, hrec⟩ := ugen_spec va h0 (h1 rfl)
  rw [e, makeCtl_getLsbD_pow2]
  cases pow2 with
  | true =>
    obtain ⟨-, -, hd⟩ := hpow rfl
    exact iff_of_true rfl ⟨_, hd⟩
  | false =>
    obtain ⟨-, hd, -⟩ := hrec rfl
    exact iff_of_false (by simp) hd

/-- `POW2` marks the divisors whose magnitude is a power of two (41_generate.md R126). -/
theorem sgen_pow2_iff (hw : 2 ≤ w) {d : BitVec w} (h : checkDivisor .signed va d = .ok ()) :
    (sgen va d).ctl.getLsbD 8 = true ↔ ∃ k : Nat, d.toInt.natAbs = 2 ^ k := by
  obtain ⟨m, l, add, pow2, -, e, hpow, hrec⟩ := sgen_spec hw va (checkDivisor_eq_ok_iff.mp h).1
  rw [e, makeCtl_getLsbD_pow2]
  cases pow2 with
  | true =>
    obtain ⟨-, -, hd⟩ := hpow rfl
    exact iff_of_true rfl ⟨_, hd⟩
  | false =>
    obtain ⟨-, hd, -⟩ := hrec rfl
    exact iff_of_false (by simp) hd

theorem generate_answers_wellFormed {gen : BitVec w → Divider w sg va} {d : BitVec w}
    (hgen : checkDivisor sg va d = .ok () → (gen d).BitProperties) (s : State) :
    ∃ r, (.next (generate gen d s) : Host.Outcome State Fault Refusal) = .next (s.answer r) ∧
      dividerWellFormed r = true := by
  obtain ⟨x, -, e⟩ | ⟨hok, e⟩ := generate_cases gen d s
  · exact ⟨_, congrArg _ e, rfl⟩
  · exact ⟨_, congrArg _ e, (Divider.wellFormed_iff_bitProperties _).mpr (hgen hok)⟩

/-- Only a GEN answers with a Divider, and each GEN with one that has the properties R33. -/
theorem exec_answers_wellFormed (i : Instr) (s : State) :
    ∃ r, exec i s = .next (s.answer r) ∧ dividerWellFormed r = true := by
  have w32 : 32 = 32 ∨ 32 = 64 := .inl rfl
  have w64 : 64 = 32 ∨ 64 = 64 := .inr rfl
  cases i with
  | genU32 | genU32Bf => exact generate_answers_wellFormed (ugen_bitProperties w32) s
  | genU64 | genU64Bf => exact generate_answers_wellFormed (ugen_bitProperties w64) s
  | genS32 | genS32Bf => exact generate_answers_wellFormed (sgen_bitProperties w32) s
  | genS64 | genS64Bf => exact generate_answers_wellFormed (sgen_bitProperties w64) s
  | _ => exact ⟨_, rfl, rfl⟩

theorem freshResponses_wellFormed {v : Vlen} {q : Request} {r : Response} (h : freshResponses v q = [r]) :
    dividerWellFormed r = true := by
  cases hd : decode v q with
  | error e =>
    rw [freshResponses, step_of_decode_error (q := q) (rest := []) rfl hd] at h
    cases h
    rfl
  | ok i =>
    obtain ⟨r', hr, hwf⟩ := exec_answers_wellFormed i { State.resetWith v with taken := [q] }
    have hstep : step ((State.resetWith v).issue q) = exec i { State.resetWith v with taken := [q] } :=
      step_of_decode_ok (q := q) (rest := []) rfl hd
    rw [freshResponses, hstep, hr] at h
    cases h
    exact hwf

end Generated

/-- Settles O11: the one response a step adds is well formed. -/
theorem everyStepKeepsDividersWellFormed : Obligations.EveryStepKeepsDividersWellFormed := by
  intro s t hs h
  obtain ⟨-, rfl⟩ | ⟨q, rest, r, -, hr, rfl⟩ := step_eq_next_cases h
  · exact hs
  · exact List.forall_mem_append.mpr ⟨hs, List.forall_mem_singleton.mpr (freshResponses_wellFormed hr)⟩

section Sentinel
variable {w : Nat} {sg : Signedness} {va : Variant}

/-- A GEN whose checks pass answers with its Divider and changes nothing else. -/
theorem next_generate_of_ok (gen : BitVec w → Divider w sg va) {d : BitVec w} (h : checkDivisor sg va d = .ok ()) (s : State) :
    (.next (generate gen d s) : Host.Outcome State Fault Refusal) =
      .next { s with responses := s.responses ++ [.ok (.divider w sg va (gen d))] } :=
  congrArg _ (generate_ok gen h s)

theorem strategyOf_code_eq_zero_iff (ctl : Ctl) : (strategyOf ctl).code = 0b00 ↔ ctl.getLsbD 8 = true := by
  unfold strategyOf
  cases ctl.getLsbD 8 <;> cases ctl.getLsbD 6 <;> decide

theorem Strategy.code_ne_three (st : Strategy) : st.code ≠ 0b11 := by
  cases st <;> decide

/-- A branchfree Divider is never classified as MULTIPLY_ONLY (42_classify.md R154). -/
theorem strategyOf_code_ne_one {dv : Divider w sg .branchfree} (h : dv.BitProperties) :
    (strategyOf dv.ctl).code ≠ 0b01 := by
  have hadd := h.branchfree_add rfl
  unfold strategyOf
  cases hp : dv.ctl.getLsbD 8 with
  | true =>
    rw [if_pos rfl]
    decide
  | false =>
    rw [hadd.mpr hp]
    decide

/-- The sentinel `magic = 0` and the code of SHIFT_ONLY mark whatever `POW2` marks (10_state.md R28, 42_classify.md R151). -/
theorem sentinel_and_code_of_pow2_iff {dv : Divider w sg va} {P : Prop} (p : dv.BitProperties)
    (hP : dv.ctl.getLsbD 8 = true ↔ P) :
    (dv.magic = 0 ↔ P) ∧ ((strategyOf dv.ctl).code = 0b00 ↔ P) ∧ (strategyOf dv.ctl).code ≠ 0b11 :=
  ⟨p.pow2_iff.symm.trans hP, (strategyOf_code_eq_zero_iff _).trans hP, Strategy.code_ne_three _⟩

/-- The same with what a branchfree kind adds (42_classify.md R154). -/
theorem sentinel_and_code_of_pow2_iff_branchfree {dv : Divider w sg .branchfree} {P : Prop} (p : dv.BitProperties)
    (hP : dv.ctl.getLsbD 8 = true ↔ P) :
    (dv.magic = 0 ↔ P) ∧ ((strategyOf dv.ctl).code = 0b00 ↔ P) ∧ (strategyOf dv.ctl).code ≠ 0b11 ∧
      (strategyOf dv.ctl).code ≠ 0b01 :=
  have ⟨hmagic, hcode, hthree⟩ := sentinel_and_code_of_pow2_iff p hP
  ⟨hmagic, hcode, hthree, strategyOf_code_ne_one p⟩

end Sentinel

/-- Settles O29: each kind's clauses, read off the properties of its generated Divider. -/
theorem generatedDividerProperties : Obligations.GeneratedDividerProperties := by
  refine ⟨?_, ?_, ?_, ?_, ?_, ?_, ?_, ?_⟩
  · intro d s h
    have hok := checkDivisor_branchfull (sg := .unsigned) h
    have p := ugen_bitProperties (.inl rfl) hok
    exact ⟨_, next_generate_of_ok _ hok s, Nat.le_of_lt_succ p.shift_lt, p.pow2_iff, p.pow2_excludes_add,
      p.unsigned_neg rfl, p.ctl_lt, p.bit5_clear rfl⟩
  · intro d s h
    have hok := checkDivisor_branchfull (sg := .unsigned) h
    have p := ugen_bitProperties (.inr rfl) hok
    exact ⟨_, next_generate_of_ok _ hok s, Nat.le_of_lt_succ p.shift_lt, p.pow2_iff, p.pow2_excludes_add,
      p.unsigned_neg rfl, p.ctl_lt⟩
  · intro d s h
    have hok := checkDivisor_signed (va := .branchfull) h
    have p := sgen_bitProperties (.inl rfl) hok
    exact ⟨_, next_generate_of_ok _ hok s, Nat.le_of_lt_succ p.shift_lt, p.pow2_iff, p.pow2_excludes_add,
      sgen_neg_iff (by decide) hok, p.signed_add rfl, p.ctl_lt, p.bit5_clear rfl⟩
  · intro d s h
    have hok := checkDivisor_signed (va := .branchfull) h
    have p := sgen_bitProperties (.inr rfl) hok
    exact ⟨_, next_generate_of_ok _ hok s, Nat.le_of_lt_succ p.shift_lt, p.pow2_iff, p.pow2_excludes_add,
      sgen_neg_iff (by decide) hok, p.signed_add rfl, p.ctl_lt⟩
  · intro d s h h1
    have hok := checkDivisor_branchfree h h1
    have p := ugen_bitProperties (.inl rfl) hok
    exact ⟨_, next_generate_of_ok _ hok s, Nat.le_of_lt_succ p.shift_lt, p.pow2_iff, p.pow2_excludes_add,
      p.unsigned_neg rfl, p.branchfree_add rfl, p.ctl_lt, p.bit5_clear rfl⟩
  · intro d s h h1
    have hok := checkDivisor_branchfree h h1
    have p := ugen_bitProperties (.inr rfl) hok
    exact ⟨_, next_generate_of_ok _ hok s, Nat.le_of_lt_succ p.shift_lt, p.pow2_iff, p.pow2_excludes_add,
      p.unsigned_neg rfl, p.branchfree_add rfl, p.ctl_lt⟩
  · intro d s h
    have hok := checkDivisor_signed (va := .branchfree) h
    have p := sgen_bitProperties (.inl rfl) hok
    exact ⟨_, next_generate_of_ok _ hok s, Nat.le_of_lt_succ p.shift_lt, p.pow2_iff, p.pow2_excludes_add,
      sgen_neg_iff (by decide) hok, p.branchfree_add rfl, p.signed_add rfl, p.ctl_lt, p.bit5_clear rfl⟩
  · intro d s h
    have hok := checkDivisor_signed (va := .branchfree) h
    have p := sgen_bitProperties (.inr rfl) hok
    exact ⟨_, next_generate_of_ok _ hok s, Nat.le_of_lt_succ p.shift_lt, p.pow2_iff, p.pow2_excludes_add,
      sgen_neg_iff (by decide) hok, p.branchfree_add rfl, p.signed_add rfl, p.ctl_lt⟩

/-- Settles O30: the sentinel and the strategy both follow `POW2`, which marks the powers of two. -/
theorem magicIsZeroExactlyForPowersOfTwo : Obligations.MagicIsZeroExactlyForPowersOfTwo := by
  refine ⟨?_, ?_, ?_, ?_, ?_, ?_, ?_, ?_⟩
  · intro d s t h
    have hok := checkDivisor_branchfull (sg := .unsigned) h
    exact ⟨_, _, next_generate_of_ok _ hok s, rfl,
      sentinel_and_code_of_pow2_iff (ugen_bitProperties (.inl rfl) hok) (ugen_pow2_iff hok)⟩
  · intro d s t h
    have hok := checkDivisor_branchfull (sg := .unsigned) h
    exact ⟨_, _, next_generate_of_ok _ hok s, rfl,
      sentinel_and_code_of_pow2_iff (ugen_bitProperties (.inr rfl) hok) (ugen_pow2_iff hok)⟩
  · intro d s t h
    have hok := checkDivisor_signed (va := .branchfull) h
    exact ⟨_, _, next_generate_of_ok _ hok s, rfl,
      sentinel_and_code_of_pow2_iff (sgen_bitProperties (.inl rfl) hok) (sgen_pow2_iff (by decide) hok)⟩
  · intro d s t h
    have hok := checkDivisor_signed (va := .branchfull) h
    exact ⟨_, _, next_generate_of_ok _ hok s, rfl,
      sentinel_and_code_of_pow2_iff (sgen_bitProperties (.inr rfl) hok) (sgen_pow2_iff (by decide) hok)⟩
  · intro d s t h h1
    have hok := checkDivisor_branchfree h h1
    exact ⟨_, _, next_generate_of_ok _ hok s, rfl,
      sentinel_and_code_of_pow2_iff_branchfree (ugen_bitProperties (.inl rfl) hok) (ugen_pow2_iff hok)⟩
  · intro d s t h h1
    have hok := checkDivisor_branchfree h h1
    exact ⟨_, _, next_generate_of_ok _ hok s, rfl,
      sentinel_and_code_of_pow2_iff_branchfree (ugen_bitProperties (.inr rfl) hok) (ugen_pow2_iff hok)⟩
  · intro d s t h
    have hok := checkDivisor_signed (va := .branchfree) h
    exact ⟨_, _, next_generate_of_ok _ hok s, rfl,
      sentinel_and_code_of_pow2_iff_branchfree (sgen_bitProperties (.inl rfl) hok) (sgen_pow2_iff (by decide) hok)⟩
  · intro d s t h
    have hok := checkDivisor_signed (va := .branchfree) h
    exact ⟨_, _, next_generate_of_ok _ hok s, rfl,
      sentinel_and_code_of_pow2_iff_branchfree (sgen_bitProperties (.inr rfl) hok) (sgen_pow2_iff (by decide) hok)⟩

end Sys2Proof.Machine
end

section
/-! PROOFS. Requests as a set (20_memory.md R48, R54; 60_exceptions.md R236): in a unit of one `VLEN_BITS` the response is a function
of the request, so a run maps that function over whatever requests wait, in whatever order and company. -/

namespace Sys2Proof.Machine

open Sys2Proof.Safety

theorem exists_response (v : Vlen) : ∃ f : Request → Response, ∀ q, freshResponses v q = [f q] :=
  Classical.skolem.mp fun q =>
    let ⟨r, hr, _⟩ := step_answers_fresh v q
    ⟨r, hr⟩

/-- A run over all the requests that wait gives each the response a fresh unit gives it. -/
theorem run_maps_response {f : Request → Response} {s : State} (hf : ∀ q, freshResponses s.vlen q = [f q]) {qs : List Request}
    (hs : s.requests = qs) :
    Host.Core.run Sys2Proof.core qs.length s =
      .next { s with requests := [], taken := s.taken ++ qs, responses := s.responses ++ qs.map f } := by
  obtain ⟨rs, hrun, hrs⟩ := run_answers_requests qs s hs
  have hmap : qs.map f = rs := by
    rw [← List.forall₂_eq_eq_eq, List.forall₂_map_left_iff]
    exact hrs.imp fun q r h => List.singleton_inj.mp ((hf q).symm.trans h)
  rw [hrun, hmap]

/-- Settles O15: one function gives the responses of both units, so the pairs are the same function of permuted lists. -/
theorem reorderedRequestsGetTheSameResponses : Obligations.ReorderedRequestsGetTheSameResponses := by
  intro s t hv hperm
  obtain ⟨f, hf⟩ := exists_response s.vlen
  refine ⟨s.requests.map f, t.requests.map f, run_maps_response hf rfl, run_maps_response (hv ▸ hf) rfl,
    List.length_map .., List.length_map .., ?_⟩
  rw [← List.map_prod_left_eq_zip, ← List.map_prod_left_eq_zip]
  exact hperm.map _

/-- Settles O16: the run maps one function over both lists, and the faulting request's place holds its violation. -/
theorem violationLeavesEveryOtherRequestAlone : Obligations.ViolationLeavesEveryOtherRequestAlone := by
  intro s as bs q x hx
  obtain ⟨f, hf⟩ := exists_response s.vlen
  have hq : f q = .raised x := List.singleton_inj.mp ((hf q).symm.trans hx)
  refine ⟨as.map f, bs.map f, List.length_map .., List.length_map .., ?_, ?_⟩
  · rw [run_maps_response (s := { s with requests := as ++ q :: bs }) hf rfl, List.map_append, List.map_cons, hq]
  · rw [run_maps_response (s := { s with requests := as ++ bs }) hf rfl, List.map_append]

end Sys2Proof.Machine
end

section
/-! PROOFS. The byte images (20_memory.md R43): the bits of a packed list, the value read back, and a run of bytes as the image of the
bits it covers, of which both the packed Divider's parts and a group's lanes are instances. -/

namespace Sys2Proof.Machine

/-- Bit `j` of digit `i` stands at place `w * i + j` of the packed number. -/
theorem testBit_packNat {w : Nat} (xs : List (BitVec w)) {i j : Nat} (hi : i < xs.length) (hj : j < w) :
    (packNat xs).testBit (w * i + j) = xs[i].getLsbD j := by
  rw [BitVec.getLsbD, ← packNat_digit xs i hi, Nat.testBit_mod_two_pow, Nat.testBit_div_two_pow, Nat.add_comm]
  simp [hj]

section Value
variable {n : Nat}

theorem getElem_byteImage (x : BitVec n) {k : Nat} (h : k < (byteImage x).length) : (byteImage x)[k] = imageByte x k := by
  simp [byteImage]

theorem ofByteImage_byteImage (x : BitVec n) : ofByteImage n (byteImage x) = x := by
  apply BitVec.eq_of_getLsbD_eq
  intro i hi
  have hk : i / 8 < (byteImage x).length := by rw [length_byteImage]; omega
  have hj : i % 8 < 8 := Nat.mod_lt _ (by decide)
  have hplace : 8 * (i / 8) + i % 8 = i := Nat.div_add_mod i 8
  calc (ofByteImage n (byteImage x)).getLsbD i
      = (packNat (byteImage x)).testBit (8 * (i / 8) + i % 8) := by
        rw [ofByteImage, BitVec.getLsbD_ofNat, hplace, decide_eq_true hi, Bool.true_and]
    _ = (imageByte x (i / 8)).getLsbD (i % 8) := by rw [testBit_packNat _ hk hj, getElem_byteImage]
    _ = x.getLsbD i := by rw [getLsbD_imageByte x hj (by omega), hplace]

/-- A part of a part that lies inside it is a part of the whole. -/
theorem extractLsb'_extractLsb'_of_le (x : BitVec n) {a b l m : Nat} (h : b + l ≤ m) :
    (x.extractLsb' a m).extractLsb' b l = x.extractLsb' (a + b) l := by
  apply BitVec.eq_of_getLsbD_eq
  intro j hj
  have hin : b + j < m := by omega
  simp only [BitVec.getLsbD_extractLsb', hj, hin, decide_true, Bool.true_and, Nat.add_assoc]

/-- The bytes from byte `k` on that a part of a value fills are the image of that part. -/
theorem take_drop_byteImage (x : BitVec n) {k w : Nat} (hw : 8 ∣ w) (h : 8 * k + w ≤ n) :
    ((byteImage x).drop k).take (w / 8) = byteImage (x.extractLsb' (8 * k) w) := by
  obtain ⟨m, rfl⟩ := hw
  refine List.ext_getElem (by simp; omega) fun i h1 h2 => ?_
  have hi : 8 * i + 8 ≤ 8 * m := by rw [length_byteImage] at h2; omega
  calc (((byteImage x).drop k).take (8 * m / 8))[i]
      = imageByte x (k + i) := by rw [List.getElem_take, List.getElem_drop, getElem_byteImage]
    _ = (x.extractLsb' (8 * k) (8 * m)).extractLsb' (8 * i) 8 := by
        rw [imageByte_whole x (by omega), extractLsb'_extractLsb'_of_le x hi, Nat.mul_add]
    _ = (byteImage (x.extractLsb' (8 * k) (8 * m)))[i] := by rw [getElem_byteImage, imageByte_whole _ hi]

/-- The image of a concatenation of whole bytes has the low part's image at the lower addresses. -/
theorem byteImage_append {m : Nat} (hm : 8 ∣ m) (hn : 8 ∣ n) (hi : BitVec m) (lo : BitVec n) :
    byteImage (hi ++ lo) = byteImage lo ++ byteImage hi := by
  have low : (byteImage (hi ++ lo)).take (n / 8) = byteImage lo := by
    have h := take_drop_byteImage (hi ++ lo) (k := 0) hn (by omega)
    rwa [List.drop_zero, Nat.mul_zero, BitVec.extractLsb'_append_eq_right] at h
  have high : (byteImage (hi ++ lo)).drop (n / 8) = byteImage hi := by
    have h := take_drop_byteImage (hi ++ lo) (k := n / 8) hm (by omega)
    rwa [Nat.mul_div_cancel' hn, BitVec.extractLsb'_append_eq_left, List.take_of_length_le (by simp; omega)] at h
  rw [← List.take_append_drop (n / 8) (byteImage (hi ++ lo)), low, high]

end Value

/-- Settles O56: the bytes and bits from the laws of the image, the packed Divider as a concatenation of whole bytes. -/
theorem byteImageIsLittleEndian : Obligations.ByteImageIsLittleEndian := by
  refine ⟨fun n x => ⟨length_byteImage x, ofByteImage_byteImage x, fun k h => ?_, fun k j b hb hj h => ?_⟩,
    fun w hw sg va dv => byteImage_append (by decide) (by omega) dv.ctl dv.magic⟩
  · rw [getElem?_byteImage x (by omega), imageByte_whole x h]
  · rw [getElem?_byteImage x (by omega), Option.some_inj] at hb
    rw [← hb, getLsbD_imageByte x hj h]

section Grouped
variable {v : Vlen}

/-- A lane that lies inside the unit's width is those bits of the `VLEN_BITS`-bit value (30_encoding.md R68). -/
theorem lane_eq_extractLsb' {w i : Nat} (h : w * i + w ≤ v.bits) (g : Group) :
    lane w i g = (BitVec.ofNat v.bits (groupValue g)).extractLsb' (w * i) w := by
  apply BitVec.eq_of_getLsbD_eq
  intro j hj
  have hin : w * i + j < v.bits := by omega
  simp only [lane, BitVec.getLsbD_extractLsb', BitVec.getLsbD_ofNat, Nat.testBit_shiftRight, hj, hin, decide_true,
    Bool.true_and]

theorem ofGroupImage_groupImage {g : Group} (h : g.length = v.words) : ofGroupImage v (groupImage v g) = g := by
  rw [ofGroupImage, groupImage, ofByteImage_byteImage, BitVec.toNat_ofNat, Nat.mod_eq_of_lt (groupValue_lt v h),
    groupOfValue_groupValue v h]

/-- Byte `k` of a group's image is its lane `k` at width 8. -/
theorem getElem?_groupImage (g : Group) {k : Nat} (h : k < v.bits / 8) : (groupImage v g)[k]? = some (lane 8 k g) := by
  have hk : 8 * k + 8 ≤ v.bits := by omega
  rw [groupImage, getElem?_byteImage _ (by omega), imageByte_whole _ hk, lane_eq_extractLsb' hk]

/-- The bytes of lane `i` start `w / 8 * i` bytes above the lowest address (20_memory.md R43). -/
theorem take_drop_groupImage {w i : Nat} (hw : 8 ∣ w) (h : w * i + w ≤ v.bits) (g : Group) :
    ((groupImage v g).drop (w / 8 * i)).take (w / 8) = byteImage (lane w i g) := by
  have hplace : 8 * (w / 8 * i) = w * i := by rw [← Nat.mul_assoc, Nat.mul_div_cancel' hw]
  rw [groupImage, take_drop_byteImage _ hw (by omega), hplace, ← lane_eq_extractLsb' h]

end Grouped

/-- Settles O58: each clause is a law of the group's image; a lane below `VLEN_BITS / W` lies inside the group. -/
theorem groupImageStartsWithLaneZero : Obligations.GroupImageStartsWithLaneZero := by
  refine fun v g => ⟨length_groupImage v g, fun k hk => getElem?_groupImage g hk, fun w hw i hi => ?_, ofGroupImage_groupImage⟩
  have hin : w * i + w ≤ v.bits := (Nat.mul_le_mul_left w hi).trans (mul_lanes_le v w)
  exact take_drop_groupImage (by omega) hin g

end Sys2Proof.Machine
end

section
/-! PROOFS. The decoder and the encoder against each other (30_encoding.md sections 1, 2 and 6): the fields in an operation word, the
frame that holds an operation's operands, and the words that name no operation. -/

namespace Sys2Proof

/-- A word is read by its reserved bits first, then field by field (30_encoding.md R60, R62). -/
theorem readOpFields_eq_ok_iff {opw : OpWord} {f : OpFields} :
    readOpFields opw = .ok f ↔ opw.extractLsb' 5 3 = 0 ∧
      f = ⟨Func.ofBits (opw.extractLsb' 0 2), opw.getLsbD 2, opw.getLsbD 3, opw.getLsbD 4⟩ := by
  by_cases h : (opw.extractLsb' 5 3 == 0) = true
  · rw [readOpFields, if_pos h, Except.ok.injEq, eq_comm, and_iff_right (beq_iff_eq.mp h)]
  · rw [readOpFields, if_neg h]
    exact iff_of_false nofun fun hok => h (beq_iff_eq.mpr hok.1)

/-- No bit of a legal operation word is lost in its fields (30_encoding.md R61). -/
theorem word_of_readOpFields {opw : OpWord} {f : OpFields} (h : readOpFields opw = .ok f) : f.word = opw := by
  obtain ⟨hres, rfl⟩ := readOpFields_eq_ok_iff.mp h
  revert opw
  decide

/-- The sum of R61 does not wrap. -/
theorem toNat_word (f : OpFields) :
    f.word.toNat = f.func.bits.toNat + 4 * f.w64.toNat + 8 * f.sgn.toNat + 16 * f.bf.toNat := by
  have hfunc := f.func.bits.isLt
  have hw64 := Bool.toNat_le f.w64
  have hsgn := Bool.toNat_le f.sgn
  have hbf := Bool.toNat_le f.bf
  rw [OpFields.word, BitVec.toNat_ofNat]
  omega

theorem Func.ofBits_eq_gen_iff (b : BitVec 2) : Func.ofBits b = .gen ↔ b = 0 := by
  revert b
  decide

theorem Func.ofBits_eq_div_iff (b : BitVec 2) : Func.ofBits b = .div ↔ b = 2 := by
  revert b
  decide

/-- A 32-bit operand is read back from the lane it was written to (entry 3). -/
@[simp] theorem operand32_setWidth (x : BitVec 32) : operand32 (x.setWidth 64) = x := by
  rw [operand32, BitVec.setWidth_setWidth_of_le x (by decide), BitVec.setWidth_eq]

/-- A Divider is read back from the two lanes it was written to (30_encoding.md R65). -/
theorem divider32_of_lanes {q : Request} {sg : Signedness} {va : Variant} {dv : Divider 32 sg va}
    (hm : q.magic = dv.magic.setWidth 64) (hc : q.ctl = dv.ctl) : q.divider32 sg va = dv := by
  rw [Request.divider32, hm, hc, operand32_setWidth]

theorem divider64_of_lanes {q : Request} {sg : Signedness} {va : Variant} {dv : Divider 64 sg va}
    (hm : q.magic = dv.magic) (hc : q.ctl = dv.ctl) : q.divider64 sg va = dv := by
  rw [Request.divider64, hm, hc]

/-- A group of the unit's width is read back from the lane it was written to (30_encoding.md R68). -/
theorem group_of_lane {v : Vlen} {q : Request} {nv : Group} (hq : q.nv = nv) (h : groupFits v nv = true) : q.group v = nv := by
  subst hq
  exact group_of_fits h

/-- The fields the encoder writes are read back, so only the operands can differ. -/
theorem decode_encode (v : Vlen) (i : Instr) : decode v (encode i) = .ok (assemble v i.fields (encode i)) := by
  rw [decode, encode_opw, readOpFields_word]

/-- The operands are read from the lanes the encoder put them in; only a group of the unit's width is read back whole. -/
theorem assemble_encode {v : Vlen} {i : Instr} (h : i.wellFormed v = true) : assemble v i.fields (encode i) = i := by
  cases i with
  | genU32 | genS32 | genU32Bf | genS32Bf => exact congrArg _ (operand32_setWidth _)
  | genU64 | genS64 | genU64Bf | genS64Bf => rfl
  | stratU32 | stratS32 | stratU32Bf | stratS32Bf => exact congrArg _ (divider32_of_lanes rfl rfl)
  | stratU64 | stratS64 | stratU64Bf | stratS64Bf => rfl
  | divU32 | divS32 | divU32Bf | divS32Bf =>
    exact congrArg₂ _ (divider32_of_lanes rfl rfl) (operand32_setWidth _)
  | divU64 | divS64 | divU64Bf | divS64Bf => rfl
  | vdivU32 | vdivS32 | vdivU32Bf | vdivS32Bf =>
    exact congrArg₂ _ (divider32_of_lanes rfl rfl) (group_of_lane rfl h)
  | vdivU64 | vdivS64 | vdivU64Bf | vdivS64Bf => exact congrArg₂ _ (divider64_of_lanes rfl rfl) (group_of_lane rfl h)

/-- The part of an operand lane that an operation of a width reads: all of it, or the low 32 bits (entry 3). -/
def readPart (w64 : Bool) (x : OperandLane) : OperandLane := if w64 then x else (operand32 x).setWidth 64

/-- A lane whose upper half is zero at `W = 32` holds nothing but what is read. -/
theorem readPart_eq_self {w64 : Bool} {x : OperandLane} (h : w64 = true ∨ x.toNat < 2 ^ 32) : readPart w64 x = x := by
  unfold readPart
  split
  · rfl
  · rename_i hw
    apply BitVec.eq_of_toNat_eq
    have hx := h.resolve_left hw
    rw [BitVec.toNat_setWidth, operand32, BitVec.toNat_setWidth]
    omega

/-- The frame of an operation read from a frame: its word and, lane by lane, the bits that its format reads (30_encoding.md R63). -/
theorem encode_assemble (v : Vlen) (f : OpFields) (q : Request) :
    encode (assemble v f q) =
      { opw := f.word
        d := if f.func = .gen then readPart f.w64 q.d else 0
        magic := if f.func = .gen then 0 else readPart f.w64 q.magic
        ctl := if f.func = .gen then 0 else q.ctl
        n := if f.func = .div then readPart f.w64 q.n else 0
        nv := if f.func = .vdiv then q.group v else [] } := by
  obtain ⟨func, w64, sgn, bf⟩ := f
  cases func <;> cases w64 <;> cases sgn <;> cases bf <;> rfl

/-- A lane that fits holds what an operation of the frame's width reads from it, and zero where the format has no such lane. -/
theorem eq_of_laneFits {q : Request} {used : Bool} {p : Prop} [Decidable p] {x : OperandLane} (hp : used = true ↔ p)
    (h : q.laneFits used x = true) : x = if p then readPart q.isWide x else 0 := by
  unfold Request.laneFits at h
  split at h
  · rename_i hused
    rw [if_pos (hp.mp hused), readPart_eq_self (by simpa using h)]
  · rename_i hused
    rw [if_neg (mt hp.mpr hused), beq_iff_eq.mp h]

theorem ctl_of_dividerFits {q : Request} (h : q.dividerFits = true) :
    q.ctl = if q.opw.extractLsb' 0 2 = 0 then 0 else q.ctl := by
  rw [Request.dividerFits, Bool.and_eq_true, Bool.or_eq_true, bne_iff_ne, beq_iff_eq (a := q.ctl)] at h
  split
  · rename_i hgen
    exact h.2.resolve_left (not_not_intro hgen)
  · rfl

theorem magic_of_dividerFits {q : Request} (h : q.dividerFits = true) :
    q.magic = if q.opw.extractLsb' 0 2 = 0 then 0 else readPart q.isWide q.magic := by
  rw [Request.dividerFits, Bool.and_eq_true] at h
  rw [← ite_not]
  exact eq_of_laneFits bne_iff_ne h.1

theorem nv_of_groupLaneFits {v : Vlen} {q : Request} (h : q.groupLaneFits v = true) :
    q.nv = if q.opw.extractLsb' 0 2 = 3 then q.group v else [] := by
  unfold Request.groupLaneFits at h
  split at h
  · rename_i hvdiv
    rw [if_pos (beq_iff_eq.mp hvdiv), group_of_fits h]
  · rename_i hvdiv
    rw [if_neg (mt beq_iff_eq.mpr hvdiv), beq_iff_eq.mp h]

/-- Frames with the same word and the same lanes are the same. -/
theorem Request.eq_of_lanes {q p : Request} (hopw : q.opw = p.opw) (hd : q.d = p.d) (hmagic : q.magic = p.magic)
    (hctl : q.ctl = p.ctl) (hn : q.n = p.n) (hnv : q.nv = p.nv) : q = p := by
  cases q
  cases p
  simp_all

/-- A frame that holds its operation's operands and nothing else is the one the encoder writes: each lane is what is read from it. -/
theorem encode_assemble_of_wellFormed {v : Vlen} {q : Request} {f : OpFields} (hf : readOpFields q.opw = .ok f)
    (h : q.wellFormed v = true) : encode (assemble v f q) = q := by
  simp only [Request.wellFormed, Bool.and_eq_true] at h
  obtain ⟨⟨⟨⟨-, hd⟩, hdv⟩, hn⟩, hnv⟩ := h
  rw [encode_assemble, word_of_readOpFields hf]
  obtain ⟨-, rfl⟩ := readOpFields_eq_ok_iff.mp hf
  simp only [Func.ofBits_eq_gen_iff, Func.ofBits_eq_div_iff, Func.ofBits_eq_vdiv_iff]
  exact Request.eq_of_lanes rfl (eq_of_laneFits beq_iff_eq hd).symm (magic_of_dividerFits hdv).symm
    (ctl_of_dividerFits hdv).symm (eq_of_laneFits beq_iff_eq hn).symm (nv_of_groupLaneFits hnv).symm

/-- A legal word is decoded, an illegal one rejected, whatever the lanes hold (30_encoding.md R62, R73). -/
theorem decode_eq_error_iff (v : Vlen) (q : Request) :
    decode v q = .error .illegalOperation ↔ q.opw.extractLsb' 5 3 ≠ 0 := by
  refine ⟨fun herr hlegal => ?_, decode_of_reserved⟩
  obtain ⟨f, -, hok⟩ := decode_of_legal hlegal
  rw [hok v] at herr
  cases herr

theorem decode_isNone_eq (v : Vlen) (q : Request) : (decode v q).toOption.isNone = (q.opw.extractLsb' 5 3 != 0) := by
  by_cases h : q.opw.extractLsb' 5 3 = 0
  · obtain ⟨f, -, hok⟩ := decode_of_legal h
    rw [hok v, h]
    rfl
  · rw [decode_of_reserved h, bne_iff_ne.mpr h]
    rfl

/-- A number below 32 has no bit above the five that name an operation. -/
theorem reserved_clear_of_lt {opw : OpWord} (h : opw.toNat < 32) : opw.extractLsb' 5 3 = 0 := by
  apply BitVec.eq_of_toNat_eq
  rw [BitVec.extractLsb'_toNat, Nat.shiftRight_eq_div_pow, Nat.div_eq_of_lt h]
  rfl

/-- The mnemonics of the table in the order of its words (30_encoding.md R61, R75). -/
def mnemonicTable : List String :=
  ["GEN.U32", "STRAT.U32", "DIV.U32", "VDIV.U32", "GEN.U64", "STRAT.U64", "DIV.U64", "VDIV.U64",
    "GEN.S32", "STRAT.S32", "DIV.S32", "VDIV.S32", "GEN.S64", "STRAT.S64", "DIV.S64", "VDIV.S64",
    "GEN.U32.BF", "STRAT.U32.BF", "DIV.U32.BF", "VDIV.U32.BF", "GEN.U64.BF", "STRAT.U64.BF", "DIV.U64.BF", "VDIV.U64.BF",
    "GEN.S32.BF", "STRAT.S32.BF", "DIV.S32.BF", "VDIV.S32.BF", "GEN.S64.BF", "STRAT.S64.BF", "DIV.S64.BF", "VDIV.S64.BF"]

theorem mnemonicTable_word (f : OpFields) : mnemonicTable[f.word.toNat]? = some f.mnemonic := by
  obtain ⟨func, w64, sgn, bf⟩ := f
  cases func <;> cases w64 <;> cases sgn <;> cases bf <;> rfl

end Sys2Proof

namespace Sys2Proof.Machine

/-- Settles O1: the word gives the fields back, and each lane its operand. -/
theorem decodeEncodeRoundTrip : Obligations.DecodeEncodeRoundTrip :=
  fun v i h => (decode_encode v i).trans (congrArg _ (assemble_encode h))

/-- Settles O2: the operation was assembled from the frame, whose lanes hold nothing but what was read. -/
theorem encodeDecodeRoundTrip : Obligations.EncodeDecodeRoundTrip := by
  intro v q i hq h
  obtain ⟨f, hf, rfl⟩ := exists_assemble_of_decode_ok h
  exact encode_assemble_of_wellFormed hf hq

/-- Settles O4: the words are counted by their reserved bits, which alone decide the rejection. -/
theorem decodeRejectsExactlyReservedWords : Obligations.DecodeRejectsExactlyReservedWords := by
  refine ⟨decode_eq_error_iff, fun v => ?_⟩
  simp only [decode_isNone_eq]
  rfl

/-- Settles O5: an operation's word and its mnemonic are both functions of its four fields, and so is its place in the table. -/
theorem operationTable : Obligations.OperationTable := by
  refine ⟨fun v q h => ?_, fun v q i h => ?_, fun i => ?_⟩
  · obtain ⟨f, -, hok⟩ := decode_of_legal (reserved_clear_of_lt h)
    exact ⟨_, hok v⟩
  · obtain ⟨f, hf, rfl⟩ := exists_assemble_of_decode_ok h
    rw [fields_assemble, ← word_of_readOpFields hf]
    exact mnemonicTable_word f
  · rw [encode_opw, toNat_word]

/-- Settles O6: each word by evaluation of the decoder. -/
theorem writtenWordsDecode : Obligations.WrittenWordsDecode :=
  ⟨rfl, rfl, rfl, rfl, rfl, rfl, rfl⟩

/-- Settles O57: the encoder's frame for each constructor, four to a kind. -/
theorem encodedFrameHoldsTheOperandsOnly : Obligations.EncodedFrameHoldsTheOperandsOnly :=
  ⟨fun _ _ _ _ => ⟨rfl, rfl, rfl, rfl⟩, fun _ _ _ _ => ⟨rfl, rfl, rfl, rfl⟩, fun _ _ _ _ => ⟨rfl, rfl, rfl, rfl⟩,
    fun _ _ _ _ => ⟨rfl, rfl, rfl, rfl⟩, fun _ _ _ _ => ⟨rfl, rfl, rfl, rfl⟩, fun _ _ _ _ => ⟨rfl, rfl, rfl, rfl⟩,
    fun _ _ _ _ => ⟨rfl, rfl, rfl, rfl⟩, fun _ _ _ _ => ⟨rfl, rfl, rfl, rfl⟩⟩

end Sys2Proof.Machine
end

section
/-! PROOFS. What a STRAT, a DIV and a VDIV answer on any Divider, as far as it does not depend on a division: always OK
(30_encoding.md R71), the strategy code, the width of a group, and the packed form of the Divider itself. -/

namespace Sys2Proof.Machine

/-- Only a GEN can answer without a result (30_encoding.md R71). -/
theorem exec_answers_ok_of_ne_gen {i : Instr} (h : i.fields.func ≠ .gen) (s : State) :
    ∃ r : Result, exec i s = .next (s.answer (.ok r)) := by
  cases i with
  | genU32 | genU64 | genS32 | genS64 | genU32Bf | genU64Bf | genS32Bf | genS64Bf => exact absurd rfl h
  | _ => exact ⟨_, rfl⟩

/-- Settles O18: the legal word is decoded to an operation that is no GEN. -/
theorem applicationNeverFails : Obligations.ApplicationNeverFails := by
  intro s q rest hs hlegal hfunc
  obtain ⟨f, hf, hd⟩ := decode_of_legal hlegal
  have hne : f.func ≠ .gen := fun e => hfunc ((Func.ofBits_eq_gen_iff _).mp (hf ▸ e))
  obtain ⟨r, hr⟩ := exec_answers_ok_of_ne_gen (i := assemble s.vlen f q) (by rwa [fields_assemble])
    { s with requests := rest, taken := s.taken ++ [q] }
  exact ⟨r, (step_of_decode_ok hs (hd s.vlen)).trans hr, rfl⟩

/-- The code that a STRAT answers, by the two flags it reads (42_classify.md R153). -/
theorem strategyOf_code (ctl : Ctl) :
    (strategyOf ctl).code = if ctl.getLsbD 8 then 0b00 else if ctl.getLsbD 6 then 0b10 else 0b01 := by
  rw [strategyOf, apply_ite Strategy.code, apply_ite Strategy.code]
  rfl

/-- What each STRAT comes to: the code of `ctl` is the response and nothing else changes (42_classify.md R153). -/
theorem next_classify (ctl : Ctl) (s : State) :
    (.next (classify ctl s) : Host.Outcome State Fault Refusal) = .next { s with responses := s.responses ++
      [.ok (.strategy (if ctl.getLsbD 8 then 0b00 else if ctl.getLsbD 6 then 0b10 else 0b01))] } := by
  rw [classify, strategyOf_code]
  rfl

/-- Settles O32: every STRAT is `classify` of its Divider's `ctl`. -/
theorem stratReadsTheStoredStrategy : Obligations.StratReadsTheStoredStrategy :=
  ⟨fun dv => next_classify dv.ctl, fun dv => next_classify dv.ctl, fun dv => next_classify dv.ctl,
    fun dv => next_classify dv.ctl, fun dv => next_classify dv.ctl, fun dv => next_classify dv.ctl,
    fun dv => next_classify dv.ctl, fun dv => next_classify dv.ctl⟩

/-- An operation that maps one function over the lanes answers with a group of the unit's width, which depends on the low
`VLEN_BITS` bits of its operand only. -/
theorem group_result_of_exec_eq_mapLanes {w : Nat} {op : Group → Instr} {f : BitVec w → BitVec w}
    (hop : ∀ nv s, exec (op nv) s = .next (answerGroup (mapLanes s.vlen f nv) s)) (nv mv : Group) (s : State)
    (h : groupValue nv % 2 ^ s.vlen.bits = groupValue mv % 2 ^ s.vlen.bits) :
    ∃ qv : Group,
      exec (op nv) s = .next { s with responses := s.responses ++ [.ok (.group qv)] } ∧
      exec (op mv) s = .next { s with responses := s.responses ++ [.ok (.group qv)] } ∧ qv.length = s.vlen.bits / 64 := by
  refine ⟨mapLanes s.vlen f nv, hop nv s, ?_, length_mapLanes ..⟩
  rw [mapLanes_congr s.vlen f (lanesOf_congr h)]
  exact hop mv s

/-- Settles O46: every VDIV is the scalar division of its kind mapped over the lanes. -/
theorem groupResultHoldsItsLanesOnly : Obligations.GroupResultHoldsItsLanesOnly :=
  ⟨fun dv => group_result_of_exec_eq_mapLanes (exec_vdivU32 dv),
    fun dv => group_result_of_exec_eq_mapLanes (exec_vdivU64 dv),
    fun dv => group_result_of_exec_eq_mapLanes (exec_vdivS32 dv),
    fun dv => group_result_of_exec_eq_mapLanes (exec_vdivS64 dv),
    fun dv => group_result_of_exec_eq_mapLanes (exec_vdivU32Bf dv),
    fun dv => group_result_of_exec_eq_mapLanes (exec_vdivU64Bf dv),
    fun dv => group_result_of_exec_eq_mapLanes (exec_vdivS32Bf dv),
    fun dv => group_result_of_exec_eq_mapLanes (exec_vdivS64Bf dv)⟩

section Packed
variable {w : Nat} {sg : Signedness} {va : Variant}

theorem unpackDesc_packDesc (dv : Divider w sg va) : unpackDesc (packDesc dv) = dv := by
  rw [unpackDesc, packDesc, BitVec.extractLsb'_append_eq_right, BitVec.extractLsb'_append_eq_left]

theorem packDesc_unpackDesc (x : BitVec (16 + w)) : packDesc (unpackDesc x : Divider w sg va) = x :=
  BitVec.extractLsb'_append_extractLsb'

end Packed

/-- Settles O55: the packed form is `ctl` above `magic`, at every width. -/
theorem packedDividerRoundTrip : Obligations.PackedDividerRoundTrip :=
  fun _ _ _ _ => ⟨fun dv => ⟨BitVec.extractLsb'_append_eq_right, BitVec.extractLsb'_append_eq_left, unpackDesc_packDesc dv⟩,
    packDesc_unpackDesc⟩

end Sys2Proof.Machine
end

section
/-! PROOFS. The quotient of each DIV on any Divider as an expression of integers (43_scalar_divide.md sections 2 and 3), for every
width, then at the two widths of the table. -/

namespace Sys2Proof.Machine

section Operations
variable (s : State)

theorem exec_divU32 (dv : Divider 32 .unsigned .branchfull) (n : BitVec 32) :
    exec (.divU32 dv n) s = .next (answerQuotient (divU dv n) s) := rfl

theorem exec_divU64 (dv : Divider 64 .unsigned .branchfull) (n : BitVec 64) :
    exec (.divU64 dv n) s = .next (answerQuotient (divU dv n) s) := rfl

theorem exec_divS32 (dv : Divider 32 .signed .branchfull) (n : BitVec 32) :
    exec (.divS32 dv n) s = .next (answerQuotient (divS dv n) s) := rfl

theorem exec_divS64 (dv : Divider 64 .signed .branchfull) (n : BitVec 64) :
    exec (.divS64 dv n) s = .next (answerQuotient (divS dv n) s) := rfl

theorem exec_divU32Bf (dv : Divider 32 .unsigned .branchfree) (n : BitVec 32) :
    exec (.divU32Bf dv n) s = .next (answerQuotient (divUBf dv n) s) := rfl

theorem exec_divU64Bf (dv : Divider 64 .unsigned .branchfree) (n : BitVec 64) :
    exec (.divU64Bf dv n) s = .next (answerQuotient (divUBf dv n) s) := rfl

theorem exec_divS32Bf (dv : Divider 32 .signed .branchfree) (n : BitVec 32) :
    exec (.divS32Bf dv n) s = .next (answerQuotient (divSBf dv n) s) := rfl

theorem exec_divS64Bf (dv : Divider 64 .signed .branchfree) (n : BitVec 64) :
    exec (.divS64Bf dv n) s = .next (answerQuotient (divSBf dv n) s) := rfl

end Operations

section Unsigned
variable {w : Nat}

/-- Multiplying and shifting is one floor (43_scalar_divide.md R175). -/
theorem shr_mulhu (m n : BitVec w) (k : Nat) : shr (mulhu m n) k = BitVec.ofNat w (n.toNat * m.toNat / 2 ^ (w + k)) := by
  rw [shr, toNat_mulhu, Nat.div_div_eq_div_mul, ← Nat.pow_add, Nat.mul_comm]

/-- So is multiplying by the `(W+1)`-bit multiplier and shifting (43_scalar_divide.md R175). -/
theorem shr_addStep_mulhu (m n : BitVec w) (k : Nat) :
    shr (addStep (mulhu m n) n) k = BitVec.ofNat w (n.toNat * (2 ^ w + m.toNat) / 2 ^ (w + 1 + k)) := by
  rw [shr, toNat_addStep, Nat.div_div_eq_div_mul, ← Nat.pow_add]

theorem divU_eq_floor (hw : w = 32 ∨ w = 64) (dv : Divider w .unsigned .branchfull) (n : BitVec w) :
    divU dv n = BitVec.ofNat w
      (if dv.ctl.getLsbD 8 then n.toNat / 2 ^ (dv.ctl.toNat % w)
      else if dv.ctl.getLsbD 6 then n.toNat * (2 ^ w + dv.magic.toNat) / 2 ^ (w + 1 + dv.ctl.toNat % w)
      else n.toNat * dv.magic.toNat / 2 ^ (w + dv.ctl.toNat % w)) := by
  rw [apply_ite (BitVec.ofNat w), apply_ite (BitVec.ofNat w), ← shr_addStep_mulhu, ← shr_mulhu, ← shiftOf_eq hw]
  rfl

theorem divUBf_eq_floor (hw : w = 32 ∨ w = 64) (dv : Divider w .unsigned .branchfree) (n : BitVec w) :
    divUBf dv n = BitVec.ofNat w (n.toNat * (2 ^ w + dv.magic.toNat) / 2 ^ (w + 1 + dv.ctl.toNat % w)) := by
  rw [divUBf, shiftOf_eq hw, shr_addStep_mulhu]

end Unsigned

/-- Settles O33: the three floors of the unsigned branchfull division at the two widths. -/
theorem unsignedBranchfullQuotient : Obligations.UnsignedBranchfullQuotient := by
  constructor
  · intro dv n s
    rw [exec_divU32, divU_eq_floor (.inl rfl)]
    rfl
  · intro dv n s
    rw [exec_divU64, divU_eq_floor (.inr rfl)]
    rfl

/-- Settles O34: the one floor of the unsigned branchfree division at the two widths. -/
theorem unsignedBranchfreeQuotient : Obligations.UnsignedBranchfreeQuotient := by
  constructor
  · intro dv n s
    rw [exec_divU32Bf, divUBf_eq_floor (.inl rfl)]
    rfl
  · intro dv n s
    rw [exec_divU64Bf, divUBf_eq_floor (.inr rfl)]
    rfl

section Signed
variable {w : Nat}

/-- A floor by a power of two is negative exactly when the value is. -/
theorem ediv_two_pow_neg_iff (x : Int) (k : Nat) : x / 2 ^ k < 0 ↔ x < 0 := by
  rw [← not_le, Int.ediv_nonneg_iff_of_pos (by positivity), not_le]

/-- The signed branchfull quotient before `NEG` is applied (43_scalar_divide.md R176). -/
def divSMagnitude (dv : Divider w .signed .branchfull) (n : BitVec w) : BitVec w :=
  if pow2Of dv then signedShift (shiftOf dv) n
  else
    let q0 := sar (signedHigh (addOf dv) dv.magic n) (shiftOf dv)
    if q0.msb then addW q0 1#w else q0

theorem divS_eq_cneg (dv : Divider w .signed .branchfull) (n : BitVec w) :
    divS dv n = cneg (divSMagnitude dv n) (smask w (negOf dv)) := by
  rw [divSMagnitude, apply_ite (cneg · (smask w (negOf dv)))]
  rfl

theorem toInt_divSMagnitude_of_pow2 {dv : Divider w .signed .branchfull} (hlt : shiftOf dv < w) (hp : pow2Of dv = true)
    (n : BitVec w) : (divSMagnitude dv n).toInt = n.toInt.tdiv (2 ^ shiftOf dv) := by
  rw [divSMagnitude, if_pos hp, toInt_signedShift hlt]

theorem toInt_divSMagnitude_of_not_pow2 {dv : Divider w .signed .branchfull} (hw : 0 < w) (hp : pow2Of dv = false)
    (n : BitVec w) :
    (divSMagnitude dv n).toInt = (signedHigh (addOf dv) dv.magic n).toInt / 2 ^ shiftOf dv +
      if (signedHigh (addOf dv) dv.magic n).toInt < 0 then 1 else 0 := by
  rw [divSMagnitude, if_neg (by simp [hp]), toInt_round_toward_zero hw, toInt_sar]
  simp only [ediv_two_pow_neg_iff]

/-- With `ADD` as the top bit of `magic` the signed high multiply is that of the unsigned `magic` (40_arithmetic.md R100). -/
theorem toInt_signedHigh_msb (hw : 0 < w) (m n : BitVec w) : (signedHigh m.msb m n).toInt = n.toInt * m.toNat / 2 ^ w := by
  obtain ⟨hlo, hhi⟩ := mixed_sign_range m n
  rw [toInt_signedHigh, mixed_sign_floor, ← BitVec.toInt_ofInt]
  exact toInt_ofInt_of_range hw hlo hhi

theorem mul_toNat_neg_iff (m n : BitVec w) : n.toInt * m.toNat < 0 ↔ n.toInt < 0 ∧ m ≠ 0 := by
  by_cases hm : m = 0
  · simp [hm]
  · have hne : m.toNat ≠ 0 := fun h => hm (BitVec.eq_of_toNat_eq (by simpa using h))
    have hpos : (0 : Int) < m.toNat := by omega
    rw [and_iff_left hm]
    exact ⟨fun h => neg_of_mul_neg_left h hpos.le, fun h => mul_neg_of_neg_of_pos h hpos⟩

theorem signedHigh_floor (hw : 0 < w) (m n : BitVec w) (k : Nat) :
    (signedHigh m.msb m n).toInt / 2 ^ k + (if (signedHigh m.msb m n).toInt < 0 then 1 else 0) =
      n.toInt * m.toNat / 2 ^ (w + k) + if n.toInt < 0 ∧ m ≠ 0 then 1 else 0 := by
  rw [toInt_signedHigh_msb hw, Int.ediv_ediv_of_nonneg (by positivity), ← pow_add]
  simp only [ediv_two_pow_neg_iff, mul_toNat_neg_iff]

/-- The signed branchfull division as integers, in the cases of the rule (43_scalar_divide.md R174, R176). -/
theorem divS_spec (hw : w = 32 ∨ w = 64) (dv : Divider w .signed .branchfull) (n : BitVec w) :
    ∃ q0 : Int, divS dv n = BitVec.ofInt w (if dv.ctl.getLsbD 7 then -q0 else q0) ∧
      (dv.ctl.getLsbD 8 = true → q0 = n.toInt.tdiv (2 ^ (dv.ctl.toNat % w))) ∧
      (dv.ctl.getLsbD 8 = false → ∃ hi : Int,
        hi = (dv.magic.toInt * n.toInt / 2 ^ w + if dv.ctl.getLsbD 6 then n.toInt else 0).bmod (2 ^ w) ∧
        q0 = hi / 2 ^ (dv.ctl.toNat % w) + if hi < 0 then 1 else 0) ∧
      (dv.ctl.getLsbD 8 = false → dv.ctl.getLsbD 6 = dv.magic.msb →
        q0 = n.toInt * dv.magic.toNat / 2 ^ (w + dv.ctl.toNat % w) + if n.toInt < 0 ∧ dv.magic ≠ 0 then 1 else 0) := by
  have hpos : 0 < w := by omega
  rw [← shiftOf_eq hw dv]
  refine ⟨(divSMagnitude dv n).toInt, ?_, fun hp => ?_, fun hp => ?_, fun hp hadd => ?_⟩
  · rw [divS_eq_cneg, ofInt_toInt_cneg]
    rfl
  · exact toInt_divSMagnitude_of_pow2 (shiftOf_lt hw dv) hp n
  · exact ⟨_, toInt_signedHigh (addOf dv) dv.magic n, toInt_divSMagnitude_of_not_pow2 hpos hp n⟩
  · have hmsb : addOf dv = dv.magic.msb := hadd
    rw [toInt_divSMagnitude_of_not_pow2 hpos hp, hmsb, signedHigh_floor hpos]

/-- The signed branchfree division as integers (43_scalar_divide.md R178). -/
theorem divSBf_spec (hw : w = 32 ∨ w = 64) (dv : Divider w .signed .branchfree) (n : BitVec w) :
    ∃ q : Int, q = (dv.magic.toInt * n.toInt / 2 ^ w + n.toInt).bmod (2 ^ w) ∧
      ∃ q0 : Int, q0 = (if q < 0 then q + 2 ^ (dv.ctl.toNat % w) - (dv.ctl.getLsbD 8).toNat else q) / 2 ^ (dv.ctl.toNat % w) ∧
        divSBf dv n = BitVec.ofInt w (if dv.ctl.getLsbD 7 then -q0 else q0) := by
  have hq : (addW (mulhs dv.magic n) n).toInt = (dv.magic.toInt * n.toInt / 2 ^ w + n.toInt).bmod (2 ^ w) := by
    rw [addW_eq, BitVec.toInt_add, toInt_mulhs]
  rw [← shiftOf_eq hw dv]
  refine ⟨_, hq, (signedBfCore dv.magic (bias w (shiftOf dv) (pow2Of dv)) n (shiftOf dv)).toInt, ?_, ?_⟩
  · rw [signedBfCore, toInt_sar, toInt_add_masked_bias (shiftOf_lt hw dv), add_sub_assoc]
    rfl
  · rw [divSBf, ofInt_toInt_cneg]
    rfl

end Signed

/-- Settles O35: the signed branchfull division at the two widths. -/
theorem signedBranchfullQuotient : Obligations.SignedBranchfullQuotient := by
  constructor
  · intro dv n s
    obtain ⟨q0, hdiv, cases_of_q0⟩ := divS_spec (.inl rfl) dv n
    exact ⟨q0, by rw [exec_divS32, hdiv]; rfl, cases_of_q0⟩
  · intro dv n s
    obtain ⟨q0, hdiv, cases_of_q0⟩ := divS_spec (.inr rfl) dv n
    exact ⟨q0, by rw [exec_divS64, hdiv]; rfl, cases_of_q0⟩

/-- Settles O36: the signed branchfree division at the two widths. -/
theorem signedBranchfreeQuotient : Obligations.SignedBranchfreeQuotient := by
  constructor
  · intro dv n s
    obtain ⟨q, hq, q0, hq0, hdiv⟩ := divSBf_spec (.inl rfl) dv n
    exact ⟨q, hq, q0, hq0, by rw [exec_divS32Bf, hdiv]; rfl⟩
  · intro dv n s
    obtain ⟨q, hq, q0, hq0, hdiv⟩ := divSBf_spec (.inr rfl) dv n
    exact ⟨q, hq, q0, hq0, by rw [exec_divS64Bf, hdiv]; rfl⟩

end Sys2Proof.Machine
end

section
/-! PROOFS. The bits of `ctl` that each operation reads (30_encoding.md R66, R67): an operation sees `ctl` through a mask, and Dividers
that agree under the mask get the same response. -/

namespace Sys2Proof.Machine

section Masked
variable {c e m : Ctl}

/-- A bit inside the mask is seen through it. -/
theorem getLsbD_eq_of_and_eq (h : c &&& m = e &&& m) {k : Nat} (hk : m.getLsbD k = true) : c.getLsbD k = e.getLsbD k := by
  have hbit := congrArg (BitVec.getLsbD · k) h
  simpa only [BitVec.getLsbD_and, hk, Bool.and_true] using hbit

/-- So are the low bits, when the mask holds them all. -/
theorem toNat_mod_eq_of_and_eq (h : c &&& m = e &&& m) {k : Nat} (hk : m.toNat % 2 ^ k = 2 ^ k - 1) :
    c.toNat % 2 ^ k = e.toNat % 2 ^ k := by
  have hlow (x : Ctl) : (x &&& m).toNat % 2 ^ k = x.toNat % 2 ^ k := by
    rw [BitVec.toNat_and, Nat.and_mod_two_pow, hk, Nat.and_two_pow_sub_one_eq_mod, Nat.mod_mod]
  rw [← hlow c, h, hlow e]

/-- A STRAT reads `POW2` and `ADD` (42_classify.md R153). -/
theorem strategyOf_eq_of_and_eq (h : c &&& 0x0140 = e &&& 0x0140) : strategyOf c = strategyOf e := by
  rw [strategyOf, strategyOf, getLsbD_eq_of_and_eq h (k := 8) rfl, getLsbD_eq_of_and_eq h (k := 6) rfl]

theorem next_classify_eq_of_and_eq (h : c &&& 0x0140 = e &&& 0x0140) (s : State) :
    (.next (classify c s) : Host.Outcome State Fault Refusal) = .next (classify e s) := by
  rw [classify, classify, strategyOf_eq_of_and_eq h]

variable {w : Nat} {sg : Signedness} {va : Variant} {dv ev : Divider w sg va}

theorem shiftOf_eq_of_and_eq (hw : w = 32 ∨ w = 64) (h : dv.ctl &&& m = ev.ctl &&& m) (hm : m.toNat % w = w - 1) :
    shiftOf dv = shiftOf ev := by
  rw [shiftOf_eq hw, shiftOf_eq hw]
  rcases hw with rfl | rfl
  · exact toNat_mod_eq_of_and_eq (k := 5) h hm
  · exact toNat_mod_eq_of_and_eq (k := 6) h hm

theorem addOf_eq_of_and_eq (h : dv.ctl &&& m = ev.ctl &&& m) (hm : m.getLsbD 6 = true) : addOf dv = addOf ev :=
  getLsbD_eq_of_and_eq h hm

theorem negOf_eq_of_and_eq (h : dv.ctl &&& m = ev.ctl &&& m) (hm : m.getLsbD 7 = true) : negOf dv = negOf ev :=
  getLsbD_eq_of_and_eq h hm

theorem pow2Of_eq_of_and_eq (h : dv.ctl &&& m = ev.ctl &&& m) (hm : m.getLsbD 8 = true) : pow2Of dv = pow2Of ev :=
  getLsbD_eq_of_and_eq h hm

end Masked

section Kinds
variable {w : Nat} {m : Ctl}

theorem divU_eq_of_and_eq (hw : w = 32 ∨ w = 64) {dv ev : Divider w .unsigned .branchfull} (hmagic : dv.magic = ev.magic)
    (h : dv.ctl &&& m = ev.ctl &&& m) (hshift : m.toNat % w = w - 1) (hadd : m.getLsbD 6 = true) (hpow2 : m.getLsbD 8 = true) :
    divU dv = divU ev := by
  funext n
  rw [divU, divU, hmagic, shiftOf_eq_of_and_eq hw h hshift, addOf_eq_of_and_eq h hadd, pow2Of_eq_of_and_eq h hpow2]

theorem divS_eq_of_and_eq (hw : w = 32 ∨ w = 64) {dv ev : Divider w .signed .branchfull} (hmagic : dv.magic = ev.magic)
    (h : dv.ctl &&& m = ev.ctl &&& m) (hshift : m.toNat % w = w - 1) (hadd : m.getLsbD 6 = true) (hneg : m.getLsbD 7 = true)
    (hpow2 : m.getLsbD 8 = true) : divS dv = divS ev := by
  funext n
  rw [divS, divS, hmagic, shiftOf_eq_of_and_eq hw h hshift, addOf_eq_of_and_eq h hadd, negOf_eq_of_and_eq h hneg,
    pow2Of_eq_of_and_eq h hpow2]

theorem divUBf_eq_of_and_eq (hw : w = 32 ∨ w = 64) {dv ev : Divider w .unsigned .branchfree} (hmagic : dv.magic = ev.magic)
    (h : dv.ctl &&& m = ev.ctl &&& m) (hshift : m.toNat % w = w - 1) : divUBf dv = divUBf ev := by
  funext n
  rw [divUBf, divUBf, hmagic, shiftOf_eq_of_and_eq hw h hshift]

theorem divSBf_eq_of_and_eq (hw : w = 32 ∨ w = 64) {dv ev : Divider w .signed .branchfree} (hmagic : dv.magic = ev.magic)
    (h : dv.ctl &&& m = ev.ctl &&& m) (hshift : m.toNat % w = w - 1) (hneg : m.getLsbD 7 = true) (hpow2 : m.getLsbD 8 = true) :
    divSBf dv = divSBf ev := by
  funext n
  rw [divSBf, divSBf, hmagic, shiftOf_eq_of_and_eq hw h hshift, negOf_eq_of_and_eq h hneg, pow2Of_eq_of_and_eq h hpow2]

/-- With `POW2` set the quotient is a shift: neither `magic` nor `ADD` is read (43_scalar_divide.md R174). -/
theorem divU_eq_of_pow2 (hw : w = 32 ∨ w = 64) {dv ev : Divider w .unsigned .branchfull} (hp : dv.ctl.getLsbD 8 = true)
    (h : dv.ctl &&& m = ev.ctl &&& m) (hshift : m.toNat % w = w - 1) (hpow2 : m.getLsbD 8 = true) : divU dv = divU ev := by
  have hdv : pow2Of dv = true := hp
  have hev : pow2Of ev = true := (pow2Of_eq_of_and_eq h hpow2).symm.trans hp
  funext n
  rw [divU, divU, if_pos hdv, if_pos hev, shiftOf_eq_of_and_eq hw h hshift]

theorem divS_eq_of_pow2 (hw : w = 32 ∨ w = 64) {dv ev : Divider w .signed .branchfull} (hp : dv.ctl.getLsbD 8 = true)
    (h : dv.ctl &&& m = ev.ctl &&& m) (hshift : m.toNat % w = w - 1) (hneg : m.getLsbD 7 = true) (hpow2 : m.getLsbD 8 = true) :
    divS dv = divS ev := by
  have hdv : pow2Of dv = true := hp
  have hev : pow2Of ev = true := (pow2Of_eq_of_and_eq h hpow2).symm.trans hp
  funext n
  rw [divS, divS, if_pos hdv, if_pos hev, shiftOf_eq_of_and_eq hw h hshift, negOf_eq_of_and_eq h hneg]

end Kinds

section Responses
variable {D : Type} {w : Nat} {div : D → BitVec w → Instr} {vdiv : D → Group → Instr} {f : D → BitVec w → BitVec w} {dv ev : D}

/-- Dividers with the same quotients get the same response to a DIV. -/
theorem exec_div_eq (hdiv : ∀ (s : State) dv n, exec (div dv n) s = .next (answerQuotient (f dv n) s)) (h : f dv = f ev)
    (n : BitVec w) (s : State) : exec (div dv n) s = exec (div ev n) s := by
  rw [hdiv, hdiv, h]

/-- And to a VDIV, which maps the quotient over the lanes (44_batched_divide.md R203). -/
theorem exec_vdiv_eq (hvdiv : ∀ dv nv (s : State), exec (vdiv dv nv) s = .next (answerGroup (mapLanes s.vlen (f dv) nv) s))
    (h : f dv = f ev) (nv : Group) (s : State) : exec (vdiv dv nv) s = exec (vdiv ev nv) s := by
  rw [hvdiv, hvdiv, h]

end Responses

/-- Settles O37: each mask holds the fields that the kind's division reads. -/
theorem bitsNotReadDoNotMatter : Obligations.BitsNotReadDoNotMatter := by
  refine ⟨?_, ?_, ?_, ?_, ?_, ?_, ?_, ?_⟩
  · intro dv ev n nv s
    refine ⟨fun hmagic h => ?_, fun h => next_classify_eq_of_and_eq h s, fun hp h => ?_⟩
    · have hf := divU_eq_of_and_eq (.inl rfl) hmagic h rfl rfl rfl
      exact ⟨exec_div_eq exec_divU32 hf n s, exec_vdiv_eq exec_vdivU32 hf nv s⟩
    · exact exec_div_eq exec_divU32 (divU_eq_of_pow2 (.inl rfl) hp h rfl rfl) n s
  · intro dv ev n nv s
    refine ⟨fun hmagic h => ?_, fun h => next_classify_eq_of_and_eq h s, fun hp h => ?_⟩
    · have hf := divU_eq_of_and_eq (.inr rfl) hmagic h rfl rfl rfl
      exact ⟨exec_div_eq exec_divU64 hf n s, exec_vdiv_eq exec_vdivU64 hf nv s⟩
    · exact exec_div_eq exec_divU64 (divU_eq_of_pow2 (.inr rfl) hp h rfl rfl) n s
  · intro dv ev n nv s
    refine ⟨fun hmagic h => ?_, fun h => next_classify_eq_of_and_eq h s, fun hp h => ?_⟩
    · have hf := divS_eq_of_and_eq (.inl rfl) hmagic h rfl rfl rfl rfl
      exact ⟨exec_div_eq exec_divS32 hf n s, exec_vdiv_eq exec_vdivS32 hf nv s⟩
    · exact exec_div_eq exec_divS32 (divS_eq_of_pow2 (.inl rfl) hp h rfl rfl rfl) n s
  · intro dv ev n nv s
    refine ⟨fun hmagic h => ?_, fun h => next_classify_eq_of_and_eq h s, fun hp h => ?_⟩
    · have hf := divS_eq_of_and_eq (.inr rfl) hmagic h rfl rfl rfl rfl
      exact ⟨exec_div_eq exec_divS64 hf n s, exec_vdiv_eq exec_vdivS64 hf nv s⟩
    · exact exec_div_eq exec_divS64 (divS_eq_of_pow2 (.inr rfl) hp h rfl rfl rfl) n s
  · intro dv ev n nv s
    refine ⟨fun hmagic h => ?_, fun h => next_classify_eq_of_and_eq h s⟩
    have hf := divUBf_eq_of_and_eq (.inl rfl) hmagic h rfl
    exact ⟨exec_div_eq exec_divU32Bf hf n s, exec_vdiv_eq exec_vdivU32Bf hf nv s⟩
  · intro dv ev n nv s
    refine ⟨fun hmagic h => ?_, fun h => next_classify_eq_of_and_eq h s⟩
    have hf := divUBf_eq_of_and_eq (.inr rfl) hmagic h rfl
    exact ⟨exec_div_eq exec_divU64Bf hf n s, exec_vdiv_eq exec_vdivU64Bf hf nv s⟩
  · intro dv ev n nv s
    refine ⟨fun hmagic h => ?_, fun h => next_classify_eq_of_and_eq h s⟩
    have hf := divSBf_eq_of_and_eq (.inl rfl) hmagic h rfl rfl rfl
    exact ⟨exec_div_eq exec_divS32Bf hf n s, exec_vdiv_eq exec_vdivS32Bf hf nv s⟩
  · intro dv ev n nv s
    refine ⟨fun hmagic h => ?_, fun h => next_classify_eq_of_and_eq h s⟩
    have hf := divSBf_eq_of_and_eq (.inr rfl) hmagic h rfl rfl rfl
    exact ⟨exec_div_eq exec_divS64Bf hf n s, exec_vdiv_eq exec_vdivS64Bf hf nv s⟩

end Sys2Proof.Machine
end

section
/-! PROOFS. The primitives of 40_arithmetic.md: the mixed-sign high multiply and the assemblies of the 64-bit high multiplies from
32-bit halves (section 4), the test for a power of two (section 5), the signed division (section 7) and the sign corrections
(sections 2 and 3). -/

namespace Sys2Proof.Machine

section MixedSign
variable {w : Nat}

/-- With `ADD` as the top bit of `magic` the signed high multiply is the pattern of one floor (40_arithmetic.md R100). -/
theorem signedHigh_msb_eq_ofInt (hw : 0 < w) (m n : BitVec w) :
    signedHigh m.msb m n = BitVec.ofInt w ((m.toNat : Int) * n.toInt / 2 ^ w) := by
  rw [mul_comm, ← toInt_signedHigh_msb hw, BitVec.ofInt_toInt]

end MixedSign

/-- Settles O48: the two cases of the top bit are the two forms of the signed high multiply. -/
theorem mixedSignHighMultiply : Obligations.MixedSignHighMultiply := by
  intro w hw m n
  have hfloor := signedHigh_msb_eq_ofInt (by omega) m n
  obtain ⟨hlo, hhi⟩ := mixed_sign_range m n
  rw [mul_comm] at hlo hhi
  constructor
  · intro hm
    rw [hm] at hfloor
    exact ⟨hfloor, hlo, Int.le_sub_one_of_lt hhi⟩
  · intro hm
    rw [hm] at hfloor
    exact hfloor

section Lines

/-- The lines of R102 and R103 add up to the upper part of the product of two two-digit numbers in base `b`. -/
theorem lines_eq_high_product {b x0 x1 y0 y1 t : Int} (hb : 0 < b) (ht : t = x1 * y0 + x0 * y0 / b) :
    x1 * y1 + t / b + (t % b + x0 * y1) / b = (b * x1 + x0) * (b * y1 + y0) / (b * b) := by
  have hexpand : (b * x1 + x0) * (b * y1 + y0) = x0 * y0 + (b * (x1 * y1) + x1 * y0 + x0 * y1) * b := by ring
  have hsplit : t + (x1 * y1 * b + x0 * y1) = t % b + x0 * y1 + (x1 * y1 + t / b) * b := by
    have hdigits := Int.emod_add_ediv_mul t b
    linarith
  calc x1 * y1 + t / b + (t % b + x0 * y1) / b = (t + (x1 * y1 * b + x0 * y1)) / b := by
        rw [hsplit, Int.add_mul_ediv_right _ _ hb.ne', add_comm]
    _ = (b * x1 + x0) * (b * y1 + y0) / b / b := by
        rw [hexpand, Int.add_mul_ediv_right _ _ hb.ne', ht]
        ring_nf
    _ = (b * x1 + x0) * (b * y1 + y0) / (b * b) := Int.ediv_ediv_of_nonneg hb.le

variable {w : Nat}

theorem addW_ofNat (a b : Nat) : addW (BitVec.ofNat w a) (BitVec.ofNat w b) = BitVec.ofNat w (a + b) := by
  rw [addW_eq, BitVec.ofNat_add]

theorem addW_ofInt (a b : Int) : addW (BitVec.ofInt w a) (BitVec.ofInt w b) = BitVec.ofInt w (a + b) := by
  rw [addW_eq, BitVec.ofInt_add]

theorem shr_ofNat {a : Nat} (h : a < 2 ^ w) (k : Nat) : shr (BitVec.ofNat w a) k = BitVec.ofNat w (a / 2 ^ k) := by
  rw [shr, BitVec.toNat_ofNat, Nat.mod_eq_of_lt h]

theorem sar_ofInt (hw : 0 < w) {i : Int} (h1 : -2 ^ (w - 1) ≤ i) (h2 : i < 2 ^ (w - 1)) (k : Nat) :
    sar (BitVec.ofInt w i) k = BitVec.ofInt w (i / 2 ^ k) := by
  rw [sar, toInt_ofInt_of_range hw h1 h2]

theorem setWidth_lowHalf (x : BitVec 64) : (x.extractLsb' 0 32).setWidth 64 = BitVec.ofNat 64 (x.toNat % 2 ^ 32) := by
  rw [← BitVec.ofNat_toNat, BitVec.extractLsb'_toNat, Nat.shiftRight_zero]

theorem setWidth_highHalf (x : BitVec 64) : (x.extractLsb' 32 32).setWidth 64 = BitVec.ofNat 64 (x.toNat / 2 ^ 32) := by
  have hx := x.isLt
  rw [← BitVec.ofNat_toNat, BitVec.extractLsb'_toNat, Nat.shiftRight_eq_div_pow, Nat.mod_eq_of_lt (by omega)]

/-- The low half of a two's-complement pattern is its residue, of either sign. -/
theorem setWidth_lowHalf_eq_ofInt (x : BitVec 64) :
    (x.extractLsb' 0 32).setWidth 64 = BitVec.ofInt 64 (x.toInt % 2 ^ 32) := by
  have h : x.toInt % 2 ^ 32 = ((x.toNat % 2 ^ 32 : Nat) : Int) := by
    rw [BitVec.toInt_eq_toNat_cond]
    omega
  rw [h, BitVec.ofInt_natCast, setWidth_lowHalf]

/-- The high half of a two's-complement pattern, read as signed, is its floor. -/
theorem signExtend_highHalf (x : BitVec 64) : (x.extractLsb' 32 32).signExtend 64 = BitVec.ofInt 64 (x.toInt / 2 ^ 32) := by
  have h : (x.extractLsb' 32 32).toInt = x.toInt / 2 ^ 32 := by
    have hx := x.isLt
    rw [BitVec.toInt_eq_toNat_cond, BitVec.toInt_eq_toNat_cond, BitVec.extractLsb'_toNat, Nat.shiftRight_eq_div_pow]
    omega
  rw [BitVec.signExtend, h]

/-- The product of two unsigned halves has room for one more half. -/
theorem half_mul_add_lt {a b c : Nat} (ha : a < 2 ^ 32) (hb : b < 2 ^ 32) (hc : c < 2 ^ 32) : a * b + c < 2 ^ 64 := by
  have hab : a * b ≤ (2 ^ 32 - 1) * (2 ^ 32 - 1) := Nat.mul_le_mul (by omega) (by omega)
  omega

/-- So has the product of a signed half and an unsigned one, among the signed values. -/
theorem signed_half_mul_add_range {a b c : Int} (ha1 : -2 ^ 31 ≤ a) (ha2 : a < 2 ^ 31) (hb1 : 0 ≤ b) (hb2 : b < 2 ^ 32)
    (hc1 : 0 ≤ c) (hc2 : c < 2 ^ 32) : -2 ^ (64 - 1) ≤ a * b + c ∧ a * b + c < 2 ^ (64 - 1) := by
  have hlo : -2 ^ 31 * b ≤ a * b := mul_le_mul_of_nonneg_right ha1 hb1
  have hhi : a * b ≤ (2 ^ 31 - 1) * b := mul_le_mul_of_nonneg_right (by omega) hb1
  omega

theorem half_mul_div_lt {a b : Nat} (ha : a < 2 ^ 32) (hb : b < 2 ^ 32) : a * b / 2 ^ 32 < 2 ^ 32 :=
  Nat.div_lt_of_lt_mul (Nat.mul_lt_mul'' ha hb)

end Lines

section UnsignedAssembly

theorem halves_lt (x : BitVec 64) : x.toNat % 2 ^ 32 < 2 ^ 32 ∧ x.toNat / 2 ^ 32 < 2 ^ 32 :=
  ⟨Nat.mod_lt _ (by positivity), Nat.div_lt_of_lt_mul x.isLt⟩

/-- No carry out of the last middle line of R102. -/
theorem mod_half_add_mul_lt {a b : Nat} (ha : a < 2 ^ 32) (hb : b < 2 ^ 32) (t : Nat) : t % 2 ^ 32 + a * b < 2 ^ 64 := by
  rw [Nat.add_comm]
  exact half_mul_add_lt ha hb (Nat.mod_lt t (by positivity))

/-- The exact value of the last line of R102. -/
theorem toNat_mulhu_eq_lines {x y : BitVec 64} {x0 x1 y0 y1 t : Nat} (hx : x.toNat = 2 ^ 32 * x1 + x0)
    (hy : y.toNat = 2 ^ 32 * y1 + y0) (ht : t = x1 * y0 + x0 * y0 / 2 ^ 32) :
    (mulhu x y).toNat = x1 * y1 + t / 2 ^ 32 + (t % 2 ^ 32 + x0 * y1) / 2 ^ 32 := by
  have h := lines_eq_high_product (b := 2 ^ 32) (x0 := x0) (x1 := x1) (y0 := y0) (y1 := y1) (t := t) (by positivity)
    (by exact_mod_cast ht)
  norm_cast at h
  rw [toNat_mulhu, hx, hy, h, ← Nat.pow_add]

/-- No line of R102 wraps, so the assembly is the pattern of its exact value. -/
theorem mulhuFromHalves_eq_mulhu (x y : BitVec 64) : mulhuFromHalves x y = mulhu x y := by
  obtain ⟨hx0, hx1⟩ := halves_lt x
  obtain ⟨hy0, hy1⟩ := halves_lt y
  have hlines := toNat_mulhu_eq_lines (Nat.div_add_mod x.toNat (2 ^ 32)).symm (Nat.div_add_mod y.toNat (2 ^ 32)).symm rfl
  simp only [mulhuFromHalves, setWidth_lowHalf, setWidth_highHalf, ← BitVec.ofNat_mul]
  generalize x.toNat % 2 ^ 32 = x0 at *
  generalize y.toNat % 2 ^ 32 = y0 at *
  generalize x.toNat / 2 ^ 32 = x1 at *
  generalize y.toNat / 2 ^ 32 = y1 at *
  have hp00 : x0 * y0 < 2 ^ 64 := half_mul_add_lt hx0 hy0 (c := 0) (by positivity)
  have ht : x1 * y0 + x0 * y0 / 2 ^ 32 < 2 ^ 64 := half_mul_add_lt hx1 hy0 (half_mul_div_lt hx0 hy0)
  rw [shr_ofNat hp00, addW_ofNat, shr_ofNat ht, BitVec.toNat_ofNat, Nat.mod_eq_of_lt ht, addW_ofNat, addW_ofNat,
    shr_ofNat (mod_half_add_mul_lt hx0 hy1 _), addW_ofNat, ← hlines, BitVec.ofNat_toNat, BitVec.setWidth_eq]

end UnsignedAssembly

/-- Settles O49: products of halves, each with at most one more half added, stay below `2^64`. -/
theorem highMultiplyFromHalvesIsExact : Obligations.HighMultiplyFromHalvesIsExact := by
  intro x y
  refine ⟨mulhuFromHalves_eq_mulhu x y, ?_⟩
  rintro x0 x1 y0 y1 p t rfl rfl rfl rfl rfl ht
  obtain ⟨hx0, hx1⟩ := halves_lt x
  obtain ⟨hy0, hy1⟩ := halves_lt y
  have hzero : 0 < 2 ^ 32 := by positivity
  exact ⟨half_mul_add_lt hx0 hy0 hzero, half_mul_add_lt hx0 hy1 hzero, half_mul_add_lt hx1 hy0 hzero,
    half_mul_add_lt hx1 hy1 hzero, ht ▸ half_mul_add_lt hx1 hy0 (half_mul_div_lt hx0 hy0), mod_half_add_mul_lt hx0 hy1 t,
    toNat_mulhu_eq_lines (Nat.div_add_mod ..).symm (Nat.div_add_mod ..).symm ht⟩

section SignedAssembly

/-- The exact value of the last line of R103. -/
theorem mulhs_eq_lines {x y : BitVec 64} {x0 x1 y0 y1 t : Int} (hx : x.toInt = 2 ^ 32 * x1 + x0)
    (hy : y.toInt = 2 ^ 32 * y1 + y0) (ht : t = x1 * y0 + x0 * y0 / 2 ^ 32) :
    mulhs x y = BitVec.ofInt 64 (x1 * y1 + t / 2 ^ 32 + (t % 2 ^ 32 + x0 * y1) / 2 ^ 32) := by
  rw [lines_eq_high_product (by positivity) ht, ← pow_add, mulhs, hx, hy]

/-- The signed halves of a 64-bit pattern: the upper one signed, the lower one not. -/
theorem signed_halves_range (x : BitVec 64) :
    (0 ≤ x.toInt % 2 ^ 32 ∧ x.toInt % 2 ^ 32 < 2 ^ 32) ∧ -2 ^ 31 ≤ x.toInt / 2 ^ 32 ∧ x.toInt / 2 ^ 32 < 2 ^ 31 := by
  obtain ⟨h1, h2⟩ := toInt_range x
  omega

/-- The product of two unsigned halves, its upper part as a signed pattern. -/
theorem shr_ofInt_mul {a b : Int} (ha1 : 0 ≤ a) (ha2 : a < 2 ^ 32) (hb1 : 0 ≤ b) (hb2 : b < 2 ^ 32) :
    shr (BitVec.ofInt 64 (a * b)) 32 = BitVec.ofInt 64 (a * b / 2 ^ 32) := by
  lift a to Nat using ha1
  lift b to Nat using hb1
  norm_cast at *
  rw [BitVec.ofInt_natCast, BitVec.ofInt_natCast]
  exact shr_ofNat (half_mul_add_lt ha2 hb2 (c := 0) (by positivity)) 32

/-- No signed line of R103 wraps before its shift, so the assembly is the pattern of its exact value. -/
theorem mulhsFromHalves_eq_mulhs (x y : BitVec 64) : mulhsFromHalves x y = mulhs x y := by
  have hp : (0 : Int) < 2 ^ 32 := by positivity
  obtain ⟨⟨hx0, hx0'⟩, hx1, hx1'⟩ := signed_halves_range x
  obtain ⟨⟨hy0, hy0'⟩, hy1, hy1'⟩ := signed_halves_range y
  rw [mulhs_eq_lines (Int.mul_ediv_add_emod x.toInt (2 ^ 32)).symm (Int.mul_ediv_add_emod y.toInt (2 ^ 32)).symm rfl]
  simp only [mulhsFromHalves, setWidth_lowHalf_eq_ofInt, signExtend_highHalf, ← BitVec.ofInt_mul]
  generalize x.toInt % 2 ^ 32 = x0 at *
  generalize y.toInt % 2 ^ 32 = y0 at *
  generalize x.toInt / 2 ^ 32 = x1 at *
  generalize y.toInt / 2 ^ 32 = y1 at *
  have hp0 : 0 ≤ x0 * y0 / 2 ^ 32 := Int.ediv_nonneg (mul_nonneg hx0 hy0) hp.le
  have hp0' : x0 * y0 / 2 ^ 32 < 2 ^ 32 := Int.ediv_lt_of_lt_mul hp (mul_lt_mul'' hx0' hy0' hx0 hy0)
  obtain ⟨ht, ht'⟩ := signed_half_mul_add_range hx1 hx1' hy0 hy0' hp0 hp0'
  rw [shr_ofInt_mul hx0 hx0' hy0 hy0', addW_ofInt, sar_ofInt (by norm_num) ht ht',
    toInt_ofInt_of_range (by norm_num) ht ht']
  generalize x1 * y0 + x0 * y0 / 2 ^ 32 = t at *
  obtain ⟨hw1, hw1'⟩ := signed_half_mul_add_range hy1 hy1' hx0 hx0' (Int.emod_nonneg t hp.ne') (Int.emod_lt_of_pos t hp)
  rw [mul_comm y1] at hw1 hw1'
  rw [addW_ofInt, addW_ofInt, sar_ofInt (by norm_num) hw1 hw1', addW_ofInt, add_comm (x0 * y1)]

end SignedAssembly

/-- Settles O50: the signed lines stand for their exact values up to the last sum, which wraps as `mulhs` does. -/
theorem signedHighMultiplyFromHalvesIsExact : Obligations.SignedHighMultiplyFromHalvesIsExact :=
  mulhsFromHalves_eq_mulhs

section PowerOfTwo
variable {w : Nat}

/-- A pattern is `2^k` exactly when bit `k` is its only one. -/
theorem toNat_eq_two_pow_iff_getLsbD (v : BitVec w) (k : Nat) : v.toNat = 2 ^ k ↔ ∀ i, v.getLsbD i = decide (i = k) := by
  constructor
  · intro h i
    rw [BitVec.getLsbD, h, Nat.testBit_two_pow]
    exact decide_eq_decide.mpr eq_comm
  · intro h
    refine Nat.eq_of_testBit_eq fun i => ?_
    rw [BitVec.testBit_toNat, h, Nat.testBit_two_pow]
    exact decide_eq_decide.mpr eq_comm

theorem ispow2_iff_one_bit (v : BitVec w) : ispow2 v = true ↔ ∃ k : Nat, k < w ∧ ∀ i : Nat, v.getLsbD i = decide (i = k) := by
  rw [ispow2_iff]
  constructor
  · rintro ⟨k, hk⟩
    have hlt : 2 ^ k < 2 ^ w := hk ▸ v.isLt
    exact ⟨k, (Nat.pow_lt_pow_iff_right (by norm_num)).mp hlt, (toNat_eq_two_pow_iff_getLsbD v k).mp hk⟩
  · rintro ⟨k, -, hk⟩
    exact ⟨k, (toNat_eq_two_pow_iff_getLsbD v k).mpr hk⟩

/-- The AND with the predecessor clears the lowest set bit alone, so it is zero when there is no other (40_arithmetic.md R105). -/
theorem ispow2_iff_andW_eq_zero {v : BitVec w} (h : v ≠ 0) : ispow2 v = true ↔ andW v (subW v 1#w) = 0 := by
  have hv : v.toNat ≠ 0 := fun h0 => h (BitVec.eq_of_toNat_eq (by simpa using h0))
  have hone : (1#w).toNat = 1 := by
    have hvlt := v.isLt
    rw [BitVec.toNat_ofNat, Nat.mod_eq_of_lt (by omega)]
  have hand : (andW v (subW v 1#w)).toNat = v.toNat &&& (v.toNat - 1) := by
    rw [andW, BitVec.toNat_and, subW_eq, BitVec.toNat_sub_of_le (by rw [BitVec.le_def]; omega), hone]
  rw [ispow2_iff, ← BitVec.toNat_inj, hand, BitVec.ofNat_eq_ofNat, BitVec.toNat_ofNat, Nat.zero_mod,
    Nat.and_sub_one_eq_zero_iff_isPowerOfTwo hv, Nat.isPowerOfTwo]

end PowerOfTwo

/-- Settles O51: the four readings of "a power of two". -/
theorem powerOfTwoTestIsOneBitSet : Obligations.PowerOfTwoTestIsOneBitSet :=
  fun _ _ v hv => ⟨beq_iff_eq, ispow2_iff_one_bit v, ispow2_iff_andW_eq_zero hv, fun k _ hk => ispow2_iff.mpr ⟨k, hk⟩⟩

section SignedDivision
variable {w : Nat}

/-- The truncated quotient from the magnitudes: not negative when the signs agree. -/
theorem int_tdiv_eq_natAbs_div (a b : Int) :
    a.tdiv b = if a < 0 ↔ b < 0 then ((a.natAbs / b.natAbs : Nat) : Int) else -((a.natAbs / b.natAbs : Nat) : Int) := by
  rcases lt_or_ge a 0 with ha | ha <;> rcases lt_or_ge b 0 with hb | hb
  · rw [if_pos (by omega), Int.ofNat_tdiv, Int.ofNat_natAbs_of_nonpos ha.le, Int.ofNat_natAbs_of_nonpos hb.le, Int.neg_tdiv_neg]
  · rw [if_neg (by omega), Int.ofNat_tdiv, Int.ofNat_natAbs_of_nonpos ha.le, Int.natAbs_of_nonneg hb, Int.neg_tdiv, neg_neg]
  · rw [if_neg (by omega), Int.ofNat_tdiv, Int.natAbs_of_nonneg ha, Int.ofNat_natAbs_of_nonpos hb.le, Int.tdiv_neg, neg_neg]
  · rw [if_pos (by omega), Int.ofNat_tdiv, Int.natAbs_of_nonneg ha, Int.natAbs_of_nonneg hb]

theorem tdiv_eq_ofInt (n d : BitVec w) : tdiv n d = BitVec.ofInt w (n.toInt.tdiv d.toInt) := by
  rw [int_tdiv_eq_natAbs_div, apply_ite (BitVec.ofInt w)]
  rfl

theorem tdiv_eq_sdiv (n d : BitVec w) : tdiv n d = n.sdiv d := by
  apply BitVec.eq_of_toInt_eq
  rw [tdiv_eq_ofInt, BitVec.toInt_ofInt, BitVec.toInt_sdiv]

theorem toInt_eq_min_iff (hw : 0 < w) (n : BitVec w) : n.toInt = -2 ^ (w - 1) ↔ n = BitVec.intMin w := by
  rw [← BitVec.toInt_inj, BitVec.toInt_intMin_of_pos hw]

theorem toInt_eq_neg_one_iff (hw : 0 < w) (d : BitVec w) : d.toInt = -1 ↔ d = -1#w := by
  rw [← BitVec.toInt_inj, BitVec.neg_one_eq_allOnes, BitVec.toInt_allOnes, if_pos hw]

/-- The quotient wraps at `MIN / -1` only (40_arithmetic.md R108). -/
theorem toInt_tdiv (hw : 0 < w) (n d : BitVec w) :
    (tdiv n d).toInt = if n.toInt = -2 ^ (w - 1) ∧ d.toInt = -1 then -2 ^ (w - 1) else n.toInt.tdiv d.toInt := by
  rw [tdiv_eq_sdiv]
  split
  next h =>
    obtain ⟨hn, hd⟩ := h
    rw [(toInt_eq_min_iff hw n).mp hn, (toInt_eq_neg_one_iff hw d).mp hd, BitVec.intMin_sdiv_neg_one,
      BitVec.toInt_intMin_of_pos hw]
  next h =>
    rw [toInt_eq_min_iff hw, toInt_eq_neg_one_iff hw] at h
    exact BitVec.toInt_sdiv_of_ne_or_ne n d (Decidable.not_and_iff_or_not.mp h)

end SignedDivision

/-- Settles O53: the magnitudes and signs give the truncated quotient, which is in range except at the corner. -/
theorem referenceSignedDivisionTruncates : Obligations.ReferenceSignedDivisionTruncates :=
  fun _ hw n d _ => ⟨tdiv_eq_ofInt n d, toInt_tdiv (by omega) n d⟩

/-- Settles O54: the sign corrections in the wording of the rules. -/
theorem signCorrectionNegates : Obligations.SignCorrectionNegates := by
  intro w hw v
  refine ⟨?_, ?_, toNat_uabs v, ?_⟩
  · rw [cneg_smask, if_neg (by simp)]
  · rw [ofInt_toInt_cneg, if_pos rfl]
  · rw [sar_width_sub_one (by omega), BitVec.msb_eq_toInt]
    simp only [smask, decide_eq_true_eq]

end Sys2Proof.Machine
end

section
/-! PROOFS. What each GEN answers (41_generate.md R121, R130 to R137): the violation of a refused divisor, and for every other the
Divider as an expression of integers, at every width and then at the two widths of the table. -/

namespace Sys2Proof.Machine

section Operations
variable (s : State)

theorem exec_genU32 (d : BitVec 32) : exec (.genU32 d) s = .next (generate (ugen .branchfull) d s) := rfl

theorem exec_genU64 (d : BitVec 64) : exec (.genU64 d) s = .next (generate (ugen .branchfull) d s) := rfl

theorem exec_genS32 (d : BitVec 32) : exec (.genS32 d) s = .next (generate (sgen .branchfull) d s) := rfl

theorem exec_genS64 (d : BitVec 64) : exec (.genS64 d) s = .next (generate (sgen .branchfull) d s) := rfl

theorem exec_genU32Bf (d : BitVec 32) : exec (.genU32Bf d) s = .next (generate (ugen .branchfree) d s) := rfl

theorem exec_genU64Bf (d : BitVec 64) : exec (.genU64Bf d) s = .next (generate (ugen .branchfree) d s) := rfl

theorem exec_genS32Bf (d : BitVec 32) : exec (.genS32Bf d) s = .next (generate (sgen .branchfree) d s) := rfl

theorem exec_genS64Bf (d : BitVec 64) : exec (.genS64Bf d) s = .next (generate (sgen .branchfree) d s) := rfl

end Operations

section Derivations
variable {w l : Nat}

theorem lt_width_of_two_pow_le {v : BitVec w} (h : 2 ^ l ≤ v.toNat) : l < w :=
  (Nat.pow_lt_pow_iff_right (by norm_num)).mp (h.trans_lt v.isLt)

theorem lt_64_of_two_pow_le (hw : w = 32 ∨ w = 64) {v : BitVec w} (h : 2 ^ l ≤ v.toNat) : l < 64 := by
  have hl := lt_width_of_two_pow_le h
  omega

theorem toNat_ne_zero_of_two_pow_le {v : BitVec w} (h : 2 ^ l ≤ v.toNat) : v.toNat ≠ 0 :=
  ((Nat.two_pow_pos l).trans_le h).ne'

theorem toNat_eq_zero_iff_natAbs_toInt (d : BitVec w) : d.toNat = 0 ↔ d.toInt.natAbs = 0 := by
  have hd := d.isLt
  rw [BitVec.toInt_eq_toNat_cond]
  omega

theorem toNat_ne_zero_of_two_pow_le_natAbs {d : BitVec w} (h : 2 ^ l ≤ d.toInt.natAbs) : d.toNat ≠ 0 :=
  (toNat_eq_zero_iff_natAbs_toInt d).not.mpr ((Nat.two_pow_pos l).trans_le h).ne'

theorem ispow2_iff_of_flog2 {v : BitVec w} (h : flog2 v = l) : ispow2 v = true ↔ v.toNat = 2 ^ l := by
  rw [ispow2, h, beq_iff_eq]

/-- From the second power of two on no unsigned branchfree check refuses the divisor (41_generate.md R121). -/
theorem checkDivisor_branchfree_of_two_pow_le {d : BitVec w} (hl : 1 ≤ l) (h : 2 ^ l ≤ d.toNat) :
    checkDivisor .unsigned .branchfree d = .ok () := by
  have htwo : 2 ^ 1 ≤ 2 ^ l := Nat.pow_le_pow_right (by norm_num) hl
  exact checkDivisor_branchfree (by omega) (by omega)

/-- The place of the sign in `ctl` (30_encoding.md R66). -/
theorem neg_weight (d : BitVec w) : 128 * d.msb.toNat = if d.toInt < 0 then 128 else 0 := by
  rw [BitVec.msb_eq_toInt]
  by_cases h : d.toInt < 0 <;> simp [h]

/-- The Divider of an unsigned branchfull GEN (41_generate.md R122). -/
theorem ugen_branchfull_eq (hw : w = 32 ∨ w = 64) {d : BitVec w} (h1 : 2 ^ l ≤ d.toNat) (h2 : d.toNat < 2 ^ (l + 1)) :
    ugen .branchfull d =
      if d.toNat = 2 ^ l then ⟨0, BitVec.ofNat 16 (256 + l)⟩
      else if d.toNat - 2 ^ (w + l) % d.toNat < 2 ^ l then
        ⟨BitVec.ofNat w (2 ^ (w + l) / d.toNat + 1), BitVec.ofNat 16 l⟩
      else ⟨BitVec.ofNat w (2 ^ (w + 1 + l) / d.toNat + 1), BitVec.ofNat 16 (64 + l)⟩ := by
  have hlog := flog2_eq h1 h2
  have hl := lt_64_of_two_pow_le hw h1
  simp only [ugen, hlog, ispow2_iff_of_flog2 hlog, true_and, roundingError, reciprocal, wdiv, makeCtl_eq hl]
  simp [Nat.add_right_comm]

/-- The Divider of an unsigned branchfree GEN (41_generate.md R122). -/
theorem ugen_branchfree_eq (hw : w = 32 ∨ w = 64) {d : BitVec w} (h1 : 2 ^ l ≤ d.toNat) (h2 : d.toNat < 2 ^ (l + 1)) :
    ugen .branchfree d =
      if d.toNat = 2 ^ l then ⟨0, BitVec.ofNat 16 (256 + (l - 1))⟩
      else ⟨BitVec.ofNat w (2 ^ (w + 1 + l) / d.toNat + 1), BitVec.ofNat 16 (64 + l)⟩ := by
  have hlog := flog2_eq h1 h2
  have hl := lt_64_of_two_pow_le hw h1
  have hl1 : l - 1 < 64 := by omega
  simp only [ugen, hlog, ispow2_iff_of_flog2 hlog, reciprocal, wdiv, makeCtl_eq hl, makeCtl_eq hl1]
  simp [Nat.add_right_comm]

section Signed
variable {d : BitVec w} (h1 : 2 ^ l ≤ d.toInt.natAbs) (h2 : d.toInt.natAbs < 2 ^ (l + 1))
include h1 h2

theorem flog2_uabs : flog2 (uabs d) = l := by
  rw [← toNat_uabs] at h1 h2
  exact flog2_eq h1 h2

/-- The Divider of a signed branchfull GEN (41_generate.md R126). -/
theorem sgen_branchfull_eq (hw : w = 32 ∨ w = 64) :
    sgen .branchfull d =
      if d.toInt.natAbs = 2 ^ l then ⟨0, BitVec.ofNat 16 (256 + (if d.toInt < 0 then 128 else 0) + l)⟩
      else if d.toInt.natAbs - 2 ^ (w - 1 + l) % d.toInt.natAbs < 2 ^ l then
        ⟨BitVec.ofNat w (2 ^ (w - 1 + l) / d.toInt.natAbs + 1),
          BitVec.ofNat 16 ((if d.toInt < 0 then 128 else 0) + (l - 1))⟩
      else ⟨BitVec.ofNat w (2 ^ (w + l) / d.toInt.natAbs + 1),
          BitVec.ofNat 16 (64 + (if d.toInt < 0 then 128 else 0) + l)⟩ := by
  have hlog := flog2_uabs h1 h2
  have hl := lt_64_of_two_pow_le hw ((toNat_uabs d).symm ▸ h1)
  have hl1 : l - 1 < 64 := by omega
  simp only [sgen, hlog, ispow2_iff_of_flog2 hlog, true_and, roundingError, reciprocal, wdiv, toNat_uabs, makeCtl_eq hl,
    makeCtl_eq hl1, neg_weight]
  simp [Nat.add_comm 64]

/-- The Divider of a signed branchfree GEN (41_generate.md R126). -/
theorem sgen_branchfree_eq (hw : w = 32 ∨ w = 64) :
    sgen .branchfree d =
      if d.toInt.natAbs = 2 ^ l then ⟨0, BitVec.ofNat 16 (256 + (if d.toInt < 0 then 128 else 0) + l)⟩
      else ⟨BitVec.ofNat w (2 ^ (w + l) / d.toInt.natAbs + 1),
          BitVec.ofNat 16 (64 + (if d.toInt < 0 then 128 else 0) + l)⟩ := by
  have hlog := flog2_uabs h1 h2
  have hl := lt_64_of_two_pow_le hw ((toNat_uabs d).symm ▸ h1)
  simp only [sgen, hlog, ispow2_iff_of_flog2 hlog, reciprocal, wdiv, toNat_uabs, makeCtl_eq hl, neg_weight]
  simp [Nat.add_comm 64]

end Signed
end Derivations

section Answers
variable {w : Nat} {sg : Signedness} {va : Variant}

/-- A GEN whose checks fail answers with the violation and changes nothing else (41_generate.md R121). -/
theorem next_generate_of_error (gen : BitVec w → Divider w sg va) {d : BitVec w} {x : Violation}
    (h : checkDivisor sg va d = .error x) (s : State) :
    (.next (generate gen d s) : Host.Outcome State Fault Refusal) = .next { s with responses := s.responses ++ [.raised x] } :=
  congrArg _ (generate_error gen h s)

variable {gen : BitVec w → Instr} {g : BitVec w → Divider w sg va}

theorem exec_gen_of_ok (hgen : ∀ s d, exec (gen d) s = .next (generate g d s)) {d : BitVec w} {dv : Divider w sg va}
    (hok : checkDivisor sg va d = .ok ()) (hdv : g d = dv) (s : State) :
    exec (gen d) s = .next { s with responses := s.responses ++ [.ok (.divider w sg va dv)] } := by
  rw [hgen, next_generate_of_ok g hok, hdv]

theorem exec_gen_of_zero (hgen : ∀ s d, exec (gen d) s = .next (generate g d s)) {d : BitVec w} (h : d.toNat = 0) (s : State) :
    exec (gen d) s = .next { s with responses := s.responses ++ [.raised .divisorZero] } := by
  rw [hgen, next_generate_of_error g (checkDivisor_zero h)]

theorem exec_gen_of_one {g : BitVec w → Divider w .unsigned .branchfree}
    (hgen : ∀ s d, exec (gen d) s = .next (generate g d s)) {d : BitVec w} (h : d.toNat = 1) (s : State) :
    exec (gen d) s = .next { s with responses := s.responses ++ [.raised .divisorOneBranchfree] } := by
  rw [hgen, next_generate_of_error g (checkDivisor_one_branchfree h)]

end Answers

/-- Settles O21: the unsigned branchfull derivation at 32 bits. -/
theorem genU32AnswersItsDivider : Obligations.GenU32AnswersItsDivider :=
  fun _ s => ⟨rfl, fun h => exec_gen_of_zero exec_genU32 h s, fun _ h1 h2 =>
    exec_gen_of_ok exec_genU32 (checkDivisor_branchfull (toNat_ne_zero_of_two_pow_le h1)) (ugen_branchfull_eq (.inl rfl) h1 h2) s⟩

/-- Settles O22: the unsigned branchfull derivation at 64 bits. -/
theorem genU64AnswersItsDivider : Obligations.GenU64AnswersItsDivider :=
  fun _ s => ⟨rfl, fun h => exec_gen_of_zero exec_genU64 h s, fun _ h1 h2 =>
    exec_gen_of_ok exec_genU64 (checkDivisor_branchfull (toNat_ne_zero_of_two_pow_le h1)) (ugen_branchfull_eq (.inr rfl) h1 h2) s⟩

/-- Settles O23: the signed branchfull derivation at 32 bits. -/
theorem genS32AnswersItsDivider : Obligations.GenS32AnswersItsDivider :=
  fun _ s => ⟨rfl, fun h => exec_gen_of_zero exec_genS32 h s, fun _ h1 h2 =>
    exec_gen_of_ok exec_genS32 (checkDivisor_signed (toNat_ne_zero_of_two_pow_le_natAbs h1))
      (sgen_branchfull_eq h1 h2 (.inl rfl)) s⟩

/-- Settles O24: the signed branchfull derivation at 64 bits. -/
theorem genS64AnswersItsDivider : Obligations.GenS64AnswersItsDivider :=
  fun _ s => ⟨rfl, fun h => exec_gen_of_zero exec_genS64 h s, fun _ h1 h2 =>
    exec_gen_of_ok exec_genS64 (checkDivisor_signed (toNat_ne_zero_of_two_pow_le_natAbs h1))
      (sgen_branchfull_eq h1 h2 (.inr rfl)) s⟩

/-- Settles O25: the unsigned branchfree derivation at 32 bits. -/
theorem genU32BfAnswersItsDivider : Obligations.GenU32BfAnswersItsDivider :=
  fun _ s => ⟨rfl, fun h => exec_gen_of_zero exec_genU32Bf h s, fun h => exec_gen_of_one exec_genU32Bf h s, fun _ hl h1 h2 =>
    exec_gen_of_ok exec_genU32Bf (checkDivisor_branchfree_of_two_pow_le hl h1) (ugen_branchfree_eq (.inl rfl) h1 h2) s⟩

/-- Settles O26: the unsigned branchfree derivation at 64 bits. -/
theorem genU64BfAnswersItsDivider : Obligations.GenU64BfAnswersItsDivider :=
  fun _ s => ⟨rfl, fun h => exec_gen_of_zero exec_genU64Bf h s, fun h => exec_gen_of_one exec_genU64Bf h s, fun _ hl h1 h2 =>
    exec_gen_of_ok exec_genU64Bf (checkDivisor_branchfree_of_two_pow_le hl h1) (ugen_branchfree_eq (.inr rfl) h1 h2) s⟩

/-- Settles O27: the signed branchfree derivation at 32 bits. -/
theorem genS32BfAnswersItsDivider : Obligations.GenS32BfAnswersItsDivider :=
  fun _ s => ⟨rfl, fun h => exec_gen_of_zero exec_genS32Bf h s, fun _ h1 h2 =>
    exec_gen_of_ok exec_genS32Bf (checkDivisor_signed (toNat_ne_zero_of_two_pow_le_natAbs h1))
      (sgen_branchfree_eq h1 h2 (.inl rfl)) s⟩

/-- Settles O28: the signed branchfree derivation at 64 bits. -/
theorem genS64BfAnswersItsDivider : Obligations.GenS64BfAnswersItsDivider :=
  fun _ s => ⟨rfl, fun h => exec_gen_of_zero exec_genS64Bf h s, fun _ h1 h2 =>
    exec_gen_of_ok exec_genS64Bf (checkDivisor_signed (toNat_ne_zero_of_two_pow_le_natAbs h1))
      (sgen_branchfree_eq h1 h2 (.inr rfl)) s⟩

/-- Settles O19: the first check is the same in every GEN. -/
theorem zeroDivisorIsRejectedByEveryGen : Obligations.ZeroDivisorIsRejectedByEveryGen :=
  ⟨rfl, fun s => ⟨exec_gen_of_zero exec_genU32 rfl s, exec_gen_of_zero exec_genU64 rfl s, exec_gen_of_zero exec_genS32 rfl s,
    exec_gen_of_zero exec_genS64 rfl s, exec_gen_of_zero exec_genU32Bf rfl s, exec_gen_of_zero exec_genU64Bf rfl s,
    exec_gen_of_zero exec_genS32Bf rfl s, exec_gen_of_zero exec_genS64Bf rfl s⟩⟩

section One
variable {w : Nat} (hw : w = 32 ∨ w = 64)
include hw

theorem toNat_one : (1 : BitVec w).toNat = 1 := by
  rcases hw with rfl | rfl <;> rfl

theorem toInt_one : (1 : BitVec w).toInt = 1 := by
  rcases hw with rfl | rfl <;> rfl

/-- One is the power of two with exponent 0, so its Divider is the sentinel with shift 0. -/
theorem ugen_one : ugen .branchfull (1 : BitVec w) = ⟨0, 0x0100⟩ := by
  have h := toNat_one hw
  rw [ugen_branchfull_eq (l := 0) hw (by omega) (by omega), if_pos (by omega)]
  rfl

theorem sgen_one (va : Variant) : sgen va (1 : BitVec w) = ⟨0, 0x0100⟩ := by
  have h := toInt_one hw
  cases va with
  | branchfull =>
    rw [sgen_branchfull_eq (l := 0) (by omega) (by omega) hw, if_pos (by omega), if_neg (by omega)]
    rfl
  | branchfree =>
    rw [sgen_branchfree_eq (l := 0) (by omega) (by omega) hw, if_pos (by omega), if_neg (by omega)]
    rfl

end One

/-- Settles O20: the second check stops the unsigned branchfree GEN operations, and the others find a power of two. -/
theorem divisorOneIsRejectedByUnsignedBranchfreeOnly : Obligations.DivisorOneIsRejectedByUnsignedBranchfreeOnly :=
  ⟨rfl, fun s => ⟨exec_gen_of_ok exec_genU32 rfl (ugen_one (.inl rfl)) s, exec_gen_of_ok exec_genU64 rfl (ugen_one (.inr rfl)) s,
    exec_gen_of_ok exec_genS32 rfl (sgen_one (.inl rfl) _) s, exec_gen_of_ok exec_genS64 rfl (sgen_one (.inr rfl) _) s,
    exec_gen_of_one exec_genU32Bf rfl s, exec_gen_of_one exec_genU64Bf rfl s,
    exec_gen_of_ok exec_genS32Bf rfl (sgen_one (.inl rfl) _) s, exec_gen_of_ok exec_genS64Bf rfl (sgen_one (.inr rfl) _) s⟩⟩

end Sys2Proof.Machine
end

section
/-! PROOFS. The sign of a signed divisor: `magic`, the shift and the strategy come from the magnitude alone (41_generate.md R126,
42_classify.md R156). -/

namespace Sys2Proof.Machine

section Sign
variable {w : Nat} {va : Variant}

theorem uabs_neg (d : BitVec w) : uabs (-d) = uabs d := by
  apply BitVec.eq_of_toNat_eq
  rw [toNat_uabs, toNat_uabs]
  by_cases h : d = BitVec.intMin w
  · rw [h, BitVec.neg_intMin]
  · rw [BitVec.toInt_neg_of_ne_intMin h, Int.natAbs_neg]

/-- Negation flips the sign of every signed value but zero and the most negative one. -/
theorem msb_neg_of_ne {d : BitVec w} (h0 : d ≠ 0) (hmin : d ≠ BitVec.intMin w) : (-d).msb = !d.msb := by
  rw [BitVec.msb_neg, bne_iff_ne.mpr (show d ≠ 0#w from h0), bne_iff_ne.mpr hmin, Bool.and_self, Bool.true_xor]

/-- Flipping `NEG` is flipping bit 7 of `ctl` (30_encoding.md R66). -/
theorem makeCtl_not_neg (shift : Nat) (add neg pow2 : Bool) :
    makeCtl shift add (!neg) pow2 = makeCtl shift add neg pow2 ^^^ 0x0080 := by
  unfold makeCtl
  generalize BitVec.ofNat 6 shift = x
  revert x add neg pow2
  decide

/-- Divisors of one magnitude differ in `NEG` alone. -/
theorem sgen_eq_of_uabs (va : Variant) (a : BitVec w) :
    ∃ (m : BitVec w) (shift : Nat) (add pow2 : Bool), ∀ d, uabs d = a → sgen va d = ⟨m, makeCtl shift add d.msb pow2⟩ := by
  by_cases hp : ispow2 a = true
  · exact ⟨0, flog2 a, false, true, fun d h => by rw [sgen, h, if_pos hp]; rfl⟩
  · by_cases hc : va = .branchfull ∧ roundingError (w - 1 + flog2 a) a < 2 ^ flog2 a
    · exact ⟨_, _, false, false, fun d h => by rw [sgen, h, if_neg hp, if_pos hc]⟩
    · exact ⟨_, _, true, false, fun d h => by rw [sgen, h, if_neg hp, if_neg hc]⟩

theorem sgen_neg_divisor (va : Variant) {d : BitVec w} (h0 : d ≠ 0) (hmin : d ≠ BitVec.intMin w) :
    (sgen va (-d)).magic = (sgen va d).magic ∧ (sgen va (-d)).ctl = (sgen va d).ctl ^^^ 0x0080 := by
  obtain ⟨m, shift, add, pow2, h⟩ := sgen_eq_of_uabs va (uabs d)
  rw [h d rfl, h (-d) (uabs_neg d), msb_neg_of_ne h0 hmin]
  exact ⟨rfl, makeCtl_not_neg ..⟩

/-- `NEG` is no part of the strategy (42_classify.md R156). -/
theorem strategyOf_xor_neg (ctl : Ctl) : strategyOf (ctl ^^^ 0x0080) = strategyOf ctl := by
  rw [strategyOf, strategyOf, BitVec.getLsbD_xor, BitVec.getLsbD_xor]
  simp

theorem checkDivisor_signed_of_ne_zero {d : BitVec w} (h : d ≠ 0) : checkDivisor .signed va d = .ok () :=
  checkDivisor_signed fun h0 => h (BitVec.eq_of_toNat_eq (by simpa using h0))

theorem negated_divisor_changes_only_neg {gen : BitVec w → Instr} {strat : Divider w .signed va → Instr}
    (hgen : ∀ s d, exec (gen d) s = .next (generate (sgen va) d s))
    (hstrat : ∀ dv t, exec (strat dv) t = .next (classify dv.ctl t))
    (d : BitVec w) (s t : State) (h0 : d ≠ 0) (hmin : d ≠ BitVec.intMin w) :
    ∃ (dv nd : Divider w .signed va) (c : BitVec 2),
      exec (gen d) s = .next { s with responses := s.responses ++ [.ok (.divider w .signed va dv)] } ∧
      exec (gen (-d)) s = .next { s with responses := s.responses ++ [.ok (.divider w .signed va nd)] } ∧
      nd.magic = dv.magic ∧ nd.ctl = dv.ctl ^^^ 0x0080 ∧
      exec (strat dv) t = .next { t with responses := t.responses ++ [.ok (.strategy c)] } ∧
      exec (strat nd) t = .next { t with responses := t.responses ++ [.ok (.strategy c)] } := by
  have hneg : -d ≠ 0 := neg_ne_zero.mpr h0
  obtain ⟨hmagic, hctl⟩ := sgen_neg_divisor va h0 hmin
  refine ⟨_, _, (strategyOf (sgen va d).ctl).code, exec_gen_of_ok hgen (checkDivisor_signed_of_ne_zero h0) rfl s,
    exec_gen_of_ok hgen (checkDivisor_signed_of_ne_zero hneg) rfl s, hmagic, hctl, hstrat _ t, ?_⟩
  rw [hstrat, classify, hctl, strategyOf_xor_neg]
  rfl

end Sign

/-- Settles O31: one magnitude, and the opposite sign in bit 7, in the four signed kinds. -/
theorem negatedDivisorChangesOnlyNeg : Obligations.NegatedDivisorChangesOnlyNeg :=
  ⟨negated_divisor_changes_only_neg exec_genS32 fun _ _ => rfl, negated_divisor_changes_only_neg exec_genS64 fun _ _ => rfl,
    negated_divisor_changes_only_neg exec_genS32Bf fun _ _ => rfl, negated_divisor_changes_only_neg exec_genS64Bf fun _ _ => rfl⟩

end Sys2Proof.Machine
end

section
/-! PROOFS. The `magic` of a Divider whose divisor is no power of two, as an exact reciprocal (41_generate.md R123, R127), and the
larger power by doubling the smaller (R124). -/

namespace Sys2Proof

variable {w : Nat} {va : Variant}

/-- What makes `magic` the exact reciprocal of an unsigned divisor (41_generate.md R123). -/
structure Divider.IsUnsignedReciprocal (dv : Divider w .unsigned va) (d : Nat) : Prop where
  pow2_clear : dv.ctl.getLsbD 8 = false
  smaller : dv.ctl.getLsbD 6 = false → dv.magic.toNat = 2 ^ (w + dv.ctl.toNat % w) / d + 1 ∧
    ∀ n : Nat, n < 2 ^ w → n / d = n * dv.magic.toNat / 2 ^ (w + dv.ctl.toNat % w)
  larger : dv.ctl.getLsbD 6 = true → 2 ^ w + dv.magic.toNat = 2 ^ (w + 1 + dv.ctl.toNat % w) / d + 1 ∧
    ∀ n : Nat, n < 2 ^ w → n / d = n * (2 ^ w + dv.magic.toNat) / 2 ^ (w + 1 + dv.ctl.toNat % w)

/-- What makes `magic` the exact reciprocal of a magnitude (41_generate.md R127). -/
structure Divider.IsSignedReciprocal (dv : Divider w .signed va) (a : Nat) : Prop where
  pow2_clear : dv.ctl.getLsbD 8 = false
  magic_eq : dv.magic.toNat = 2 ^ (w + dv.ctl.toNat % w) / a + 1
  floor_eq : ∀ n : Int, -2 ^ (w - 1) ≤ n → n < 2 ^ (w - 1) →
    n * dv.magic.toNat / 2 ^ (w + dv.ctl.toNat % w) = n.tdiv a - if n < 0 then 1 else 0

end Sys2Proof

namespace Sys2Proof.Machine

section Reciprocals
variable {w : Nat} {va : Variant} {d : BitVec w}

/-- The rounding error stays below what `w` bits of numerator leave room for. -/
theorem mul_roundingError_lt {n e b l : Nat} (hn : n < 2 ^ w) (he : e < 2 ^ l) (hb : b = w + l) : n * e < 2 ^ b := by
  rw [hb, Nat.pow_add]
  exact Nat.mul_lt_mul'' hn he

theorem ctl_mod_makeCtl (hw : w = 32 ∨ w = 64) {l : Nat} (hl : l < w) (add neg pow2 : Bool) :
    (makeCtl l add neg pow2).toNat % w = l := by
  have h := shiftOf_makeCtl (sg := .unsigned) (va := .branchfull) hw 0 hl add neg pow2
  rwa [shiftOf_eq hw] at h

theorem ugen_isUnsignedReciprocal (hw : w = 32 ∨ w = 64) (hok : checkDivisor .unsigned va d = .ok ())
    (hd : ∀ k : Nat, d.toNat ≠ 2 ^ k) : (ugen va d).IsUnsignedReciprocal d.toNat := by
  obtain ⟨h0, h1⟩ := checkDivisor_eq_ok_iff.mp hok
  obtain ⟨m, l, add, pow2, hl, e, hpow, hrec⟩ := ugen_spec va h0 (h1 rfl)
  cases pow2 with
  | true =>
    obtain ⟨-, -, h⟩ := hpow rfl
    exact absurd h (hd _)
  | false =>
    obtain ⟨-, -, -, hlt, -, hlarger, hsmaller⟩ := hrec rfl
    have hpos : 0 < d.toNat := Nat.pos_of_ne_zero h0
    rw [e]
    constructor
    case pow2_clear => exact makeCtl_getLsbD_pow2 ..
    case smaller =>
      rw [makeCtl_getLsbD_add, ctl_mod_makeCtl hw hl]
      intro hadd
      obtain ⟨herr, hm⟩ := hsmaller hadd
      refine ⟨hm, fun n hn => ?_⟩
      rw [hm, reciprocal_exact hpos (mul_roundingError_lt hn herr rfl)]
    case larger =>
      rw [makeCtl_getLsbD_add, ctl_mod_makeCtl hw hl, Nat.add_right_comm w 1 l]
      intro hadd
      have hm := hlarger hadd
      have herr : d.toNat - 2 ^ (w + l + 1) % d.toNat < 2 ^ (l + 1) := by omega
      refine ⟨hm, fun n hn => ?_⟩
      rw [hm, reciprocal_exact hpos (mul_roundingError_lt hn herr (Nat.add_assoc ..))]

theorem natAbs_le_two_pow {n : Int} {k : Nat} (h1 : -2 ^ k ≤ n) (h2 : n < 2 ^ k) : n.natAbs ≤ 2 ^ k := by
  zify
  exact abs_le.mpr ⟨h1, h2.le⟩

theorem sgen_isSignedReciprocal (va : Variant) (hw : w = 32 ∨ w = 64) (h0 : d.toNat ≠ 0) (hd : ∀ k : Nat, d.toInt.natAbs ≠ 2 ^ k) :
    (sgen va d).IsSignedReciprocal d.toInt.natAbs := by
  obtain ⟨m, l, add, pow2, hl, e, hpow, hrec⟩ := sgen_spec (by omega) va h0
  cases pow2 with
  | true =>
    obtain ⟨-, -, h⟩ := hpow rfl
    exact absurd h (hd l)
  | false =>
    obtain ⟨-, -, -, -, herr, hm⟩ := hrec rfl
    have hpos : 0 < d.toInt.natAbs := Nat.pos_of_ne_zero ((toNat_eq_zero_iff_natAbs_toInt d).not.mp h0)
    rw [e]
    constructor
    case pow2_clear => exact makeCtl_getLsbD_pow2 ..
    case magic_eq => rwa [ctl_mod_makeCtl hw hl]
    case floor_eq =>
      intro n h1 h2
      rw [ctl_mod_makeCtl hw hl, hm]
      exact reciprocal_exact_int hpos herr (natAbs_le_two_pow h1 h2)

theorem two_pow_succ_div (k : Nat) {d : Nat} (hd : 0 < d) :
    2 ^ (k + 1) / d = 2 * (2 ^ k / d) + if 2 * (2 ^ k % d) ≥ d then 1 else 0 := by
  have hmod := Nat.mod_lt (2 ^ k) hd
  have hsplit : 2 ^ (k + 1) = 2 * (2 ^ k % d) + d * (2 * (2 ^ k / d)) := by
    calc 2 ^ (k + 1) = 2 * (2 ^ k % d + d * (2 ^ k / d)) := by rw [Nat.mod_add_div, pow_succ']
      _ = _ := by ring
  rw [hsplit, Nat.add_mul_div_left _ _ hd, Nat.add_comm]
  congr 1
  split
  next h => exact Nat.div_eq_of_lt_le (by omega) (by omega)
  next h => exact Nat.div_eq_of_lt (by omega)

end Reciprocals

/-- Settles O42: the smaller and the larger unsigned reciprocal at the two widths. -/
theorem unsignedMagicIsAnExactReciprocal : Obligations.UnsignedMagicIsAnExactReciprocal := by
  constructor
  · intro d s h0 hd
    have hok := checkDivisor_branchfull (sg := .unsigned) h0
    obtain ⟨hpow2, hsmaller, hlarger⟩ := ugen_isUnsignedReciprocal (.inl rfl) hok hd
    exact ⟨_, exec_gen_of_ok exec_genU32 hok rfl s, hpow2, hsmaller, hlarger⟩
  · intro d s h0 hd
    have hok := checkDivisor_branchfull (sg := .unsigned) h0
    obtain ⟨hpow2, hsmaller, hlarger⟩ := ugen_isUnsignedReciprocal (.inr rfl) hok hd
    exact ⟨_, exec_gen_of_ok exec_genU64 hok rfl s, hpow2, hsmaller, hlarger⟩

/-- Settles O43: the reciprocal of the magnitude in the four signed kinds. -/
theorem signedMagicIsAnExactReciprocal : Obligations.SignedMagicIsAnExactReciprocal := by
  refine ⟨?_, ?_, ?_, ?_⟩
  · intro d s h0 hd
    obtain ⟨hpow2, hmagic, hfloor⟩ := sgen_isSignedReciprocal .branchfull (.inl rfl) h0 hd
    exact ⟨_, exec_gen_of_ok exec_genS32 (checkDivisor_signed h0) rfl s, hpow2, hmagic, hfloor⟩
  · intro d s h0 hd
    obtain ⟨hpow2, hmagic, hfloor⟩ := sgen_isSignedReciprocal .branchfull (.inr rfl) h0 hd
    exact ⟨_, exec_gen_of_ok exec_genS64 (checkDivisor_signed h0) rfl s, hpow2, hmagic, hfloor⟩
  · intro d s h0 hd
    obtain ⟨hpow2, hmagic, hfloor⟩ := sgen_isSignedReciprocal .branchfree (.inl rfl) h0 hd
    exact ⟨_, exec_gen_of_ok exec_genS32Bf (checkDivisor_signed h0) rfl s, hpow2, hmagic, hfloor⟩
  · intro d s h0 hd
    obtain ⟨hpow2, hmagic, hfloor⟩ := sgen_isSignedReciprocal .branchfree (.inr rfl) h0 hd
    exact ⟨_, exec_gen_of_ok exec_genS64Bf (checkDivisor_signed h0) rfl s, hpow2, hmagic, hfloor⟩

/-- Settles O52: the doubled quotient takes up the doubled remainder. -/
theorem doublingGivesTheLargerPower : Obligations.DoublingGivesTheLargerPower := by
  intro w _ d k h0
  rw [two_pow_succ_div k (Nat.pos_of_ne_zero h0)]
  rfl

end Sys2Proof.Machine
end

section
/-! PROOFS. Generate, then apply, is hardware division (41_generate.md R138; 43_scalar_divide.md R170, R173): the quotient of a
generated Divider, in the two cases of its divisor, for each of the four pairs of a signedness and a variant. -/

namespace Sys2Proof.Machine

section Unsigned
variable {w : Nat} {va : Variant} {d : BitVec w}

/-- The Divider of a power of two holds the sentinel and the exponent, less one in a branchfree kind (41_generate.md R122). -/
theorem ugen_of_two_pow (hw : w = 32 ∨ w = 64) (hok : checkDivisor .unsigned va d = .ok ()) (hd : ∃ k : Nat, d.toNat = 2 ^ k) :
    (ugen va d).magic = 0 ∧ (ugen va d).ctl.getLsbD 8 = true ∧
      d.toNat = 2 ^ ((ugen va d).ctl.toNat % w + if va = .branchfree then 1 else 0) := by
  obtain ⟨h0, h1⟩ := checkDivisor_eq_ok_iff.mp hok
  obtain ⟨m, l, add, pow2, hl, e, hpow, hrec⟩ := ugen_spec va h0 (h1 rfl)
  cases pow2 with
  | true =>
    obtain ⟨hm, -, h⟩ := hpow rfl
    rw [e, ctl_mod_makeCtl hw hl]
    exact ⟨hm, makeCtl_getLsbD_pow2 .., h⟩
  | false =>
    obtain ⟨-, h, -⟩ := hrec rfl
    exact absurd hd h

theorem divU_ugen (hw : w = 32 ∨ w = 64) (h0 : d.toNat ≠ 0) (n : BitVec w) :
    divU (ugen .branchfull d) n = BitVec.ofNat w (n.toNat / d.toNat) := by
  have hok := checkDivisor_branchfull (sg := .unsigned) h0
  rw [divU_eq_floor hw]
  congr 1
  by_cases hd : ∃ k : Nat, d.toNat = 2 ^ k
  · obtain ⟨-, hpow2, hdiv⟩ := ugen_of_two_pow hw hok hd
    rw [if_pos hpow2, hdiv]
    rfl
  · obtain ⟨hpow2, hsmaller, hlarger⟩ := ugen_isUnsignedReciprocal hw hok (not_exists.mp hd)
    rw [if_neg (Bool.eq_false_iff.mp hpow2)]
    cases hadd : (ugen .branchfull d).ctl.getLsbD 6 with
    | true => exact ((hlarger hadd).2 _ n.isLt).symm
    | false => exact ((hsmaller hadd).2 _ n.isLt).symm

theorem divUBf_ugen (hw : w = 32 ∨ w = 64) (hok : checkDivisor .unsigned .branchfree d = .ok ()) (n : BitVec w) :
    divUBf (ugen .branchfree d) n = BitVec.ofNat w (n.toNat / d.toNat) := by
  rw [divUBf_eq_floor hw]
  congr 1
  by_cases hd : ∃ k : Nat, d.toNat = 2 ^ k
  · obtain ⟨hmagic, -, hdiv⟩ := ugen_of_two_pow hw hok hd
    rw [hmagic, hdiv, if_pos rfl, BitVec.ofNat_eq_ofNat, BitVec.toNat_zero, Nat.add_zero, Nat.add_assoc, Nat.add_comm 1,
      Nat.pow_add 2 w, Nat.mul_comm]
    exact Nat.mul_div_mul_left _ _ (Nat.two_pow_pos w)
  · obtain ⟨hpow2, -, hlarger⟩ := ugen_isUnsignedReciprocal hw hok (not_exists.mp hd)
    have hadd := ((ugen_bitProperties hw hok).branchfree_add rfl).mpr hpow2
    exact ((hlarger hadd).2 _ n.isLt).symm

end Unsigned

section Signed
variable {w : Nat} {va : Variant} {d : BitVec w}

/-- The Divider of a magnitude that is a power of two holds the sentinel and the exponent (41_generate.md R126). -/
theorem sgen_of_two_pow (hw : w = 32 ∨ w = 64) (h0 : d.toNat ≠ 0) (hd : ∃ k : Nat, d.toInt.natAbs = 2 ^ k) :
    (sgen va d).magic = 0 ∧ pow2Of (sgen va d) = true ∧ d.toInt.natAbs = 2 ^ shiftOf (sgen va d) := by
  obtain ⟨m, l, add, pow2, hl, e, hpow, hrec⟩ := sgen_spec (by omega) va h0
  cases pow2 with
  | true =>
    obtain ⟨hm, -, h⟩ := hpow rfl
    rw [e, shiftOf_makeCtl hw m hl]
    exact ⟨hm, pow2Of_makeCtl .., h⟩
  | false =>
    obtain ⟨-, h, -⟩ := hrec rfl
    exact absurd hd h

theorem negOf_sgen (hw : 2 ≤ w) (h0 : d.toNat ≠ 0) : negOf (sgen va d) = decide (d.toInt < 0) :=
  Bool.eq_iff_iff.mpr ((sgen_neg_iff hw (checkDivisor_signed h0)).trans decide_eq_true_iff.symm)

theorem addOf_sgen (hw : w = 32 ∨ w = 64) (h0 : d.toNat ≠ 0) (hpow2 : pow2Of (sgen va d) = false) :
    addOf (sgen va d) = (sgen va d).magic.msb :=
  Bool.eq_iff_iff.mpr ((sgen_bitProperties hw (checkDivisor_signed h0)).signed_add rfl hpow2)

/-- The truncated quotient takes the sign of the divisor (40_arithmetic.md R108). -/
theorem tdiv_eq_of_natAbs (a b : Int) : a.tdiv b = if b < 0 then -a.tdiv b.natAbs else a.tdiv b.natAbs := by
  split
  next h => rw [Int.ofNat_natAbs_of_nonpos h.le, Int.tdiv_neg, neg_neg]
  next h => rw [Int.natAbs_of_nonneg (not_lt.mp h)]

/-- A quotient by the magnitude becomes the quotient by the divisor through `NEG` (43_scalar_divide.md R173). -/
theorem cneg_quotient_of_natAbs (hw : 2 ≤ w) (h0 : d.toNat ≠ 0) {q n : BitVec w} (hq : q.toInt = n.toInt.tdiv d.toInt.natAbs) :
    cneg q (smask w (negOf (sgen va d))) = BitVec.ofInt w (n.toInt.tdiv d.toInt) := by
  rw [ofInt_toInt_cneg, hq, negOf_sgen hw h0, tdiv_eq_of_natAbs n.toInt d.toInt]
  simp only [decide_eq_true_eq]

/-- With an exact reciprocal the floor, rounded toward zero, is the quotient by the magnitude (41_generate.md R127). -/
theorem signedHigh_floor_of_isSignedReciprocal (hw : w = 32 ∨ w = 64) {dv : Divider w .signed va} {a : Nat}
    (h : dv.IsSignedReciprocal a) (n : BitVec w) :
    (signedHigh dv.magic.msb dv.magic n).toInt / 2 ^ shiftOf dv +
      (if (signedHigh dv.magic.msb dv.magic n).toInt < 0 then 1 else 0) = n.toInt.tdiv a := by
  obtain ⟨hlo, hhi⟩ := toInt_range n
  have hmagic : dv.magic ≠ 0 := by
    intro hzero
    have hm := h.magic_eq
    simp [hzero] at hm
  rw [signedHigh_floor (by omega), shiftOf_eq hw, h.floor_eq n.toInt hlo hhi]
  simp only [hmagic, ne_eq, not_false_eq_true, and_true, sub_add_cancel]

theorem toInt_divSMagnitude_sgen (hw : w = 32 ∨ w = 64) (h0 : d.toNat ≠ 0) (n : BitVec w) :
    (divSMagnitude (sgen .branchfull d) n).toInt = n.toInt.tdiv d.toInt.natAbs := by
  by_cases hd : ∃ k : Nat, d.toInt.natAbs = 2 ^ k
  · obtain ⟨-, hpow2, ha⟩ := sgen_of_two_pow (va := .branchfull) hw h0 hd
    rw [toInt_divSMagnitude_of_pow2 (shiftOf_lt hw _) hpow2, ha]
    push_cast
    rfl
  · have hrec := sgen_isSignedReciprocal .branchfull hw h0 (not_exists.mp hd)
    rw [toInt_divSMagnitude_of_not_pow2 (by omega) hrec.pow2_clear, addOf_sgen hw h0 hrec.pow2_clear,
      signedHigh_floor_of_isSignedReciprocal hw hrec]

/-- With the sentinel the branchfree formula is the shift-only value (43_scalar_divide.md R178). -/
theorem signedBfCore_zero (shift : Nat) (n : BitVec w) :
    signedBfCore 0 (bias w shift true) n shift = signedShift shift n := by
  have hhigh : addW (mulhs 0 n) n = n := by
    simp [addW_eq, mulhs]
  rw [signedBfCore, hhigh]
  rfl

/-- Without `POW2` the adjustment is `2^shift`, which adds one to the floor of a negative value (43_scalar_divide.md R178). -/
theorem toInt_signedBfCore_of_not_pow2 {shift : Nat} (hs : shift < w) (m n : BitVec w) :
    (signedBfCore m (bias w shift false) n shift).toInt =
      (signedHigh true m n).toInt / 2 ^ shift + if (signedHigh true m n).toInt < 0 then 1 else 0 := by
  have hhigh : addW (mulhs m n) n = signedHigh true m n := rfl
  rw [signedBfCore, hhigh, toInt_sar, toInt_add_masked_bias hs]
  split
  · rw [Bool.toNat_false, Nat.cast_zero, sub_zero, Int.add_ediv_of_dvd_right dvd_rfl, Int.ediv_self (by positivity)]
  · rw [add_zero]

/-- The signed branchfree quotient before `NEG` is applied (43_scalar_divide.md R178). -/
def divSBfMagnitude (dv : Divider w .signed .branchfree) (n : BitVec w) : BitVec w :=
  signedBfCore dv.magic (bias w (shiftOf dv) (pow2Of dv)) n (shiftOf dv)

theorem divSBf_eq_cneg (dv : Divider w .signed .branchfree) (n : BitVec w) :
    divSBf dv n = cneg (divSBfMagnitude dv n) (smask w (negOf dv)) := rfl

theorem toInt_divSBfMagnitude_sgen (hw : w = 32 ∨ w = 64) (h0 : d.toNat ≠ 0) (n : BitVec w) :
    (divSBfMagnitude (sgen .branchfree d) n).toInt = n.toInt.tdiv d.toInt.natAbs := by
  have hlt : shiftOf (sgen .branchfree d) < w := shiftOf_lt hw _
  by_cases hd : ∃ k : Nat, d.toInt.natAbs = 2 ^ k
  · obtain ⟨hmagic, hpow2, ha⟩ := sgen_of_two_pow (va := .branchfree) hw h0 hd
    rw [divSBfMagnitude, hmagic, hpow2, signedBfCore_zero, toInt_signedShift hlt, ha]
    push_cast
    rfl
  · have hrec := sgen_isSignedReciprocal .branchfree hw h0 (not_exists.mp hd)
    have hpow2 : pow2Of (sgen .branchfree d) = false := hrec.pow2_clear
    have hadd : addOf (sgen .branchfree d) = true :=
      ((sgen_bitProperties hw (checkDivisor_signed h0)).branchfree_add rfl).mpr hpow2
    rw [divSBfMagnitude, hpow2, toInt_signedBfCore_of_not_pow2 hlt, ← hadd, addOf_sgen hw h0 hpow2,
      signedHigh_floor_of_isSignedReciprocal hw hrec]

theorem divS_sgen (hw : w = 32 ∨ w = 64) (h0 : d.toNat ≠ 0) (n : BitVec w) :
    divS (sgen .branchfull d) n = BitVec.ofInt w (n.toInt.tdiv d.toInt) := by
  rw [divS_eq_cneg, cneg_quotient_of_natAbs (by omega) h0 (toInt_divSMagnitude_sgen hw h0 n)]

theorem divSBf_sgen (hw : w = 32 ∨ w = 64) (h0 : d.toNat ≠ 0) (n : BitVec w) :
    divSBf (sgen .branchfree d) n = BitVec.ofInt w (n.toInt.tdiv d.toInt) := by
  rw [divSBf_eq_cneg, cneg_quotient_of_natAbs (by omega) h0 (toInt_divSBfMagnitude_sgen hw h0 n)]

end Signed

section Refinement
variable {w : Nat} {sg : Signedness} {va : Variant} {gen : BitVec w → Instr} {div : Divider w sg va → BitVec w → Instr}
  {g : BitVec w → Divider w sg va} {f : Divider w sg va → BitVec w → BitVec w}

/-- What a GEN returns now, a DIV divides by at any later time (41_generate.md R138). -/
theorem generate_then_divide (hgen : ∀ s d, exec (gen d) s = .next (generate g d s))
    (hdiv : ∀ (s : State) dv n, exec (div dv n) s = .next (answerQuotient (f dv n) s)) {d : BitVec w}
    (hok : checkDivisor sg va d = .ok ()) {q : BitVec w → BitVec w} (hq : ∀ n, f (g d) n = q n) (s : State) :
    ∃ dv, exec (gen d) s = .next { s with responses := s.responses ++ [.ok (.divider w sg va dv)] } ∧
      ∀ (n : BitVec w) (t : State), exec (div dv n) t = .next { t with responses := t.responses ++ [.ok (.quotient w (q n))] } := by
  refine ⟨g d, exec_gen_of_ok hgen hok rfl s, fun n t => ?_⟩
  rw [hdiv, hq]
  rfl

end Refinement

/-- Settles O38: the shift and the two reciprocals at the two widths. -/
theorem unsignedBranchfullDivisionIsHardwareDivision : Obligations.UnsignedBranchfullDivisionIsHardwareDivision :=
  ⟨fun _ s h0 => generate_then_divide exec_genU32 exec_divU32 (checkDivisor_branchfull h0) (divU_ugen (.inl rfl) h0) s,
    fun _ s h0 => generate_then_divide exec_genU64 exec_divU64 (checkDivisor_branchfull h0) (divU_ugen (.inr rfl) h0) s⟩

/-- Settles O39: one formula, which is a shift for the sentinel and the larger reciprocal otherwise. -/
theorem unsignedBranchfreeDivisionIsHardwareDivision : Obligations.UnsignedBranchfreeDivisionIsHardwareDivision :=
  ⟨fun _ s h0 h1 =>
      have hok := checkDivisor_branchfree h0 h1
      generate_then_divide exec_genU32Bf exec_divU32Bf hok (divUBf_ugen (.inl rfl) hok) s,
    fun _ s h0 h1 =>
      have hok := checkDivisor_branchfree h0 h1
      generate_then_divide exec_genU64Bf exec_divU64Bf hok (divUBf_ugen (.inr rfl) hok) s⟩

/-- Settles O40: the quotient by the magnitude, with the sign of the divisor. -/
theorem signedBranchfullDivisionIsHardwareDivision : Obligations.SignedBranchfullDivisionIsHardwareDivision :=
  ⟨fun _ s h0 => generate_then_divide exec_genS32 exec_divS32 (checkDivisor_signed h0) (divS_sgen (.inl rfl) h0) s,
    fun _ s h0 => generate_then_divide exec_genS64 exec_divS64 (checkDivisor_signed h0) (divS_sgen (.inr rfl) h0) s⟩

/-- Settles O41: the branchfree formula has the same quotient by the magnitude. -/
theorem signedBranchfreeDivisionIsHardwareDivision : Obligations.SignedBranchfreeDivisionIsHardwareDivision :=
  ⟨fun _ s h0 => generate_then_divide exec_genS32Bf exec_divS32Bf (checkDivisor_signed h0) (divSBf_sgen (.inl rfl) h0) s,
    fun _ s h0 => generate_then_divide exec_genS64Bf exec_divS64Bf (checkDivisor_signed h0) (divSBf_sgen (.inr rfl) h0) s⟩

end Sys2Proof.Machine
end

section
/-! PROOFS. The one quotient that is out of range, `MIN / -1`, which wraps to `MIN` (43_scalar_divide.md R173, 60_exceptions.md R234,
95_test_vectors.md S3). -/

namespace Sys2Proof.Machine

/-- The truncated quotient of the corner wraps to the numerator (40_arithmetic.md R108). -/
theorem ofInt_intMin_tdiv_neg_one {w : Nat} :
    BitVec.ofInt w ((BitVec.intMin w).toInt.tdiv (-1 : BitVec w).toInt) = BitVec.intMin w := by
  rw [← tdiv_eq_ofInt, tdiv_eq_sdiv]
  exact BitVec.intMin_sdiv_neg_one

section MinusOne
variable {w : Nat} (hw : w = 32 ∨ w = 64)
include hw

/-- The Divider of -1 is that of 1 with `NEG` set. -/
theorem sgen_neg_one (va : Variant) : sgen va (-1 : BitVec w) = ⟨0, 0x0180⟩ := by
  have h0 : (1 : BitVec w) ≠ 0 := by rcases hw with rfl | rfl <;> decide
  have hmin : (1 : BitVec w) ≠ BitVec.intMin w := by rcases hw with rfl | rfl <;> decide
  obtain ⟨hmagic, hctl⟩ := sgen_neg_divisor va h0 hmin
  rw [sgen_one hw] at hmagic hctl
  calc sgen va (-1 : BitVec w)
    _ = ⟨(sgen va (-1)).magic, (sgen va (-1)).ctl⟩ := rfl
    _ = ⟨0, 0x0100 ^^^ 0x0080⟩ := by rw [hmagic, hctl]
    _ = ⟨0, 0x0180⟩ := rfl

theorem toNat_neg_one_ne_zero : (-1 : BitVec w).toNat ≠ 0 := by
  rcases hw with rfl | rfl <;> decide

theorem divS_intMin_of_neg_one : divS ⟨0, 0x0180⟩ (BitVec.intMin w) = BitVec.intMin w := by
  rw [← sgen_neg_one hw, divS_sgen hw (toNat_neg_one_ne_zero hw), ofInt_intMin_tdiv_neg_one]

theorem divSBf_intMin_of_neg_one : divSBf ⟨0, 0x0180⟩ (BitVec.intMin w) = BitVec.intMin w := by
  rw [← sgen_neg_one hw, divSBf_sgen hw (toNat_neg_one_ne_zero hw), ofInt_intMin_tdiv_neg_one]

end MinusOne

section Answer
variable {w : Nat} {sg : Signedness} {va : Variant} {div : Divider w sg va → BitVec w → Instr}
  {f : Divider w sg va → BitVec w → BitVec w}

theorem exec_div_of_eq (hdiv : ∀ (s : State) dv n, exec (div dv n) s = .next (answerQuotient (f dv n) s))
    {dv : Divider w sg va} {n q : BitVec w} (hq : f dv n = q) (s : State) :
    exec (div dv n) s = .next { s with responses := s.responses ++ [.ok (.quotient w q)] } := by
  rw [hdiv, hq]
  rfl

end Answer

/-- Settles O44: the Divider of -1 divides as the hardware does, and there the corner wraps. -/
theorem mostNegativeNumeratorByMinusOne : Obligations.MostNegativeNumeratorByMinusOne := fun s =>
  have h32 : 32 = 32 ∨ 32 = 64 := .inl rfl
  have h64 : 64 = 32 ∨ 64 = 64 := .inr rfl
  ⟨exec_gen_of_ok exec_genS32 rfl (sgen_neg_one h32 _) s, exec_div_of_eq exec_divS32 (divS_intMin_of_neg_one h32) s,
    exec_gen_of_ok exec_genS64 rfl (sgen_neg_one h64 _) s, exec_div_of_eq exec_divS64 (divS_intMin_of_neg_one h64) s,
    exec_gen_of_ok exec_genS32Bf rfl (sgen_neg_one h32 _) s, exec_div_of_eq exec_divS32Bf (divSBf_intMin_of_neg_one h32) s,
    exec_gen_of_ok exec_genS64Bf rfl (sgen_neg_one h64 _) s, exec_div_of_eq exec_divS64Bf (divSBf_intMin_of_neg_one h64) s⟩

end Sys2Proof.Machine
end

section
/-! PROOFS. The group divisions against the scalar ones (44_batched_divide.md R200): lane by lane for every Divider, and for a
generated one the hardware quotient of each lane. -/

namespace Sys2Proof.Machine

section Lanewise
variable {w : Nat} {sg : Signedness} {va : Variant} {gen : BitVec w → Instr} {div : Divider w sg va → BitVec w → Instr}
  {vdiv : Divider w sg va → Group → Instr} {g : BitVec w → Divider w sg va} {f : Divider w sg va → BitVec w → BitVec w}

/-- A VDIV and a DIV made of one function of the lane agree on every lane, in units of any `VLEN_BITS`. -/
theorem exec_vdiv_lanes_eq_exec_div
    (hvdiv : ∀ dv nv (s : State), exec (vdiv dv nv) s = .next (answerGroup (mapLanes s.vlen (f dv) nv) s))
    (hdiv : ∀ (s : State) dv n, exec (div dv n) s = .next (answerQuotient (f dv n) s))
    (dv : Divider w sg va) (nv : Group) (s : State) :
    ∃ qv : Group, exec (vdiv dv nv) s = .next { s with responses := s.responses ++ [.ok (.group qv)] } ∧
      ∀ (i : Nat) (t : State), i < s.vlen.bits / w → exec (div dv (lane w i nv)) t =
        .next { t with responses := t.responses ++ [.ok (.quotient w (lane w i qv))] } :=
  ⟨mapLanes s.vlen (f dv) nv, hvdiv dv nv s, fun _ t hi => exec_div_of_eq hdiv (lane_mapLanes s.vlen (f dv) nv hi).symm t⟩

/-- What a GEN returns now, a VDIV divides every lane by at any later time. -/
theorem generate_then_divide_lanes (hgen : ∀ s d, exec (gen d) s = .next (generate g d s))
    (hvdiv : ∀ dv nv (s : State), exec (vdiv dv nv) s = .next (answerGroup (mapLanes s.vlen (f dv) nv) s)) {d : BitVec w}
    (hok : checkDivisor sg va d = .ok ()) {q : BitVec w → BitVec w} (hq : ∀ n, f (g d) n = q n) (s : State) :
    ∃ dv, exec (gen d) s = .next { s with responses := s.responses ++ [.ok (.divider w sg va dv)] } ∧
      ∀ (nv : Group) (t : State),
        ∃ qv : Group, exec (vdiv dv nv) t = .next { t with responses := t.responses ++ [.ok (.group qv)] } ∧
          ∀ i : Nat, i < t.vlen.bits / w → lane w i qv = q (lane w i nv) :=
  ⟨g d, exec_gen_of_ok hgen hok rfl s, fun nv t =>
    ⟨mapLanes t.vlen (f (g d)) nv, hvdiv (g d) nv t, fun _ hi => (lane_mapLanes t.vlen (f (g d)) nv hi).trans (hq _)⟩⟩

end Lanewise

/-- Settles O45: a VDIV maps the function its DIV applies, and on a generated Divider that function is hardware division. -/
theorem groupDivisionIsScalarDivisionLaneByLane : Obligations.GroupDivisionIsScalarDivisionLaneByLane :=
  have h32 : 32 = 32 ∨ 32 = 64 := .inl rfl
  have h64 : 64 = 32 ∨ 64 = 64 := .inr rfl
  ⟨exec_vdiv_lanes_eq_exec_div exec_vdivU32 exec_divU32,
    fun _ s h0 => generate_then_divide_lanes exec_genU32 exec_vdivU32 (checkDivisor_branchfull h0) (divU_ugen h32 h0) s,
    exec_vdiv_lanes_eq_exec_div exec_vdivU64 exec_divU64,
    fun _ s h0 => generate_then_divide_lanes exec_genU64 exec_vdivU64 (checkDivisor_branchfull h0) (divU_ugen h64 h0) s,
    exec_vdiv_lanes_eq_exec_div exec_vdivS32 exec_divS32,
    fun _ s h0 => generate_then_divide_lanes exec_genS32 exec_vdivS32 (checkDivisor_signed h0) (divS_sgen h32 h0) s,
    exec_vdiv_lanes_eq_exec_div exec_vdivS64 exec_divS64,
    fun _ s h0 => generate_then_divide_lanes exec_genS64 exec_vdivS64 (checkDivisor_signed h0) (divS_sgen h64 h0) s,
    exec_vdiv_lanes_eq_exec_div exec_vdivU32Bf exec_divU32Bf,
    fun _ s h0 h1 =>
      have hok := checkDivisor_branchfree h0 h1
      generate_then_divide_lanes exec_genU32Bf exec_vdivU32Bf hok (divUBf_ugen h32 hok) s,
    exec_vdiv_lanes_eq_exec_div exec_vdivU64Bf exec_divU64Bf,
    fun _ s h0 h1 =>
      have hok := checkDivisor_branchfree h0 h1
      generate_then_divide_lanes exec_genU64Bf exec_vdivU64Bf hok (divUBf_ugen h64 hok) s,
    exec_vdiv_lanes_eq_exec_div exec_vdivS32Bf exec_divS32Bf,
    fun _ s h0 => generate_then_divide_lanes exec_genS32Bf exec_vdivS32Bf (checkDivisor_signed h0) (divSBf_sgen h32 h0) s,
    exec_vdiv_lanes_eq_exec_div exec_vdivS64Bf exec_divS64Bf,
    fun _ s h0 => generate_then_divide_lanes exec_genS64Bf exec_vdivS64Bf (checkDivisor_signed h0) (divSBf_sgen h64 h0) s⟩

end Sys2Proof.Machine
end

section
/-! PROOFS. The rejection of an operation word with a reserved bit set (60_exceptions.md R233). -/

namespace Sys2Proof.Machine

/-- Settles O8: the decoder rejects the word from its reserved bits alone, and the step raises what was rejected. -/
theorem illegalWordIsAnsweredUnexamined : Obligations.IllegalWordIsAnsweredUnexamined :=
  ⟨rfl, fun _ _ _ hq hreserved => step_of_decode_error hq (decode_of_reserved hreserved)⟩

end Sys2Proof.Machine
end

section
/-! PROOFS. The unit at rest: right after reset, where nothing has been asked or answered (10_state.md section 4,
70_reset_and_hazards.md section 1), and between requests (60_exceptions.md section 3). -/

namespace Sys2Proof.Machine

open Sys2Proof.Safety

/-- Settles O9: a step acts only on a request it can take. -/
theorem stepWithoutRequestChangesNothing : Obligations.StepWithoutRequestChangesNothing :=
  fun _ hnone => step_of_no_request hnone

/-- After reset no request is taken and no response given, so each response pairs with its request. -/
theorem responsesBelong_resetWith (v : Vlen) : ResponsesBelong (State.resetWith v) := by
  rw [ResponsesBelong, State.resetWith_taken, State.resetWith_responses]
  exact .nil

/-- After reset no Divider has been given. -/
theorem dividersWellFormed_resetWith (v : Vlen) : DividersWellFormed (State.resetWith v) := by
  rw [DividersWellFormed, State.resetWith_responses]
  exact List.forall_mem_nil _

/-- Settles O12: each invariant speaks of the responses given, of which reset leaves none, and `State.reset` is the reset of one
`VLEN_BITS`. -/
theorem resetMeetsTheInvariants : Obligations.ResetMeetsTheInvariants :=
  ⟨fun v => ⟨responsesBelong_resetWith v, dividersWellFormed_resetWith v⟩,
    responsesBelong_resetWith Config.resetVlen, dividersWellFormed_resetWith Config.resetVlen⟩

end Sys2Proof.Machine
end
